-- ==== Sys2Proof/Word.lean ====
section
/-! DEFINITION. The widths every other file uses: the 32-bit register word and byte address, the 8-bit symbol,
and the bit string of spec/00_scope.md R8. -/

namespace Sys2Proof

/-- A register value or a memory-port address (`REG_W` = `ADDR_W` = 32, spec/00_scope.md R6). -/
abbrev Word := BitVec 32

/-- A symbol, a memory byte, or one byte of a container (`SYM_W` = 8, spec/00_scope.md R6). -/
abbrev Byte := BitVec 8

/-- A bit string, first bit first (spec/00_scope.md R8). -/
abbrev Bits := List Bool

end Sys2Proof
end

