-- ==== Sys2Proof/Syntax.lean ====
section
/-! DEFINITION. The instruction set whole: the three commands of spec/30_encoding.md R91, one constructor per row of
spec/opcode_table.json. A command has no operand fields (R90): its operands are the argument registers. -/

namespace Sys2Proof

/-- The commands of the engine (spec/30_encoding.md R91). -/
inductive Instr where
  /-- `compress(rawBytes) -> containerBytes` (spec/45_commands.md R225). -/
  | compress
  /-- `decompress(containerBytes) -> rawBytes` (spec/45_commands.md R228). -/
  | decompress
  /-- `dumpBits(rawBytes) -> textual bit representation` (spec/45_commands.md R231). -/
  | dumpbits
  deriving DecidableEq, Repr

end Sys2Proof
end

