-- ==== Sys2Proof/Decode.lean ====
section
/-! DEFINITION. The decoder of command words, total on all 2^32 of them and rejecting by name, and after it the encoder
(spec/30_encoding.md R90 to R93). -/

namespace Sys2Proof

/-- Why a command word is illegal (spec/30_encoding.md R93). -/
inductive CmdIllegal where
  /-- ARG_OPCODE: OP is none of 0x01, 0x02, 0x03. -/
  | argOpcode
  /-- ARG_RESERVED: OP is legal and RSVD is not zero. -/
  | argReserved
  deriving DecidableEq, Repr

/-- Field OP, bits 7:0 of a command word (R90). -/
def cmdOp (w : Word) : Byte := w.extractLsb' 0 8

/-- Field RSVD, bits 31:8 of a command word (R90). -/
def cmdRsvd (w : Word) : BitVec 24 := w.extractLsb' 8 24

/-- The command an OP value names (R91). -/
def decodeOp (op : Byte) : Option Instr :=
  if op = 0x01#8 then some .compress
  else if op = 0x02#8 then some .decompress
  else if op = 0x03#8 then some .dumpbits
  else none

/-- `DecodeCmd` (R93): the opcode check comes before the reserved-bit check. -/
def decodeCmd (w : Word) : Except CmdIllegal Instr :=
  match decodeOp (cmdOp w) with
  | none => .error .argOpcode
  | some i => if cmdRsvd w = 0#24 then .ok i else .error .argReserved

/-- The opcode of a command (R91). -/
def Instr.op : Instr → Byte
  | .compress => 0x01#8
  | .decompress => 0x02#8
  | .dumpbits => 0x03#8

/-- The command word of a command: RSVD zero above OP (R90). -/
def encode (i : Instr) : Word := 0#24 ++ i.op

/-- The command read from the `nbits` low bits of `w`, the bits above them being 0. A command word has 32 bits, so a
number that does not fit in them is no command word. -/
def decodeTableWord (nbits w : Nat) : Option Instr :=
  if w % 2 ^ nbits < 2 ^ 32 then
    match decodeCmd (BitVec.ofNat 32 (w % 2 ^ nbits)) with
    | .ok i => some i
    | .error _ => none
  else none

end Sys2Proof
end

