-- ==== Sys2Proof/Config.lean ====
section
/-! DEFINITION. What is fixed for the machine: the parameters of spec/00_scope.md R6 that have a value, and, as
constants without a body, the parameters and values the spec leaves open. -/

namespace Sys2Proof

/-- The memory system's answer to one access of the engine (spec/20_memory.md R62, R63). -/
inductive BusAnswer where
  | ok
  | busErr
  deriving DecidableEq, Repr, Inhabited

namespace Config

/-- Distinct symbols of the alphabet (R6). -/
def alphabet : Nat := 256
/-- Bits of a leaf value in the serialized tree (R6). -/
def symW : Nat := 8
/-- Bits of the symbol-count header (R6). -/
def hdrW : Nat := 32
/-- Most leaves of a built tree (R6, R144). -/
def maxLeaves : Nat := 256
/-- Node-arena entries (R6, R43). -/
def nodeCap : Nat := 511
/-- Longest code the code table holds (R6, R181). -/
def codeMaxLen : Nat := 255
/-- Bytes of the memory the port addresses: 2^`ADDR_W` (R6, R60). -/
def addrSpace : Nat := 2 ^ 32
/-- Bits of every register (R6). -/
def regW : Nat := 32
/-- Bits of a memory-port byte address (R6). -/
def addrW : Nat := 32
/-- Bits of each frequency counter and node weight (R6, R148). -/
def freqW : Nat := 32
/-- Bytes of the largest source buffer (R6). -/
def maxSrcLen : Nat := 2 ^ 32 - 1
/-- Bytes of the register window (R6, R21). -/
def regWindow : Nat := 0x40
/-- Entries of the recursion stack of SerNode, DesNode and Derive (R167). -/
def stackDepth : Nat := 512

/-- OPEN `bus_err`: the answer the memory system gives to the engine's access with this draw number
(spec/20_memory.md R62: "a draw per access, under no law"). No body: nothing is provable about it. -/
opaque busAnswer : Nat → BusAnswer

/-- OPEN `latency`: the number of engine steps of the command accepted with this draw number
(spec/70_reset_and_hazards.md R288). The model reads 0 as 1, since `latency` ≥ 1. -/
opaque latency : Nat → Nat

/-- OPEN `REG_BASE`: the platform-chosen base of the register window on the host bus (spec/20_memory.md R68). -/
opaque regBase : Word

/-- The unspecified content of a memory byte (spec/20_memory.md R80(c), and memory nothing has written). The first
argument says since when it is unspecified (0: since power-on), the second is its address. -/
opaque unspecByte : Nat → Nat → Byte

/-- What a host read of a destination-window byte returns while BUSY, by draw number (spec/20_memory.md R80(a)). -/
opaque busyByte : Nat → Byte

end Config

end Sys2Proof
end

