-- ==== Sys2Proof/Machine/State.lean ====
section
/-! DEFINITION. The state of the block and of what it meets: the register file, the sequencer, the engine's internal
state, the memory it shares with the host, and the agents' pending moves. Plain data throughout. -/

namespace Sys2Proof.Machine

/-! ### Register file (spec/10_state.md section 2) -/

/-- STATUS (R24). Bits 31:4 are reserved and read 0, so the four flags are all it stores. -/
structure Status where
  /-- Bit 0: an accepted command runs. -/
  busy : Bool
  /-- Bit 1: the last accepted command ended without error. -/
  done : Bool
  /-- Bit 2: the last command ended in an error or was rejected. -/
  err : Bool
  /-- Bit 3: a CMD write was dropped while BUSY. -/
  ovr : Bool
  deriving DecidableEq, Repr

/-- The error codes (spec/60_exceptions.md R251). No other value of ERR_CODE is ever written. -/
inductive ErrCode where
  | none
  | ioRead
  | ioWrite
  | ioDstFull
  | fmtHeader
  | fmtTreeEos
  | fmtTreeLeafRoot
  | fmtTreeTooLarge
  | fmtPayloadEos
  | argOpcode
  | argReserved
  | argRange
  | argOverlap
  | intNoCode
  deriving DecidableEq, Repr

/-- The registers that hold a value (R22). CMD holds none (R23), and the reserved offsets hold none (R35). -/
structure RegFile where
  /-- STATUS, offset 0x04 (R24). -/
  status : Status
  /-- ERR_CODE, offset 0x08 (R28). -/
  errCode : ErrCode
  /-- ERR_INFO, offset 0x0C (R29). -/
  errInfo : Word
  /-- SRC_ADDR, offset 0x10 (R30). -/
  srcAddr : Word
  /-- SRC_LEN, offset 0x14 (R31). -/
  srcLen : Word
  /-- DST_ADDR, offset 0x18 (R32). -/
  dstAddr : Word
  /-- DST_CAP, offset 0x1C (R33). -/
  dstCap : Word
  /-- RESULT_LEN, offset 0x20 (R34). -/
  resultLen : Word
  deriving DecidableEq, Repr

/-! ### Sequencer (spec/10_state.md R40, R41) -/

/-- The sequencer phase, which stands in for a program counter (R40). -/
inductive Phase where
  | idle
  | cCount
  | cBuild
  | cHeader
  | cTree
  | cDerive
  | cEncode
  | cFlush
  | dHeader
  | dTree
  | dDecode
  | xDump
  deriving DecidableEq, Repr

/-- The command context latched at acceptance (R41). -/
structure Ctx where
  /-- The accepted OP. -/
  op : Byte
  /-- SRC_ADDR at acceptance. -/
  src : Word
  /-- SRC_LEN at acceptance. -/
  len : Word
  /-- DST_ADDR at acceptance. -/
  dst : Word
  /-- DST_CAP at acceptance. -/
  cap : Word
  deriving DecidableEq, Repr

/-! ### Engine internal state (spec/10_state.md R42 to R49) -/

/-- The kind of a node (R43). -/
inductive NodeKind where
  | leaf
  | internal
  deriving DecidableEq, Repr

/-- One entry of the node arena (R43). A field that the kind does not use keeps what it held and is never read. -/
structure Node where
  kind : NodeKind
  /-- The leaf's symbol, meaningful for a leaf. -/
  value : Byte
  /-- Arena index of the left child (code bit 0), meaningful for an internal node. -/
  left : BitVec 9
  /-- Arena index of the right child (code bit 1), meaningful for an internal node. -/
  right : BitVec 9
  /-- Meaningful only while the tree builder runs. -/
  weight : Word
  deriving DecidableEq, Repr

/-- One entry of the code table (R46). Bit k of `code` is bit k of the code string, bit 0 being emitted first. -/
structure CodeEntry where
  valid : Bool
  len : BitVec 8
  code : BitVec 255
  deriving DecidableEq, Repr

/-- The bit-writer cursor (R47). -/
structure Writer where
  /-- `wacc`, the partially filled output byte. -/
  acc : Byte
  /-- `wcnt`, how many bits of `acc` are filled. -/
  cnt : BitVec 3
  /-- `out_pos`, how many bytes are in the destination window. -/
  outPos : Word
  deriving DecidableEq, Repr

/-- The bit-reader cursor (R48). -/
structure Reader where
  /-- `rbyte`, the current source byte. -/
  byte : Byte
  /-- `rcnt`, how many bits of `byte` are unread, 0 to 8. -/
  cnt : BitVec 4
  /-- `in_pos`, how many source bytes have been fetched. -/
  inPos : Word
  deriving DecidableEq, Repr

/-- The engine's internal state, not host-readable (R42 to R49). -/
structure Engine where
  /-- `FREQ[0..255]` (R42). -/
  freq : Vector Word 256
  /-- `NODE[0..510]` (R43). -/
  node : Vector Node 511
  /-- `ALIVE[0..510]` (R44). -/
  alive : Vector Bool 511
  /-- `node_count` (R45). -/
  nodeCount : BitVec 10
  /-- `root` (R45). -/
  root : BitVec 9
  /-- `CT[0..255]` (R46). -/
  ct : Vector CodeEntry 256
  /-- `wacc`, `wcnt`, `out_pos` (R47). -/
  w : Writer
  /-- `rbyte`, `rcnt`, `in_pos` (R48). -/
  r : Reader
  /-- `N`, the symbol count read from a container header (R49). -/
  symCount : Word
  /-- `sym`, how many symbols are decoded and written (R49). -/
  sym : Word
  /-- `k`, the source byte index of the byte-wise passes (R49). -/
  k : Word
  deriving DecidableEq, Repr

/-! ### Memory (spec/20_memory.md R60, R80) -/

/-- A stretch of memory whose bytes became unspecified at one moment (spec/20_memory.md R80(c), R63). `seed` tells the
moments apart, so that the free values of different moments are independent. -/
structure Window where
  base : Nat
  len : Nat
  seed : Nat
  deriving DecidableEq, Repr

/-- The 2^32-byte memory shared by the host and the engine (spec/20_memory.md R60). `cells` lists the bytes whose value
is known, addresses strictly rising. A byte not listed is unspecified, since the latest window of `unspec` (newest
first) that holds it, or since power-on. -/
structure Memory where
  cells : List Host.Cell
  unspec : List Window
  deriving DecidableEq, Repr

/-! ### The agents' moves (spec/20_memory.md R79, spec/70_reset_and_hazards.md R290) -/

/-- One move of an agent. Which agent moves next is data, so every interleaving of R290 is some list of these. -/
inductive Input where
  /-- The host reads the register window at an offset, with an access of so many bits (R21). -/
  | regRead (off : BitVec 6) (width : Nat)
  /-- The host writes the register window (R21). -/
  | regWrite (off : BitVec 6) (width : Nat) (v : Word)
  /-- The host reads at an address of its own bus, where the window stands at `REG_BASE` (R68). -/
  | busRead (addr : Word) (width : Nat)
  /-- The host writes at an address of its own bus (R68). -/
  | busWrite (addr : Word) (width : Nat) (v : Word)
  /-- The host reads one byte of memory (R105 `MEMR`). -/
  | memRead (a : Word)
  /-- The host stores one byte to memory (R105 `MEMW`). -/
  | memWrite (a : Word) (b : Byte)
  /-- The host polls STATUS until BUSY = 0, the engine moving between two polls (R106 `WAIT`). -/
  | wait
  /-- The reset input is asserted and released (R280). -/
  | rst
  /-- The engine moves (R290). -/
  | engine
  deriving DecidableEq, Repr

/-- What a host access gets back (R21, R79). -/
inductive HostResp where
  /-- A 32-bit register value. -/
  | data (v : Word)
  /-- A memory byte. -/
  | byte (b : Byte)
  /-- A write was taken. -/
  | ok
  /-- The access was malformed (R21). -/
  | busError
  deriving DecidableEq, Repr

/-- What is outside the block, and the model's own bookkeeping for what the spec leaves open. -/
structure Env where
  /-- The moves to come, the next one first. -/
  inputs : List Input
  /-- The response to the host's latest access. -/
  resp : Option HostResp
  /-- The memory system's answers already settled for the engine's next accesses, the next one first. Past the end of
  this list the answers are `Config.busAnswer`. -/
  answers : List BusAnswer
  /-- How many free values have been drawn. -/
  draws : Nat
  /-- Engine steps left of the running command's `latency`. -/
  latencyLeft : Nat
  deriving DecidableEq, Repr

/-- The whole machine. -/
structure State where
  /-- The register file (spec/10_state.md section 2). -/
  regs : RegFile
  /-- `phase` (R40). -/
  phase : Phase
  /-- `ctx` (R41). -/
  ctx : Ctx
  /-- The engine's internal state (R42 to R49). -/
  eng : Engine
  /-- The shared memory (R60). -/
  mem : Memory
  /-- The outside of the block. -/
  env : Env
  deriving DecidableEq, Repr

/-! ### Reset (spec/10_state.md R51) -/

/-- STATUS = 0x00000000 (R51). -/
def Status.reset : Status := ⟨false, false, false, false⟩

/-- Every register 0x00000000 (R51). -/
def RegFile.reset : RegFile where
  status := .reset
  errCode := .none
  errInfo := 0
  srcAddr := 0
  srcLen := 0
  dstAddr := 0
  dstCap := 0
  resultLen := 0

/-- `ctx` is unspecified after reset (R51). DESIGN CHOICE: zero, notes/assumptions/1.md. -/
def Ctx.reset : Ctx := ⟨0, 0, 0, 0, 0⟩

/-- An arena entry is unspecified after reset (R51). DESIGN CHOICE: a leaf of zeros, notes/assumptions/1.md. -/
def Node.reset : Node := ⟨.leaf, 0, 0, 0, 0⟩

/-- A code-table entry is unspecified after reset (R51). DESIGN CHOICE: zeros, notes/assumptions/1.md. -/
def CodeEntry.reset : CodeEntry := ⟨false, 0, 0⟩

/-- The internal state is unspecified after reset (R51). DESIGN CHOICE: zeros, notes/assumptions/1.md. -/
def Engine.reset : Engine where
  freq := .replicate 256 0
  node := .replicate 511 .reset
  alive := .replicate 511 false
  nodeCount := 0
  root := 0
  ct := .replicate 256 .reset
  w := ⟨0, 0, 0⟩
  r := ⟨0, 0, 0⟩
  symCount := 0
  sym := 0
  k := 0

/-- Memory at power-on: no byte has a known value. DESIGN CHOICE: notes/assumptions/4.md. -/
def Memory.reset : Memory := ⟨[], []⟩

/-- Nothing is pending and nothing has been drawn. DESIGN CHOICE: notes/assumptions/2.md, notes/assumptions/3.md,
notes/assumptions/6.md, notes/assumptions/11.md. -/
def Env.reset : Env := ⟨[], none, [], 0, 0⟩

/-- The machine right after reset (R51, R280): every register 0, `phase` IDLE, nothing listed in memory. -/
def State.reset : State where
  regs := .reset
  phase := .idle
  ctx := .reset
  eng := .reset
  mem := .reset
  env := .reset

/-! ### How a step can stop -/

/-- Reasons a step stops with a fault. Each is raised by an engine step, only in states that no run from reset reaches,
and is safe: the model stops where the spec says nothing. -/
inductive Fault where
  /-- An engine step while BUSY finds a `ctx.op` that is no command. Raised by `engineMove`. Safe: acceptance latches
  only OP 0x01 to 0x03 (R222, R223). -/
  | noRunningCommand
  /-- A command is in a phase that is none of its own. Raised by the phase tables of the three meanings. Safe: R223 and
  the phase orders of R225, R228 and R231 never give one. -/
  | phaseOutOfOrder
  /-- The arena holds no tree the engine can follow: an index past its 511 entries, an empty working set, or a walk past
  the recursion stack or past the bits the source holds. Raised by the tree builder, SerNode, DesNode, Derive and the
  decode loop, and by phase D_HEADER for a header read that ends early, which R228 rules out. Safe: R147, R149 and R167
  exclude it for every tree built or read. -/
  | brokenArena
  deriving DecidableEq, Repr

/-- Reasons a step is refused. -/
inductive Refusal where
  /-- Raised by `exec` for an instruction whose meaning is not written. Safe: nothing is claimed of it. -/
  | notModelled (mnemonic : String)
  /-- The host writes a byte of the running command's source buffer or destination window (spec/20_memory.md R78(a),
  R78(b): "A model gives a host that breaks (a), (b) or (d) no move"). Raised by `hostMemWrite`. Unsafe, as the spec
  says of it: a claim says nothing about a run with such a host. -/
  | hostDutyBroken
  deriving DecidableEq, Repr

end Sys2Proof.Machine
end

