-- ==== Sys2Proof/Machine/Flags.lean ====
section
/-! DEFINITION. The flags of STATUS and the error codes: how each is set, cleared and read
(spec/10_state.md R24 to R29, spec/60_exceptions.md R250, R251). -/

namespace Sys2Proof.Machine

/-- STATUS as the host reads it (R24): BUSY, DONE, ERR and OVR in bits 0 to 3, the rest 0. -/
def Status.word (t : Status) : Word :=
  0#28 ++ BitVec.ofBool t.ovr ++ BitVec.ofBool t.err ++ BitVec.ofBool t.done ++ BitVec.ofBool t.busy

/-- A STATUS write (R22, R24): writing 1 to bit 1, 2 or 3 clears that flag, and BUSY is never changed. -/
def Status.w1c (t : Status) (v : Word) : Status where
  busy := t.busy
  done := t.done && !v.getLsbD 1
  err := t.err && !v.getLsbD 2
  ovr := t.ovr && !v.getLsbD 3

/-- DONE cleared, at the issue of a command while idle (R25, spec/45_commands.md R221). -/
def Status.issued (t : Status) : Status := { t with done := false }

/-- BUSY set and ERR cleared by acceptance, OVR not changed (R24, R26, R27, spec/45_commands.md R223). -/
def Status.accepted (t : Status) : Status := { t with err := false, busy := true }

/-- DONE set and BUSY cleared by completion (R24, R25, spec/45_commands.md R224). -/
def Status.completed (t : Status) : Status := { t with done := true, busy := false }

/-- ERR set, DONE and BUSY cleared by error entry (R24, R26, spec/60_exceptions.md R256). -/
def Status.errored (t : Status) : Status := { t with done := false, err := true, busy := false }

/-- OVR set by a dropped CMD write (R27). -/
def Status.overrun (t : Status) : Status := { t with ovr := true }

/-- The code of an error (spec/60_exceptions.md R251). -/
def ErrCode.byte : ErrCode → Byte
  | .none => 0x00#8
  | .ioRead => 0x01#8
  | .ioWrite => 0x02#8
  | .ioDstFull => 0x03#8
  | .fmtHeader => 0x10#8
  | .fmtTreeEos => 0x11#8
  | .fmtTreeLeafRoot => 0x12#8
  | .fmtTreeTooLarge => 0x13#8
  | .fmtPayloadEos => 0x14#8
  | .argOpcode => 0x20#8
  | .argReserved => 0x21#8
  | .argRange => 0x22#8
  | .argOverlap => 0x23#8
  | .intNoCode => 0x30#8

/-- The class of an error, bits 7:4 of its code (R28, spec/60_exceptions.md R250). -/
def ErrCode.errClass (c : ErrCode) : BitVec 4 := c.byte.extractLsb' 4 4

/-- ERR_CODE as the host reads it (R28): the code in bits 7:0, the rest 0. -/
def ErrCode.word (c : ErrCode) : Word := c.byte.setWidth 32

end Sys2Proof.Machine
end

