-- ==== Sys2Proof/Machine/Memory.lean ====
section
/-! DEFINITION. Operations on the shared memory: read one byte, write one byte, and make a stretch unspecified
(spec/20_memory.md R60 to R63, R80). -/

namespace Sys2Proof.Machine

/-- The byte listed at an address. -/
def lookupCell : List Host.Cell → Nat → Option Byte
  | [], _ => none
  | c :: cs, a => if c.1 = a then some c.2 else lookupCell cs a

/-- A byte listed at an address, in place of what was listed there, keeping the addresses rising. -/
def insertCell : List Host.Cell → Nat → Byte → List Host.Cell
  | [], a, b => [(a, b)]
  | c :: cs, a, b =>
    if a < c.1 then (a, b) :: c :: cs
    else if a = c.1 then (a, b) :: cs
    else c :: insertCell cs a b

/-- An address lies in the `len` bytes from `base`. -/
def inWindow (base len a : Nat) : Bool := decide (base ≤ a ∧ a < base + len)

/-- Since when an unlisted address is unspecified: the newest window that holds it, or 0 for power-on. -/
def unspecSeed : List Window → Nat → Nat
  | [], _ => 0
  | w :: ws, a => if inWindow w.base w.len a then w.seed else unspecSeed ws a

namespace Memory

/-- The canonical form: addresses strictly rising and inside the address space (R60). Two memories in this form that
list the same bytes are the same list. -/
abbrev wf (m : Memory) : Prop :=
  m.cells.Pairwise (fun c d => c.1 < d.1) ∧ ∀ c ∈ m.cells, c.1 < Config.addrSpace

/-- What an address that lists no byte reads as: the free value of its being unspecified. DESIGN CHOICE,
notes/assumptions/4.md. -/
def unlisted (m : Memory) (a : Nat) : Byte := Config.unspecByte (unspecSeed m.unspec a) a

/-- The byte at an address (R62). -/
def read (m : Memory) (a : Nat) : Byte := (lookupCell m.cells a).getD (m.unlisted a)

/-- A byte stored at an address (R63). -/
def write (m : Memory) (a : Nat) (b : Byte) : Memory := { m with cells := insertCell m.cells a b }

/-- The `len` bytes from `base` take unspecified values (R80(c)). -/
def forget (m : Memory) (base len seed : Nat) : Memory where
  cells := m.cells.filter fun c => !inWindow base len c.1
  unspec := ⟨base, len, seed⟩ :: m.unspec

end Memory

/-- Consecutive bytes stored from an address on (R105 `MEMW`). -/
def writeBytes (m : Memory) (a : Nat) : List Byte → Memory
  | [] => m
  | b :: bs => writeBytes (m.write a b) (a + 1) bs

/-- Consecutive bytes read from an address on (R105 `MEMR`). -/
def readBytes (m : Memory) (a n : Nat) : List Byte := (List.range n).map fun i => m.read (a + i)

end Sys2Proof.Machine
end

