-- ==== Sys2Proof/Machine/Ops.lean ====
section
/-! DEFINITION. The operations the meanings share: how a computation of the engine ends, the memory port, the register
window, acceptance, completion and error entry. -/

namespace Sys2Proof.Machine

/-! ### Bits of numbers and bytes (spec/00_scope.md R7, R8) -/

/-- `bits_n(v)`: the n-bit string of v, most significant bit first (R8). -/
def bitsOf (n v : Nat) : Bits := (List.range n).map fun i => v.testBit (n - 1 - i)

/-- The byte whose bit `7 - i` is `f i`: eight bits packed most significant bit first (spec/20_memory.md R65). -/
def byteOfBits (f : Nat → Bool) : Byte := BitVec.ofBoolListBE [f 0, f 1, f 2, f 3, f 4, f 5, f 6, f 7]

/-! ### How a computation of the engine ends (spec/00_scope.md R10) -/

/-- The end of a computation: a value and the state it leaves, a `raise`, or a stop that no run from reset reaches. -/
inductive Res (α : Type) where
  | ok (a : α) (s : State)
  | raised (code : ErrCode) (info : Word) (s : State)
  | stuck (f : Fault)

/-- Statements in the order written: nothing after a `raise` executes (R10). -/
def Res.bind {α β : Type} (x : Res α) (f : α → State → Res β) : Res β :=
  match x with
  | .ok a s => f a s
  | .raised c i s => .raised c i s
  | .stuck e => .stuck e

/-! ### Updates of one part of the state -/

/-- The state with another register file. -/
def State.setRegs (s : State) (r : RegFile) : State := { s with regs := r }
/-- The state with another STATUS. -/
def State.setStatus (s : State) (t : Status) : State := { s with regs := { s.regs with status := t } }
/-- `phase <- p` (R10). -/
def State.setPhase (s : State) (p : Phase) : State := { s with phase := p }
/-- The state with another internal state. -/
def State.setEng (s : State) (e : Engine) : State := { s with eng := e }
/-- The state with another writer cursor. -/
def State.setWriter (s : State) (w : Writer) : State := { s with eng := { s.eng with w := w } }
/-- The state with another reader cursor. -/
def State.setReader (s : State) (r : Reader) : State := { s with eng := { s.eng with r := r } }
/-- `k <- v`. -/
def State.setK (s : State) (v : Word) : State := { s with eng := { s.eng with k := v } }
/-- `sym <- v`. -/
def State.setSym (s : State) (v : Word) : State := { s with eng := { s.eng with sym := v } }
/-- `N <- v`. -/
def State.setSymCount (s : State) (v : Word) : State := { s with eng := { s.eng with symCount := v } }
/-- The state with another memory. -/
def State.setMem (s : State) (m : Memory) : State := { s with mem := m }
/-- The state with the moves to come replaced. -/
def State.setInputs (s : State) (l : List Input) : State := { s with env := { s.env with inputs := l } }
/-- The state with the response to a host access in place. -/
def State.respond (s : State) (r : HostResp) : State := { s with env := { s.env with resp := some r } }
/-- One free value more has been drawn. -/
def State.drawn (s : State) : State := { s with env := { s.env with draws := s.env.draws + 1 } }

/-! ### Memory port (spec/20_memory.md R61 to R63) -/

/-- The memory system's answer to the engine's next access: the next settled one, or a free one (R62: "a draw per
access, under no law"). notes/assumptions/2.md. -/
def nextAnswer (s : State) : BusAnswer × State :=
  match s.env.answers with
  | x :: xs => (x, { s with env := { s.env with answers := xs } })
  | [] => (Config.busAnswer s.env.draws, s.drawn)

/-- `MemRead(a, 1)` (R62): the byte at `a`, or nothing for `BusErr`. -/
def memRead (a : Word) (s : State) : Option Byte × State :=
  match nextAnswer s with
  | (.ok, s') => (some (s'.mem.read a.toNat), s')
  | (.busErr, s') => (none, s')

/-- The `len` bytes from `base` take unspecified values, free of every other unspecified value. -/
def forgetBytes (base len : Word) (s : State) : State :=
  (s.setMem (s.mem.forget base.toNat len.toNat (s.env.draws + 1))).drawn

/-- `MemWrite(a, 1, v)` (R63): whether the answer is `Ok`. On `Ok` byte `a` becomes `v`, on `BusErr` it is unspecified. -/
def memWrite (a : Word) (v : Byte) (s : State) : Bool × State :=
  match nextAnswer s with
  | (.ok, s') => (true, s'.setMem (s'.mem.write a.toNat v))
  | (.busErr, s') => (false, forgetBytes a 1 s')

/-! ### Completion and error entry (spec/45_commands.md R224, spec/60_exceptions.md R256) -/

/-- `Complete(result_len)` (spec/45_commands.md R224). -/
def complete (resultLen : Word) (s : State) : State :=
  (s.setRegs { s.regs with resultLen := resultLen, status := s.regs.status.completed }).setPhase .idle

/-- `ErrorEntry(code, info)` (spec/60_exceptions.md R256): what a rejection does, and the registers' part of an error
during a command. -/
def errorEntry (code : ErrCode) (info : Word) (s : State) : State :=
  (s.setRegs { s.regs with
    errCode := code, errInfo := info, resultLen := 0, status := s.regs.status.errored }).setPhase .idle

/-- An error during an accepted command (R256): error entry, and every byte of the destination window is unspecified
(spec/20_memory.md R80(c)). -/
def commandError (code : ErrCode) (info : Word) (s : State) : State :=
  errorEntry code info (forgetBytes s.ctx.dst s.ctx.cap s)

/-! ### Issue and acceptance (spec/45_commands.md R221, R223) -/

/-- The first phase of a command (R223). -/
def Phase.first : Instr → Phase
  | .compress => .cCount
  | .decompress => .dHeader
  | .dumpbits => .xDump

/-- The first statement of `IssueWhileIdle` (R221): `DONE <- 0`. -/
def issued (s : State) : State := s.setStatus s.regs.status.issued

/-- The engine steps an accepted command takes, at least 1 (spec/70_reset_and_hazards.md R288), a free value.
notes/assumptions/3.md. -/
def drawLatency (s : State) : State :=
  { s with env := { s.env with
    latencyLeft := max 1 (Config.latency s.env.draws), draws := s.env.draws + 1 } }

/-- `Accept(w)` for the word of command `i` (R223). -/
def accept (op : Byte) (first : Phase) (s : State) : State :=
  drawLatency { s with
    ctx := ⟨op, s.regs.srcAddr, s.regs.srcLen, s.regs.dstAddr, s.regs.dstCap⟩
    regs := { s.regs with
      errCode := .none, errInfo := 0, resultLen := 0, status := s.regs.status.accepted }
    phase := first }

/-- A CMD write while BUSY is dropped: only OVR changes (spec/10_state.md R27). -/
def dropCommand (s : State) : State := s.setStatus s.regs.status.overrun

/-! ### Register window (spec/10_state.md R21 to R35) -/

/-- What a well-formed read of the window returns (R22). CMD and the reserved offsets read 0. -/
def RegFile.read (r : RegFile) (off : BitVec 6) : Word :=
  if off = 0x04#6 then r.status.word
  else if off = 0x08#6 then r.errCode.word
  else if off = 0x0C#6 then r.errInfo
  else if off = 0x10#6 then r.srcAddr
  else if off = 0x14#6 then r.srcLen
  else if off = 0x18#6 then r.dstAddr
  else if off = 0x1C#6 then r.dstCap
  else if off = 0x20#6 then r.resultLen
  else 0

/-- What a well-formed write of the window does to the registers, at every offset but CMD's (R22). Writes to the
read-only registers and the reserved offsets are ignored (R21, R35). -/
def RegFile.write (r : RegFile) (off : BitVec 6) (v : Word) : RegFile :=
  if off = 0x04#6 then { r with status := r.status.w1c v }
  else if off = 0x10#6 then { r with srcAddr := v }
  else if off = 0x14#6 then { r with srcLen := v }
  else if off = 0x18#6 then { r with dstAddr := v }
  else if off = 0x1C#6 then { r with dstCap := v }
  else r

/-- A register access of 32 bits at an offset that is a multiple of 4 (R21). Any other gets a bus error. -/
def regAccessOk (off : BitVec 6) (width : Nat) : Bool := width == 32 && off.extractLsb' 0 2 == 0#2

/-- The offset in the register window of an address of the host's bus (R21, spec/20_memory.md R68). -/
def regOffset (addr : Word) : Option (BitVec 6) :=
  if (addr - Config.regBase).toNat < Config.regWindow then some ((addr - Config.regBase).setWidth 6) else none

end Sys2Proof.Machine
end

