-- ==== Sys2Proof/WellFormed.lean ====
section
/-! DEFINITION. Well-formedness. An `Instr` has no fields, so every term of it is well-formed. What can be ill-formed is
what a host sends with a command: the command word, the four arguments, and the register access itself. -/

namespace Sys2Proof

/-- Every command is well-formed: the CMD format has no register, immediate or mode fields (spec/30_encoding.md R90). -/
def Instr.wf : Instr → Bool
  | .compress => true
  | .decompress => true
  | .dumpbits => true

/-- The four arguments of a command (spec/10_state.md R30 to R33). -/
structure CmdArgs where
  /-- SRC_ADDR -/
  src : Word
  /-- SRC_LEN -/
  len : Word
  /-- DST_ADDR -/
  dst : Word
  /-- DST_CAP -/
  cap : Word
  deriving DecidableEq, Repr

/-- The source buffer ends at or below 2^32, in exact arithmetic (spec/45_commands.md R222 check 3). -/
def CmdArgs.srcInRange (a : CmdArgs) : Bool := decide (a.src.toNat + a.len.toNat ≤ Config.addrSpace)

/-- The destination window ends at or below 2^32 (spec/45_commands.md R222 check 4). -/
def CmdArgs.dstInRange (a : CmdArgs) : Bool := decide (a.dst.toNat + a.cap.toNat ≤ Config.addrSpace)

/-- The two buffers share a byte (spec/45_commands.md R222 check 5). -/
def CmdArgs.overlap (a : CmdArgs) : Bool :=
  decide (0 < a.len.toNat ∧ 0 < a.cap.toNat ∧ a.src.toNat < a.dst.toNat + a.cap.toNat ∧
    a.dst.toNat < a.src.toNat + a.len.toNat)

/-- Arguments that no check of spec/45_commands.md R222 rejects. -/
def CmdArgs.wf (a : CmdArgs) : Bool := a.srcInRange && a.dstInRange && !a.overlap

/-- A command word whose OP is legal (spec/30_encoding.md R91). -/
def cmdWordOpLegal (w : Word) : Bool :=
  w.extractLsb' 0 8 == 0x01#8 || w.extractLsb' 0 8 == 0x02#8 || w.extractLsb' 0 8 == 0x03#8

/-- A command word whose RSVD field is zero (spec/30_encoding.md R92). -/
def cmdWordRsvdZero (w : Word) : Bool := w.extractLsb' 8 24 == 0#24

/-- A command word that decodes to a command (spec/30_encoding.md R93). -/
def cmdWordWf (w : Word) : Bool := cmdWordOpLegal w && cmdWordRsvdZero w

/-- A register access the window answers with data or an acknowledgement: 32 bits wide, at an offset that is a
multiple of 4 (spec/10_state.md R21). -/
def regAccessWf (off : BitVec 6) (width : Nat) : Bool := width == 32 && off.toNat % 4 == 0

end Sys2Proof
end

