-- ==== Sys2Proof/Machine/Operands.lean ====
section
/-! DEFINITION. The operands: the four argument registers and the checks made on them, the raw source bytes, and the
arena entries (spec/30_encoding.md R107, spec/45_commands.md R222, spec/40_bitstream.md R129). -/

namespace Sys2Proof.Machine

/-- The command operands, as acceptance latches them (R107(a)). -/
def RegFile.args (r : RegFile) : CmdArgs := ⟨r.srcAddr, r.srcLen, r.dstAddr, r.dstCap⟩

/-- Checks 3 to 5 of `AcceptChecks` (R222), in exact integers, the first that fails deciding: its code and ERR_INFO. -/
def argCheck (a : CmdArgs) : Option (ErrCode × Word) :=
  let s := a.src.toNat
  let n := a.len.toNat
  let d := a.dst.toNat
  let c := a.cap.toNat
  if s + n > 2 ^ 32 then some (.argRange, 0)
  else if d + c > 2 ^ 32 then some (.argRange, 1)
  else if n > 0 ∧ c > 0 ∧ s < d + c ∧ d < s + n then some (.argOverlap, 0)
  else none

/-- The error code of an illegal command word (R222 checks 1 and 2). -/
def illegalCode : CmdIllegal → ErrCode
  | .argOpcode => .argOpcode
  | .argReserved => .argReserved

/-- `AcceptChecks(w)` whole (R222): the command, or the rejection's code and ERR_INFO. -/
def acceptChecks (w : Word) (a : CmdArgs) : Except (ErrCode × Word) Instr :=
  match decodeCmd w with
  | .error e => .error (illegalCode e, w)
  | .ok i =>
    match argCheck a with
    | some (c, info) => .error (c, info)
    | none => .ok i

/-- `GetByte(i)` (spec/40_bitstream.md R129). -/
def getByte (i : Word) (s : State) : Res Byte :=
  match memRead (s.ctx.src + i) s with
  | (some b, s') => .ok b s'
  | (none, s') => .raised .ioRead i s'

/-- The arena entry an index names, if it is one of the 511 (spec/10_state.md R43). -/
def Engine.nodeAt (e : Engine) (i : BitVec 9) : Option Node := e.node[i.toNat]?

/-- The code-table entry of a symbol (spec/10_state.md R46). -/
def Engine.codeEntry (e : Engine) (b : Byte) : CodeEntry := e.ct[b.toNat]'b.isLt

end Sys2Proof.Machine
end

