-- ==== Sys2Proof/Machine/BitStream.lean ====
section
/-! DEFINITION. The bit-stream I/O engine (spec/40_bitstream.md): the writer over the destination window and the reader
over the source buffer. -/

namespace Sys2Proof.Machine

/-! ### The writer (R121 to R125) -/

/-- `WInit()` (R121). -/
def wInit (s : State) : State := s.setWriter ⟨0, 0, 0⟩

/-- `PutByte(v)` (R122). -/
def putByte (v : Byte) (s : State) : Res Unit :=
  if s.eng.w.outPos = s.ctx.cap then .raised .ioDstFull s.eng.w.outPos s
  else
    match memWrite (s.ctx.dst + s.eng.w.outPos) v s with
    | (false, s') => .raised .ioWrite s'.eng.w.outPos s'
    | (true, s') => .ok () (s'.setWriter { s'.eng.w with outPos := s'.eng.w.outPos + 1 })

/-- `wacc` with one bit more: `wacc OR (b << (7 - wcnt))` (R123). -/
def Writer.push (w : Writer) (b : Bool) : Byte :=
  w.acc ||| ((BitVec.ofBool b).setWidth 8 <<< (7 - w.cnt.toNat))

/-- `PutByte(wacc); wacc <- 0x00; wcnt <- 0`, as WriteBit and Flush do it (R123, R125). -/
def putAcc (s : State) : Res Unit :=
  (putByte s.eng.w.acc s).bind fun _ s => .ok () (s.setWriter { s.eng.w with acc := 0, cnt := 0 })

/-- `WriteBit(b)` (R123). -/
def writeBit (b : Bool) (s : State) : Res Unit :=
  let s1 := s.setWriter { s.eng.w with acc := s.eng.w.push b }
  if s.eng.w.cnt = 7#3 then putAcc s1
  else .ok () (s1.setWriter { s1.eng.w with cnt := s1.eng.w.cnt + 1 })

/-- `WriteString(s)` (R124). -/
def writeString : Bits → State → Res Unit
  | [], s => .ok () s
  | b :: bs, s => (writeBit b s).bind fun _ s => writeString bs s

/-- `WriteBits(v, n)`, which is `WriteString(bits_n(v))` (R124). -/
def writeBits (v n : Nat) (s : State) : Res Unit := writeString (bitsOf n v) s

/-- `Flush()` (R125). -/
def flush (s : State) : Res Unit := if s.eng.w.cnt = 0#3 then .ok () s else putAcc s

/-! ### The reader (R126 to R128) -/

/-- `RInit()` (R126). -/
def rInit (s : State) : State := s.setReader { s.eng.r with cnt := 0, inPos := 0 }

/-- The bit of the loaded byte that comes next, taken (R127: bit 7 of a byte is read first). -/
def takeBit (s : State) : Res (Option Bool) :=
  .ok (some (s.eng.r.byte.getLsbD (s.eng.r.cnt.toNat - 1))) (s.setReader { s.eng.r with cnt := s.eng.r.cnt - 1 })

/-- `ReadBit()` (R127). Nothing stands for EOS. -/
def readBit (s : State) : Res (Option Bool) :=
  if s.eng.r.cnt = 0#4 then
    if s.eng.r.inPos = s.ctx.len then .ok none s
    else
      match memRead (s.ctx.src + s.eng.r.inPos) s with
      | (none, s') => .raised .ioRead s'.eng.r.inPos s'
      | (some b, s') => takeBit (s'.setReader ⟨b, 8, s'.eng.r.inPos + 1⟩)
  else takeBit s

/-- The loop of `ReadBits`, with the number read so far (R128). -/
def readBitsFrom : Nat → Word → State → Res (Option Word)
  | 0, v, s => .ok (some v) s
  | n + 1, v, s =>
    (readBit s).bind fun
      | none, s => .ok none s
      | some b, s => readBitsFrom n (v <<< 1 ||| (BitVec.ofBool b).setWidth 32) s

/-- `ReadBits(n)` (R128). Nothing stands for EOS. -/
def readBits (n : Nat) (s : State) : Res (Option Word) := readBitsFrom n 0 s

end Sys2Proof.Machine
end

