-- ==== Sys2Proof/Machine/CodeTable.lean ====
section
/-! DEFINITION. The code table and the encoder: phases C_DERIVE and C_ENCODE (spec/43_code_table_encoder.md). -/

namespace Sys2Proof.Machine

/-- The number whose bit k is bit k of the string. -/
def natOfBits : Bits → Nat
  | [] => 0
  | b :: bs => b.toNat + 2 * natOfBits bs

/-- `{valid: 1, len: |path|, code: path}` (R180). DESIGN CHOICE: the bits of `code` past the string are 0, which no rule
says and no rule reads, notes/assumptions/9.md. -/
def CodeEntry.ofPath (path : Bits) : CodeEntry :=
  ⟨true, BitVec.ofNat 8 path.length, BitVec.ofNat 255 (natOfBits path)⟩

/-- The code string an entry holds (spec/10_state.md R46). -/
def CodeEntry.bits (c : CodeEntry) : Bits := (List.range c.len.toNat).map c.code.getLsbD

/-- `CT[v] <- c`. -/
def Engine.setCode (e : Engine) (v : Byte) (c : CodeEntry) : Engine := { e with ct := e.ct.set v.toNat c v.isLt }

/-- `Derive(i, path)` (R180), with so many entries of the recursion stack left (R167). A later leaf of the same value
overwrites (R182). -/
def derive : Nat → BitVec 9 → Bits → Engine → Option Engine
  | 0, _, _, _ => none
  | depth + 1, i, path, e =>
    match e.nodeAt i with
    | none => none
    | some n =>
      match n.kind with
      | .leaf => some (e.setCode n.value (.ofPath path))
      | .internal =>
        match derive depth n.left (path ++ [false]) e with
        | none => none
        | some e => derive depth n.right (path ++ [true]) e

/-- `for v in 0 .. 255: CT[v].valid <- 0` (R180). -/
def Engine.clearCodes (e : Engine) : Engine := { e with ct := e.ct.map fun c => { c with valid := false } }

/-- Phase C_DERIVE (R180). -/
def cDerive (s : State) : Res Unit :=
  match derive Config.stackDepth s.eng.root [] s.eng.clearCodes with
  | none => .stuck .brokenArena
  | some e => .ok () ((s.setEng e).setPhase .cEncode)

/-- The encoding loop over so many source bytes more, from byte `k` on (R185). A byte with no code raises INT_NO_CODE
(R186). -/
def encodeLoop : Nat → State → Res Unit
  | 0, s => .ok () s
  | n + 1, s =>
    (getByte s.eng.k s).bind fun b s =>
      if (s.eng.codeEntry b).valid then
        (writeString (s.eng.codeEntry b).bits s).bind fun _ s => encodeLoop n (s.setK (s.eng.k + 1))
      else .raised .intNoCode s.eng.k s

/-- Phase C_ENCODE (R185). -/
def cEncode (s : State) : Res Unit :=
  (encodeLoop s.ctx.len.toNat (s.setK 0)).bind fun _ s => .ok () (s.setPhase .cFlush)

end Sys2Proof.Machine
end

