-- ==== Sys2Proof/Machine/Decoder.lean ====
section
/-! DEFINITION. The tree-walk decoder: phase D_DECODE (spec/44_decoder.md). -/

namespace Sys2Proof.Machine

/-- The walk from arena index `i` to a leaf (R201): the leaf's value, or nothing for EOS. Each internal node takes one
bit, so a walk is never longer than the bits that are left. -/
def walkArena : Nat → BitVec 9 → State → Res (Option Byte)
  | 0, _, _ => .stuck .brokenArena
  | steps + 1, i, s =>
    match s.eng.nodeAt i with
    | none => .stuck .brokenArena
    | some n =>
      match n.kind with
      | .leaf => .ok (some n.value) s
      | .internal =>
        (readBit s).bind fun
          | none, s => .ok none s
          | some b, s => walkArena steps (if b then n.right else n.left) s

/-- One more than the most bits a reader can hold and still fetch (spec/40_bitstream.md R126). -/
def bitBound (s : State) : Nat := 8 * s.ctx.len.toNat + 17

/-- The decode loop, with so many symbols to come (R201). The first error in program order is raised (R204). -/
def decodeLoop : Nat → State → Res Unit
  | 0, s => .ok () s
  | n + 1, s =>
    (walkArena (bitBound s) s.eng.root s).bind fun
      | none, s => .raised .fmtPayloadEos s.eng.sym s
      | some v, s => (putByte v s).bind fun _ s => decodeLoop n (s.setSym (s.eng.sym + 1))

/-- Phase D_DECODE, and completion with RESULT_LEN = N (R201). -/
def dDecode (s : State) : Res Unit :=
  (decodeLoop s.eng.symCount.toNat (s.setSym 0)).bind fun _ s => .ok () (complete s.eng.symCount s)

end Sys2Proof.Machine
end

