-- ==== Sys2Proof/Machine/TreeBuilder.lean ====
section
/-! DEFINITION. The frequency table and the tree builder: phases C_COUNT and C_BUILD (spec/41_tree_builder.md). -/

namespace Sys2Proof.Machine

/-! ### Counting (R141) -/

/-- `FREQ[b] <- FREQ[b] + 1`. -/
def Engine.count (e : Engine) (b : Byte) : Engine :=
  { e with freq := e.freq.set b.toNat (e.freq[b.toNat]'b.isLt + 1) b.isLt }

/-- The counting loop over so many source bytes more, from byte `k` on (R141). -/
def countLoop : Nat → State → Res Unit
  | 0, s => .ok () s
  | n + 1, s =>
    (getByte s.eng.k s).bind fun b s => countLoop n (s.setEng { s.eng.count b with k := s.eng.k + 1 })

/-- Phase C_COUNT (R141). -/
def cCount (s : State) : Res Unit :=
  (countLoop s.ctx.len.toNat (s.setEng { s.eng with freq := .replicate 256 0, k := 0 })).bind fun _ s =>
    .ok () (s.setPhase .cBuild)

/-! ### Leaves (R142, R143) -/

/-- An update of one arena entry. An index past the arena names none. -/
def Engine.updNode (e : Engine) (i : Nat) (f : Node → Node) : Engine :=
  match e.node[i]? with
  | some n => { e with node := e.node.setIfInBounds i (f n) }
  | none => e

/-- `ALIVE[i] <- b`. -/
def Engine.setAlive (e : Engine) (i : Nat) (b : Bool) : Engine := { e with alive := e.alive.setIfInBounds i b }

/-- A new leaf at index `node_count`, in the working set (R142, R143). The count of leaves made so far, L in the rule, is
kept in `node_count`. -/
def Engine.addLeaf (e : Engine) (v : Byte) (weight : Word) : Engine :=
  let i := e.nodeCount.toNat
  let e := (e.updNode i fun n => { n with kind := .leaf, value := v, weight := weight }).setAlive i true
  { e with nodeCount := e.nodeCount + 1 }

/-- One leaf per non-zero count, in ascending byte value from `v` on (R142). -/
def addLeaves : List Word → Nat → Engine → Engine
  | [], _, e => e
  | c :: cs, v, e => addLeaves cs (v + 1) (if 0#32 < c then e.addLeaf (BitVec.ofNat 8 v) c else e)

/-- Dummy leaves while fewer than two leaves exist, at most so many (R143). -/
def addDummies : Nat → Engine → Engine
  | 0, e => e
  | n + 1, e => if e.nodeCount < 2#10 then addDummies n (e.addLeaf 0 0) else e

/-! ### Merging (R145, R146) -/

/-- The scan for the alive entry with the least (weight, index), the entries coming in index order from `i` on. -/
def scanMin : List (Bool × Node) → Nat → Option (Nat × Word) → Option (Nat × Word)
  | [], _, best => best
  | (alive, n) :: rest, i, best =>
    let better :=
      match best with
      | none => alive
      | some (_, w) => alive && decide (n.weight < w)
    scanMin rest (i + 1) (if better then some (i, n.weight) else best)

/-- `argmin` over the alive entries of (weight, index), with its weight (R145). Nothing when none is alive. -/
def Engine.minAlive (e : Engine) : Option (Nat × Word) := scanMin (e.alive.toList.zip e.node.toList) 0 none

/-- The alive entry with the least key, taken out of the working set (R145). -/
def Engine.takeMin (e : Engine) : Option ((Nat × Word) × Engine) :=
  match e.minAlive with
  | none => none
  | some m => some (m, e.setAlive m.1 false)

/-- A new internal node at index `node_count`, in the working set (R145). -/
def Engine.addInternal (e : Engine) (left right : Nat) (weight : Word) : Engine :=
  let i := e.nodeCount.toNat
  let e := (e.updNode i fun n =>
    { n with kind := .internal, left := BitVec.ofNat 9 left, right := BitVec.ofNat 9 right, weight := weight }).setAlive
      i true
  { e with nodeCount := e.nodeCount + 1 }

/-- One merge (R145): the first entry removed becomes the left child (R146). -/
def mergeOnce (e : Engine) : Option Engine :=
  match e.takeMin with
  | none => none
  | some (a, e) =>
    match e.takeMin with
    | none => none
    | some (c, e) => some (e.addInternal a.1 c.1 (a.2 + c.2))

/-- So many merges (R145). -/
def mergeTimes : Nat → Engine → Option Engine
  | 0, e => some e
  | n + 1, e =>
    match mergeOnce e with
    | none => none
    | some e => mergeTimes n e

/-- The leaves of phase C_BUILD (R142, R143). The working set starts empty (DEDUCED, notes/assumptions/5.md). -/
def buildLeaves (e : Engine) : Engine :=
  addDummies 2 (addLeaves e.freq.toList 0 { e with alive := .replicate 511 false, nodeCount := 0 })

/-- Phase C_BUILD on the internal state (R142, R143, R145): L leaves, then L - 1 merges, and the last entry is the
root. -/
def buildArena (e : Engine) : Option Engine :=
  let leaves := buildLeaves e
  match mergeTimes (leaves.nodeCount.toNat - 1) leaves with
  | none => none
  | some e => some { e with root := (e.nodeCount - 1).setWidth 9 }

/-- Phase C_BUILD. -/
def cBuild (s : State) : Res Unit :=
  match buildArena s.eng with
  | none => .stuck .brokenArena
  | some e => .ok () ((s.setEng e).setPhase .cHeader)

end Sys2Proof.Machine
end

