-- ==== Sys2Proof/Machine/TreeSerial.lean ====
section
/-! DEFINITION. Serialization and deserialization of the tree: phases C_TREE and D_TREE
(spec/42_tree_serialization.md). -/

namespace Sys2Proof.Machine

/-- `SerNode(i)` (R160), with so many entries of the recursion stack left (R167). -/
def serNode : Nat → BitVec 9 → State → Res Unit
  | 0, _, _ => .stuck .brokenArena
  | depth + 1, i, s =>
    match s.eng.nodeAt i with
    | none => .stuck .brokenArena
    | some n =>
      match n.kind with
      | .leaf => (writeBit true s).bind fun _ s => writeBits n.value.toNat Config.symW s
      | .internal =>
        ((writeBit false s).bind fun _ s => serNode depth n.left s).bind fun _ s => serNode depth n.right s

/-- Phase C_TREE (R160). -/
def cTree (s : State) : Res Unit :=
  (serNode Config.stackDepth s.eng.root s).bind fun _ s => .ok () (s.setPhase .cDerive)

/-- `NODE[i] <- {kind: LEAF, value: v}` (R162). -/
def Engine.setLeaf (e : Engine) (i : Nat) (v : Byte) : Engine :=
  e.updNode i fun n => { n with kind := .leaf, value := v }

/-- `NODE[i] <- {kind: INTERNAL, left: l, right: r}` (R162). -/
def Engine.setInternal (e : Engine) (i : Nat) (l r : BitVec 9) : Engine :=
  e.updNode i fun n => { n with kind := .internal, left := l, right := r }

/-- `i <- node_count; node_count <- node_count + 1` (R162). -/
def allocNode (s : State) : State := s.setEng { s.eng with nodeCount := s.eng.nodeCount + 1 }

/-- `DesNode(is_root)` (R162), with so many entries of the recursion stack left (R167). -/
def desNode : Nat → Bool → State → Res (BitVec 9)
  | 0, _, _ => .stuck .brokenArena
  | depth + 1, isRoot, s =>
    (readBit s).bind fun
      | none, s => .raised .fmtTreeEos 0 s
      | some b, s =>
        if isRoot && b then .raised .fmtTreeLeafRoot 0 s
        else if s.eng.nodeCount.toNat = Config.nodeCap then
          .raised .fmtTreeTooLarge (BitVec.ofNat 32 Config.nodeCap) s
        else
          let i := s.eng.nodeCount.toNat
          let s := allocNode s
          if b then
            (readBits Config.symW s).bind fun
              | none, s => .raised .fmtTreeEos 0 s
              | some v, s => .ok (BitVec.ofNat 9 i) (s.setEng (s.eng.setLeaf i (v.setWidth 8)))
          else
            (desNode depth false s).bind fun l s =>
              (desNode depth false s).bind fun r s =>
                .ok (BitVec.ofNat 9 i) (s.setEng (s.eng.setInternal i l r))

/-- Phase D_TREE (R162). -/
def dTree (s : State) : Res Unit :=
  (desNode Config.stackDepth true (s.setEng { s.eng with nodeCount := 0 })).bind fun root s =>
    .ok () ((s.setEng { s.eng with root := root }).setPhase .dDecode)

end Sys2Proof.Machine
end

