-- ==== Sys2Proof/Machine/Commands.lean ====
section
/-! DEFINITION. The meanings of the three commands (spec/45_commands.md). A meaning says both what the CMD write that
issues the command does while the block is idle, and what one engine step does while the command runs. -/

namespace Sys2Proof.Machine

/-! ### Issue while idle (R221 to R223) -/

/-- `IssueWhileIdle` for a legal command word (R221): the argument checks, then rejection or acceptance. -/
def issue (op : Byte) (first : Phase) (s : State) : State :=
  match argCheck s.regs.args with
  | some (code, info) => errorEntry code info (issued s)
  | none => accept op first (issued s)

/-! ### Engine steps while busy (R220, R234, spec/70_reset_and_hazards.md R288, R290) -/

/-- The end of the last engine step of a command: the phases left, in order, so many at most. -/
def finish (phase : State → Res Unit) : Nat → State → Host.Outcome State Fault Refusal
  | 0, _ => .fault .phaseOutOfOrder
  | n + 1, s =>
    match phase s with
    | .ok _ s' => if s'.phase = .idle then .next s' else finish phase n s'
    | .raised code info s' => .next (commandError code info s')
    | .stuck f => .fault f

/-- One engine step of `latency` is spent. -/
def spend (s : State) : State := { s with env := { s.env with latencyLeft := s.env.latencyLeft - 1 } }

/-- An engine step that is not the command's last: one phase, if it does not end the command, and otherwise nothing, since
BUSY falls in the last step (R288). notes/assumptions/3.md. -/
def proceed (phase : State → Res Unit) (s : State) : Host.Outcome State Fault Refusal :=
  match phase s with
  | .ok _ s' => if s'.phase = .idle then .next (spend s) else .next (spend s')
  | .raised _ _ _ => .next (spend s)
  | .stuck f => .fault f

/-- The most phases a command has (R225). -/
def mostPhases : Nat := 7

/-- One engine step of the running command (R288): in the last of its `latency` steps it does all that is left. -/
def engineStep (phase : State → Res Unit) (s : State) : Host.Outcome State Fault Refusal :=
  if s.env.latencyLeft ≤ 1 then finish phase mostPhases s else proceed phase s

/-! ### COMPRESS (R225) -/

/-- Phase C_HEADER: `WInit(); WriteBits(ctx.len, 32); phase <- C_TREE` (R225). -/
def cHeader (s : State) : Res Unit :=
  (writeBits s.ctx.len.toNat Config.hdrW (wInit s)).bind fun _ s => .ok () (s.setPhase .cTree)

/-- Phase C_FLUSH: `Flush(); Complete(out_pos)` (R225). -/
def cFlush (s : State) : Res Unit := (flush s).bind fun _ s => .ok () (complete s.eng.w.outPos s)

/-- The phases of COMPRESS, each a run of the phase the sequencer is in (R225). -/
def compressPhase (s : State) : Res Unit :=
  match s.phase with
  | .cCount => cCount s
  | .cBuild => cBuild s
  | .cHeader => cHeader s
  | .cTree => cTree s
  | .cDerive => cDerive s
  | .cEncode => cEncode s
  | .cFlush => cFlush s
  | .idle | .dHeader | .dTree | .dDecode | .xDump => .stuck .phaseOutOfOrder

/-- COMPRESS (R225): its issue while the block is idle, one engine step of it while it runs. -/
def execCompress (s : State) : Host.Outcome State Fault Refusal :=
  if s.regs.status.busy then engineStep compressPhase s else .next (issue (Instr.op .compress) (Phase.first .compress) s)

/-! ### DECOMPRESS (R228) -/

/-- Phase D_HEADER (R228). `ReadBits(32)` cannot return EOS, since `ctx.len` is at least 4. -/
def dHeader (s : State) : Res Unit :=
  let s := wInit (rInit s)
  if s.ctx.len < 4#32 then .raised .fmtHeader s.ctx.len s
  else
    (readBits Config.hdrW s).bind fun
      | none, _ => .stuck .brokenArena
      | some n, s => .ok () ((s.setSymCount n).setPhase .dTree)

/-- The phases of DECOMPRESS (R228). -/
def decompressPhase (s : State) : Res Unit :=
  match s.phase with
  | .dHeader => dHeader s
  | .dTree => dTree s
  | .dDecode => dDecode s
  | .idle | .cCount | .cBuild | .cHeader | .cTree | .cDerive | .cEncode | .cFlush | .xDump => .stuck .phaseOutOfOrder

/-- DECOMPRESS (R228): its issue while the block is idle, one engine step of it while it runs. -/
def execDecompress (s : State) : Host.Outcome State Fault Refusal :=
  if s.regs.status.busy then engineStep decompressPhase s
  else .next (issue (Instr.op .decompress) (Phase.first .decompress) s)

/-! ### DUMPBITS (R231) -/

/-- The text byte of one bit: `0x30 + bit` (R231, spec/30_encoding.md R103). -/
def bitText (b : Bool) : Byte := 0x30#8 + (BitVec.ofBool b).setWidth 8

/-- The text of consecutive bits, written byte by byte (R231). -/
def dumpText : Bits → State → Res Unit
  | [], s => .ok () s
  | b :: bs, s => (putByte (bitText b) s).bind fun _ s => dumpText bs s

/-- The dump loop over so many source bytes more, from byte `k` on (R231). -/
def dumpLoop : Nat → State → Res Unit
  | 0, s => .ok () s
  | n + 1, s =>
    (getByte s.eng.k s).bind fun b s =>
      (dumpText (bitsOf 8 b.toNat) s).bind fun _ s => dumpLoop n (s.setK (s.eng.k + 1))

/-- Phase X_DUMP (R231). -/
def xDump (s : State) : Res Unit :=
  (dumpLoop s.ctx.len.toNat ((wInit s).setK 0)).bind fun _ s => .ok () (complete s.eng.w.outPos s)

/-- The one phase of DUMPBITS (R231). -/
def dumpbitsPhase (s : State) : Res Unit :=
  match s.phase with
  | .xDump => xDump s
  | .idle | .cCount | .cBuild | .cHeader | .cTree | .cDerive | .cEncode | .cFlush | .dHeader | .dTree | .dDecode =>
    .stuck .phaseOutOfOrder

/-- DUMPBITS (R231): its issue while the block is idle, one engine step of it while it runs. -/
def execDumpbits (s : State) : Host.Outcome State Fault Refusal :=
  if s.regs.status.busy then engineStep dumpbitsPhase s else .next (issue (Instr.op .dumpbits) (Phase.first .dumpbits) s)

end Sys2Proof.Machine
end

