-- ==== Sys2Proof/Machine/HostPort.lean ====
section
/-! DEFINITION. The moves of the host, of the reset input and of the engine: what each `Input` does
(spec/10_state.md R21 to R35, spec/20_memory.md R78 to R80, spec/70_reset_and_hazards.md R280, R281, R290). -/

namespace Sys2Proof.Machine

/-! ### Register window -/

/-- A CMD write (spec/10_state.md R23): dropped while BUSY (R27), and otherwise the command issue of
spec/45_commands.md R221, an illegal word being rejected with the word in ERR_INFO (spec/60_exceptions.md R252). -/
def cmdWrite (w : Word) (s : State) : Host.Outcome State Fault Refusal :=
  if s.regs.status.busy then .next (dropCommand s)
  else
    match decodeCmd w with
    | .ok i => exec i s
    | .error e => .next (errorEntry (illegalCode e) w (issued s))

/-- A register read: data, or a bus error and no change (R21). -/
def hostRegRead (off : BitVec 6) (width : Nat) (s : State) : State :=
  s.respond (if regAccessOk off width then .data (s.regs.read off) else .busError)

/-- A register write: CMD at offset 0, any other register, or a bus error and no change (R21, R22). -/
def hostRegWrite (off : BitVec 6) (width : Nat) (v : Word) (s : State) : Host.Outcome State Fault Refusal :=
  if regAccessOk off width then
    if off = 0x00#6 then cmdWrite v (s.respond .ok) else .next ((s.setRegs (s.regs.write off v)).respond .ok)
  else .next (s.respond .busError)

/-- An access on the host's bus that is none of the window's does nothing to the block. -/
def elsewhere (s : State) : State := { s with env := { s.env with resp := none } }

/-- A read on the host's bus (spec/20_memory.md R68). -/
def hostBusRead (addr : Word) (width : Nat) (s : State) : State :=
  match regOffset addr with
  | some off => hostRegRead off width s
  | none => elsewhere s

/-- A write on the host's bus (spec/20_memory.md R68). -/
def hostBusWrite (addr : Word) (width : Nat) (v : Word) (s : State) : Host.Outcome State Fault Refusal :=
  match regOffset addr with
  | some off => hostRegWrite off width v s
  | none => .next (elsewhere s)

/-! ### Memory -/

/-- An address in the running command's source buffer (spec/20_memory.md R78(a)). -/
def Ctx.inSrc (c : Ctx) (a : Word) : Bool := inWindow c.src.toNat c.len.toNat a.toNat

/-- An address in the running command's destination window (spec/20_memory.md R78(b)). -/
def Ctx.inDst (c : Ctx) (a : Word) : Bool := inWindow c.dst.toNat c.cap.toNat a.toNat

/-- A host read of one memory byte. A byte of the destination window reads as a free value while BUSY
(spec/20_memory.md R80(a), spec/45_commands.md R234). notes/assumptions/8.md. DESIGN CHOICE: the read is never answered
with a bus error, notes/assumptions/18.md. -/
def hostMemRead (a : Word) (s : State) : State :=
  if s.regs.status.busy && s.ctx.inDst a then (s.respond (.byte (Config.busyByte s.env.draws))).drawn
  else s.respond (.byte (s.mem.read a.toNat))

/-- A host store of one memory byte. While BUSY a host that stores into either buffer has no move
(spec/20_memory.md R78). DESIGN CHOICE: a store that is taken always succeeds and is answered `ok`,
notes/assumptions/18.md. -/
def hostMemWrite (a : Word) (b : Byte) (s : State) : Host.Outcome State Fault Refusal :=
  if s.regs.status.busy && (s.ctx.inSrc a || s.ctx.inDst a) then .refused .hostDutyBroken
  else .next ((s.setMem (s.mem.write a.toNat b)).respond .ok)

/-! ### Reset -/

/-- Reset of the block (spec/70_reset_and_hazards.md R280, R281): every register and `phase` as after reset, the internal
state at the values the model names for it (notes/assumptions/1.md). While BUSY the command is abandoned, and every byte
of its destination window is unspecified. Memory outside the window is not the block's, and keeps its values. -/
def resetBlock (s : State) : State :=
  let s := if s.regs.status.busy then forgetBytes s.ctx.dst s.ctx.cap s else s
  { s with
    regs := .reset
    phase := .idle
    ctx := .reset
    eng := .reset
    env := { s.env with resp := none, latencyLeft := 0 } }

/-! ### Engine -/

/-- A move of the engine: one step of the running command, taken only while BUSY (spec/70_reset_and_hazards.md R290). An
idle block does nothing until a CMD write (spec/60_exceptions.md R262). -/
def engineMove (s : State) : Host.Outcome State Fault Refusal :=
  if s.regs.status.busy then
    match decodeOp s.ctx.op with
    | some i => exec i s
    | none => .fault .noRunningCommand
  else .next s

/-! ### Host programs (spec/30_encoding.md R105, R106) -/

/-- The registers by name (R105). -/
inductive RegName where
  | CMD
  | STATUS
  | ERR_CODE
  | ERR_INFO
  | SRC_ADDR
  | SRC_LEN
  | DST_ADDR
  | DST_CAP
  | RESULT_LEN
  deriving DecidableEq, Repr

/-- The offset of a register (spec/10_state.md R22). -/
def RegName.offset : RegName → BitVec 6
  | .CMD => 0x00#6
  | .STATUS => 0x04#6
  | .ERR_CODE => 0x08#6
  | .ERR_INFO => 0x0C#6
  | .SRC_ADDR => 0x10#6
  | .SRC_LEN => 0x14#6
  | .DST_ADDR => 0x18#6
  | .DST_CAP => 0x1C#6
  | .RESULT_LEN => 0x20#6

/-- `WR reg, imm32` (R105). -/
def hostWR (r : RegName) (v : Word) : List Input := [.regWrite r.offset 32 v]
/-- `RD reg` (R105). -/
def hostRD (r : RegName) : List Input := [.regRead r.offset 32]
/-- `MEMW addr, bytes` (R105). DESIGN CHOICE: past address 0xFFFFFFFF it goes on at address 0, which no rule says,
notes/assumptions/17.md. -/
def hostMEMW (a : Word) : List Byte → List Input
  | [] => []
  | b :: bs => .memWrite a b :: hostMEMW (a + 1) bs
/-- `MEMR addr, n` (R105). DESIGN CHOICE: past address 0xFFFFFFFF it goes on at address 0, which no rule says,
notes/assumptions/17.md. -/
def hostMEMR (a : Word) : Nat → List Input
  | 0 => []
  | n + 1 => .memRead a :: hostMEMR (a + 1) n
/-- The pseudo-instructions `COMPRESS`, `DECOMPRESS` and `DUMPBITS`: `WR CMD` of the command word (R106). -/
def hostCommand (i : Instr) : List Input := hostWR .CMD (encode i)
/-- `SETUP s, n, d, c` (R106). -/
def hostSETUP (s n d c : Word) : List Input :=
  hostWR .SRC_ADDR s ++ hostWR .SRC_LEN n ++ hostWR .DST_ADDR d ++ hostWR .DST_CAP c
/-- `WAIT` (R106). -/
def hostWAIT : List Input := [.wait]
/-- `CLEAR` (R106). -/
def hostCLEAR : List Input := hostWR .STATUS 0x0000000E#32

end Sys2Proof.Machine
end

