-- ==== Sys2Proof/Machine/Step.lean ====
section
/-! DEFINITION. One step of the machine: the next move of `inputs`. When none is left the engine moves on by itself, and
an idle block stays as it is. -/

namespace Sys2Proof.Machine

/-- One step (spec/70_reset_and_hazards.md R290): the move at the head of `inputs`, taken off it. A `wait` reads
STATUS and stays at the head while BUSY, the engine moving between two polls (spec/30_encoding.md R106, and the fairness
of R288). -/
def step (s : State) : Host.Outcome State Fault Refusal :=
  match s.env.inputs with
  | [] => engineMove s
  | i :: rest =>
    match i with
    | .regRead off width => .next (hostRegRead off width (s.setInputs rest))
    | .regWrite off width v => hostRegWrite off width v (s.setInputs rest)
    | .busRead addr width => .next (hostBusRead addr width (s.setInputs rest))
    | .busWrite addr width v => hostBusWrite addr width v (s.setInputs rest)
    | .memRead a => .next (hostMemRead a (s.setInputs rest))
    | .memWrite a b => hostMemWrite a b (s.setInputs rest)
    | .wait =>
      if s.regs.status.busy then engineMove (hostRegRead RegName.STATUS.offset 32 s)
      else .next (hostRegRead RegName.STATUS.offset 32 (s.setInputs rest))
    | .rst => .next (resetBlock (s.setInputs rest))
    | .engine => engineMove (s.setInputs rest)

/-- The state in which the very next step is the CMD write of the command word `w` (the bits above `nbits` being 0) to an
idle block: a command is issued only while BUSY = 0 (spec/10_state.md R23), so a busy block is made idle. -/
def State.withFetchWord (s : State) (nbits w : Nat) : State :=
  { s with
    env := { s.env with
      inputs := .regWrite RegName.CMD.offset 32 (BitVec.ofNat 32 (w % 2 ^ nbits)) :: s.env.inputs }
    regs := { s.regs with status := { s.regs.status with busy := false } }
    phase := .idle }

end Sys2Proof.Machine
end

