-- ==== Sys2Proof/Machine/ClosedForm.lean ====
section
/-! DEFINITION. The pure functions that the spec gives for what the commands compute: trees, their serialization and
codes, the tree builder on byte sequences, and the closed forms of the three commands (spec/42_tree_serialization.md R160,
R162, spec/43_code_table_encoder.md R180, spec/44_decoder.md R200, spec/45_commands.md R226, R229, R232). The engine's
phases do not call them: they are what claims compare the phases with. -/

namespace Sys2Proof.Machine

/-! ### Bit strings and byte sequences -/

/-- The bits of a byte sequence, most significant bit of each byte first (spec/30_encoding.md R96). -/
def bitsOfBytes (c : List Byte) : Bits := c.flatMap fun b => bitsOf 8 b.toNat

/-- `Bytes(s)`: the bytes that hold a bit string, most significant bit first, zero-padded (spec/45_commands.md R226). -/
def bytesOfBits (s : Bits) : List Byte :=
  (List.range ((s.length + 7) / 8)).map fun j => byteOfBits fun i => s.getD (8 * j + i) false

/-- The number a bit string writes, most significant bit first (spec/00_scope.md R8). -/
def natOfBE (s : Bits) : Nat := s.foldl (fun v b => 2 * v + b.toNat) 0

/-! ### Trees (spec/00_scope.md R9) -/

/-- A tree: every node has 0 or 2 children. -/
inductive HuffTree where
  | leaf (v : Byte)
  | node (l r : HuffTree)
  deriving DecidableEq, Repr

namespace HuffTree

/-- `Serialize(T)` (spec/42_tree_serialization.md R160). -/
def serialize : HuffTree → Bits
  | leaf v => true :: bitsOf 8 v.toNat
  | node l r => false :: (l.serialize ++ r.serialize)

/-- How many nodes a tree has. -/
def size : HuffTree → Nat
  | leaf _ => 1
  | node l r => l.size + r.size + 1

/-- How many leaves a tree has. -/
def leafCount : HuffTree → Nat
  | leaf _ => 1
  | node l r => l.leafCount + r.leafCount

/-- The length of the longest path from the root to a leaf. -/
def depth : HuffTree → Nat
  | leaf _ => 0
  | node l r => max l.depth r.depth + 1

/-- The root is not a leaf (spec/41_tree_builder.md R149(b)). -/
def isInternal : HuffTree → Bool
  | leaf _ => false
  | node _ _ => true

/-- The values and paths of the leaves under a path, left before right (spec/43_code_table_encoder.md R180). -/
def leafPaths : HuffTree → Bits → List (Byte × Bits)
  | leaf v, path => [(v, path)]
  | node l r, path => l.leafPaths (path ++ [false]) ++ r.leafPaths (path ++ [true])

/-- `CT[v].code`, if the entry is valid: the path of the last leaf of value `v` (R180, R182, R183). -/
def code (t : HuffTree) (v : Byte) : Option Bits := (t.leafPaths []).reverse.lookup v

/-- `Walk(T, s)` (spec/44_decoder.md R200): a symbol and the rest of the bits, or nothing for EOS. -/
def walk : HuffTree → Bits → Option (Byte × Bits)
  | leaf v, s => some (v, s)
  | node _ _, [] => none
  | node l _, false :: s => l.walk s
  | node _ r, true :: s => r.walk s

/-- The symbols that walks yield before the bits end, up to `n` of them (spec/45_commands.md R229). -/
def walkSymbols (t : HuffTree) : Nat → Bits → List Byte
  | 0, _ => []
  | n + 1, s =>
    match t.walk s with
    | none => []
    | some (v, s') => v :: t.walkSymbols n s'

end HuffTree

/-- `Decode(T, N, s)` (spec/44_decoder.md R200). -/
def decodeSymbols (t : HuffTree) : Nat → Bits → Except ErrCode (List Byte)
  | 0, _ => .ok []
  | n + 1, s =>
    match t.walk s with
    | none => .error .fmtPayloadEos
    | some (v, s') =>
      match decodeSymbols t n s' with
      | .error e => .error e
      | .ok vs => .ok (v :: vs)

/-- `DesNode` as a function of the bits that are left, of which there are at most as many as the first argument says:
the tree, the nodes allocated so far, and the rest, or the error and its ERR_INFO (spec/42_tree_serialization.md R162,
R164). -/
def desTree : Nat → Bool → Nat → Bits → Except (ErrCode × Word) (HuffTree × Nat × Bits)
  | 0, _, _, _ => .error (.fmtTreeEos, 0)
  | _ + 1, _, _, [] => .error (.fmtTreeEos, 0)
  | n + 1, isRoot, used, b :: s =>
    if isRoot && b then .error (.fmtTreeLeafRoot, 0)
    else if used = Config.nodeCap then .error (.fmtTreeTooLarge, BitVec.ofNat 32 Config.nodeCap)
    else if b then
      if s.length < 8 then .error (.fmtTreeEos, 0)
      else .ok (.leaf (BitVec.ofNat 8 (natOfBE (s.take 8))), used + 1, s.drop 8)
    else
      match desTree n false (used + 1) s with
      | .error e => .error e
      | .ok (l, used, s) =>
        match desTree n false used s with
        | .error e => .error e
        | .ok (r, used, s) => .ok (.node l r, used, s)

/-- `Deserialize` on the bits from container bit 32 on (spec/45_commands.md R229): the tree and the rest. -/
def deserialize (s : Bits) : Except (ErrCode × Word) (HuffTree × Bits) :=
  match desTree s.length true 0 s with
  | .error e => .error e
  | .ok (t, _, rest) => .ok (t, rest)

/-! ### The tree builder on byte sequences (spec/41_tree_builder.md R140 to R146) -/

/-- A tree of the working set with its weight and its arena index. -/
structure Item where
  weight : Nat
  index : Nat
  tree : HuffTree
  deriving DecidableEq, Repr

/-- The key (weight, arena index) of one item is below that of another (R145). -/
def Item.before (a b : Item) : Bool := decide (a.weight < b.weight ∨ (a.weight = b.weight ∧ a.index < b.index))

/-- The item with the least key. -/
def minItem : List Item → Option Item
  | [] => none
  | a :: rest =>
    match minItem rest with
    | none => some a
    | some b => some (if b.before a then b else a)

/-- One leaf per distinct value in ascending order, then dummies while there are fewer than two (R142, R143). -/
def leafItems (x : List Byte) : List Item :=
  let real := ((List.range 256).filter fun v => decide (0 < x.count (BitVec.ofNat 8 v))).zipIdx.map fun (v, i) =>
    ⟨x.count (BitVec.ofNat 8 v), i, .leaf (BitVec.ofNat 8 v)⟩
  real ++ (List.range (2 - real.length)).map fun j => ⟨0, real.length + j, .leaf 0⟩

/-- So many merges, the next internal node taking the given index (R145, R146). -/
def mergeItems : Nat → Nat → List Item → List Item
  | 0, _, items => items
  | n + 1, m, items =>
    match minItem items with
    | none => items
    | some a =>
      match minItem (items.erase a) with
      | none => items
      | some c => mergeItems n (m + 1) (⟨a.weight + c.weight, m, .node a.tree c.tree⟩ :: (items.erase a).erase c)

/-- `BuildTree(x)` (R140): the one tree left after L - 1 merges. -/
def buildTree (x : List Byte) : HuffTree :=
  let leaves := leafItems x
  match mergeItems (leaves.length - 1) leaves.length leaves with
  | a :: _ => a.tree
  | [] => .leaf 0

/-! ### The closed forms of the commands -/

/-- The payload: the concatenated codes of the source bytes (spec/30_encoding.md R99). -/
def payload (t : HuffTree) (x : List Byte) : Bits := x.flatMap fun b => (t.code b).getD []

/-- The bits of the container of `x` before padding (spec/45_commands.md R226). -/
def containerBits (x : List Byte) : Bits :=
  bitsOf 32 x.length ++ ((buildTree x).serialize ++ payload (buildTree x) x)

/-- `Compress(x)` (spec/45_commands.md R226). -/
def compressBytes (x : List Byte) : List Byte := bytesOfBits (containerBits x)

/-- The outcome of COMPRESS when no access is answered `BusErr` (spec/45_commands.md R226): the output bytes, or the
error code and ERR_INFO. -/
def compressOutcome (x : List Byte) (cap : Word) : Except (ErrCode × Word) (List Byte) :=
  if (compressBytes x).length > cap.toNat then .error (.ioDstFull, cap) else .ok (compressBytes x)

/-- The outcome of DECOMPRESS when no access is answered `BusErr` (spec/45_commands.md R229). -/
def decompressOutcome (c : List Byte) (cap : Word) : Except (ErrCode × Word) (List Byte) :=
  if c.length < 4 then .error (.fmtHeader, BitVec.ofNat 32 c.length)
  else
    let n := natOfBE (bitsOfBytes (c.take 4))
    match deserialize (bitsOfBytes (c.drop 4)) with
    | .error e => .error e
    | .ok (t, rest) =>
      let d := t.walkSymbols n rest
      if cap.toNat < d.length then .error (.ioDstFull, cap)
      else if d.length < n then .error (.fmtPayloadEos, BitVec.ofNat 32 d.length)
      else .ok d

/-! ### The accesses of the memory port, in program order (spec/20_memory.md R70, R81) -/

/-- One access of the memory port: a read of a source byte or a write of an output byte, by its offset in the buffer
(spec/20_memory.md R61). -/
inductive Access where
  | read (i : Nat)
  | write (j : Nat)
  deriving DecidableEq, Repr

/-- A write falls inside the window, and so is made at all (spec/40_bitstream.md R122). -/
def Access.fits (cap : Word) : Access → Bool
  | .read _ => true
  | .write j => decide (j < cap.toNat)

/-- The error that ends the command when this access is answered `BusErr`, and its ERR_INFO (spec/60_exceptions.md R251,
R252). -/
def Access.busError : Access → ErrCode × Word
  | .read i => (.ioRead, BitVec.ofNat 32 i)
  | .write j => (.ioWrite, BitVec.ofNat 32 j)

/-- The writes of output bytes `p` to `q - 1`. -/
def writesBetween (p q : Nat) : List Access := (List.range' p (q - p)).map .write

/-- The accesses of phases C_ENCODE and C_FLUSH from source byte `k` on, `p` bits being written so far: a byte is written
when its eighth bit is (spec/40_bitstream.md R123, R125, spec/43_code_table_encoder.md R185). -/
def encodeAccesses (t : HuffTree) : List Byte → Nat → Nat → List Access
  | [], _, p => writesBetween (p / 8) ((p + 7) / 8)
  | b :: bs, k, p =>
    let q := p + ((t.code b).getD []).length
    .read k :: (writesBetween (p / 8) (q / 8) ++ encodeAccesses t bs (k + 1) q)

/-- The accesses of COMPRESS on an endless window: the counting pass, the header and the tree, then the second pass
(spec/45_commands.md R225). -/
def compressAccesses (x : List Byte) : List Access :=
  let start := 32 + (buildTree x).serialize.length
  (List.range x.length).map .read ++ (writesBetween 0 (start / 8) ++ encodeAccesses (buildTree x) x 0 start)

/-- DECOMPRESS of these container bytes alone ends for want of a further byte, whatever the window. -/
def wantsMore (c : List Byte) : Bool :=
  match decompressOutcome c (BitVec.allOnes 32) with
  | .ok _ => false
  | .error (code, _) => code == .fmtHeader || code == .fmtTreeEos || code == .fmtPayloadEos

/-- How many symbols these container bytes alone hold, at most the header's count. -/
def symbolsHeld (c : List Byte) : Nat :=
  match deserialize (bitsOfBytes (c.drop 4)) with
  | .error _ => 0
  | .ok (t, rest) => (t.walkSymbols (natOfBE (bitsOfBytes (c.take 4))) rest).length

/-- The accesses of DECOMPRESS on an endless window, for a container that has its header: each byte is read when the
bytes before it leave something to read, and the symbols it completes are written before the next read
(spec/40_bitstream.md R127, spec/45_commands.md R228, spec/44_decoder.md R201). -/
def decompressAccesses (c : List Byte) : List Access :=
  (List.range c.length).flatMap fun i =>
    if wantsMore (c.take i) then .read i :: writesBetween (symbolsHeld (c.take i)) (symbolsHeld (c.take (i + 1))) else []

/-- `DumpBits(x)` (spec/45_commands.md R232): the text byte of each bit (spec/30_encoding.md R103). -/
def dumpBytes (x : List Byte) : List Byte := (bitsOfBytes x).map fun b => if b then 0x31#8 else 0x30#8

/-- The outcome of DUMPBITS when no access is answered `BusErr` (spec/45_commands.md R232). -/
def dumpOutcome (x : List Byte) (cap : Word) : Except (ErrCode × Word) (List Byte) :=
  if 8 * x.length > cap.toNat then .error (.ioDstFull, cap) else .ok (dumpBytes x)

end Sys2Proof.Machine
end

