-- ==== Sys2Proof/Safety.lean ====
section
/-! DEFINITION. What a safe state of the machine is, in the terms the claims use: the invariant of the registers, of the
sequencer and of the internal state in each phase, and what a command may change. -/

namespace Sys2Proof.Machine

/-! ### Registers (spec/10_state.md R29, R36) -/

/-- The register invariants (R36), and ERR_INFO zero when ERR_CODE is NONE (R29). -/
structure RegFile.Ok (r : RegFile) : Prop where
  /-- R36(a). -/
  whileBusy : r.status.busy = true →
    r.status.done = false ∧ r.status.err = false ∧ r.errCode = .none ∧ r.errInfo = 0 ∧ r.resultLen = 0
  /-- R36(b). -/
  notDoneAndErr : ¬(r.status.done = true ∧ r.status.err = true)
  /-- R36(c). -/
  doneNoCode : r.status.done = true → r.errCode = .none
  /-- R29. -/
  noCodeNoInfo : r.errCode = .none → r.errInfo = 0

/-! ### Sequencer (spec/10_state.md R40, R41) -/

/-- The command a phase belongs to (spec/45_commands.md R225, R228, R231). -/
def Phase.command : Phase → Option Instr
  | .idle => none
  | .cCount | .cBuild | .cHeader | .cTree | .cDerive | .cEncode | .cFlush => some .compress
  | .dHeader | .dTree | .dDecode => some .decompress
  | .xDump => some .dumpbits

/-- The arguments a command runs with. -/
def Ctx.args (c : Ctx) : CmdArgs := ⟨c.src, c.len, c.dst, c.cap⟩

/-- A running command: BUSY, its own OP in `ctx`, arguments that acceptance let pass (spec/45_commands.md R222, R223),
and engine steps left. -/
structure Running (i : Instr) (s : State) : Prop where
  busy : s.regs.status.busy = true
  op : s.ctx.op = i.op
  args : s.ctx.args.wf = true
  steps : 1 ≤ s.env.latencyLeft

/-! ### Internal state by phase -/

/-- The writer has not passed the window (spec/40_bitstream.md R122). -/
def WriterOk (s : State) : Prop := s.eng.w.outPos.toNat ≤ s.ctx.cap.toNat

/-- The reader has not passed the source buffer, and holds at most a byte (spec/10_state.md R48). -/
def ReaderOk (s : State) : Prop := s.eng.r.inPos.toNat ≤ s.ctx.len.toNat ∧ s.eng.r.cnt.toNat ≤ 8

/-- The arena in use is a built tree's: an internal root, and the children of every node at lower indices
(spec/41_tree_builder.md R145, R147, R149). -/
structure ArenaBuilt (e : Engine) : Prop where
  fits : e.nodeCount.toNat ≤ Config.nodeCap
  rootInternal : ∃ n, e.nodeAt e.root = some n ∧ n.kind = .internal
  rootUsed : e.root.toNat < e.nodeCount.toNat
  childrenBelow : ∀ (i : Nat) (n : Node), i < e.nodeCount.toNat → e.node[i]? = some n → n.kind = .internal →
    n.left.toNat < i ∧ n.right.toNat < i

/-- The arena in use is a deserialized tree's: an internal root, and the children of every node at higher indices in use
(spec/42_tree_serialization.md R163, R164). -/
structure ArenaRead (e : Engine) : Prop where
  fits : e.nodeCount.toNat ≤ Config.nodeCap
  rootInternal : ∃ n, e.nodeAt e.root = some n ∧ n.kind = .internal
  rootUsed : e.root.toNat < e.nodeCount.toNat
  childrenAbove : ∀ (i : Nat) (n : Node), i < e.nodeCount.toNat → e.node[i]? = some n → n.kind = .internal →
    i < n.left.toNat ∧ n.left.toNat < e.nodeCount.toNat ∧ i < n.right.toNat ∧ n.right.toNat < e.nodeCount.toNat

/-- What a phase finds in the internal state, left there by the phases before it. -/
def PhaseOk (s : State) : Prop :=
  match s.phase with
  | .idle | .cCount | .cBuild | .dHeader | .xDump => True
  | .cHeader => ArenaBuilt s.eng
  | .cTree | .cDerive => ArenaBuilt s.eng ∧ WriterOk s
  | .cEncode | .cFlush => WriterOk s
  | .dTree => ReaderOk s ∧ WriterOk s
  | .dDecode => ReaderOk s ∧ WriterOk s ∧ ArenaRead s.eng

/-- The invariant of the machine. -/
structure State.Inv (s : State) : Prop where
  /-- Memory in its canonical form. -/
  memWf : s.mem.wf
  /-- R36, R29. -/
  regsOk : s.regs.Ok
  /-- `phase = IDLE` exactly when STATUS.BUSY = 0 (R40). -/
  idleIff : s.phase = .idle ↔ s.regs.status.busy = false
  /-- A busy block runs the command its phase belongs to. -/
  running : s.regs.status.busy = true → ∃ i, s.phase.command = some i ∧ Running i s
  /-- The internal state is what the phase expects. -/
  phaseOk : PhaseOk s

/-! ### What a command may change (spec/20_memory.md R80, R81, spec/60_exceptions.md R256) -/

/-- Every byte outside the `len` bytes from `base` reads as before. -/
def SameOutside (base len : Nat) (m m' : Memory) : Prop :=
  ∀ a : Nat, ¬(base ≤ a ∧ a < base + len) → m'.read a = m.read a

/-- The source buffer of a running command. -/
def Ctx.srcBytes (c : Ctx) (m : Memory) : List Byte := readBytes m c.src.toNat c.len.toNat

/-- The first `n` of the settled answers for the engine's next accesses are there, and none of them is `BusErr`. -/
def AnswersOk (n : Nat) (s : State) : Prop := s.env.answers.take n = List.replicate n .ok

/-- The outcome a command's closed form gives (spec/45_commands.md R226, R229, R232). -/
def closedForm : Instr → List Byte → Word → Except (ErrCode × Word) (List Byte)
  | .compress => compressOutcome
  | .decompress => decompressOutcome
  | .dumpbits => dumpOutcome

/-- A command running in `s` has ended in `t` with this outcome: completion (spec/45_commands.md R224) with exactly the
output bytes written from `ctx.dst` on, or error entry (spec/60_exceptions.md R256) with bytes outside the window as
before (spec/20_memory.md R80). -/
def EndsWith (s t : State) : Except (ErrCode × Word) (List Byte) → Prop
  | .ok out =>
    t.phase = .idle ∧
    t.regs = { s.regs with
      resultLen := BitVec.ofNat 32 out.length, status := { s.regs.status with done := true, busy := false } } ∧
    readBytes t.mem s.ctx.dst.toNat out.length = out ∧
    SameOutside s.ctx.dst.toNat out.length s.mem t.mem
  | .error (code, info) =>
    t.phase = .idle ∧
    t.regs = { s.regs with
      errCode := code, errInfo := info, resultLen := 0,
      status := { s.regs.status with done := false, err := true, busy := false } } ∧
    SameOutside s.ctx.dst.toNat s.ctx.cap.toNat s.mem t.mem

/-- The agents' moves to come, the latest response and the command context are as before. -/
def SameBeyond (s t : State) : Prop :=
  t.env.inputs = s.env.inputs ∧ t.env.resp = s.env.resp ∧ t.ctx = s.ctx

/-- A move is a 32-bit write of `v` to the register at this offset, through the window or on the host's bus
(spec/10_state.md R21, spec/20_memory.md R68). -/
def Input.writesReg (off : BitVec 6) (v : Word) (i : Input) : Prop :=
  i = .regWrite off 32 v ∨ ∃ addr, regOffset addr = some off ∧ i = .busWrite addr 32 v

/-- A move is a 32-bit read of the register at this offset. -/
def Input.readsReg (off : BitVec 6) (i : Input) : Prop :=
  i = .regRead off 32 ∨ ∃ addr, regOffset addr = some off ∧ i = .busRead addr 32

/-- The answers of so many calls of `ReadBit` in a row (spec/40_bitstream.md R127). -/
def readCalls : Nat → State → Res (List (Option Bool))
  | 0, s => .ok [] s
  | n + 1, s => (readBit s).bind fun b s => (readCalls n s).bind fun bs s => .ok (b :: bs) s

/-- The tree an arena index stands for, at most so many levels deep (spec/00_scope.md R9). -/
def Engine.treeAt : Nat → Engine → BitVec 9 → Option HuffTree
  | 0, _, _ => none
  | depth + 1, e, i =>
    match e.nodeAt i with
    | none => none
    | some n =>
      match n.kind with
      | .leaf => some (.leaf n.value)
      | .internal =>
        match Engine.treeAt depth e n.left, Engine.treeAt depth e n.right with
        | some l, some r => some (.node l r)
        | _, _ => none

end Sys2Proof.Machine
end

