-- ==== Sys2Proof/Certificates/Slice0/Obligations.lean ====
section
/-! DEFINITION. The statements for the provers: what the rules of spec/ say the machine does. -/

open Sys2Proof Sys2Proof.Machine

/-! ### Command words (spec/30_encoding.md) -/

/-- R93: decoding is the total function written there, and exactly three words decode to a command. -/
def Obligations.ExactlyThreeWordsDecode : Prop :=
  (∀ w : Word,
    decodeCmd w =
      if ¬(w.extractLsb' 0 8 = 0x01#8 ∨ w.extractLsb' 0 8 = 0x02#8 ∨ w.extractLsb' 0 8 = 0x03#8) then .error .argOpcode
      else if w.extractLsb' 8 24 ≠ 0#24 then .error .argReserved
      else if w.extractLsb' 0 8 = 0x01#8 then .ok .compress
      else if w.extractLsb' 0 8 = 0x02#8 then .ok .decompress
      else .ok .dumpbits) ∧
  ∀ w : Word, (∃ i, decodeCmd w = .ok i) ↔ w = 0x00000001#32 ∨ w = 0x00000002#32 ∨ w = 0x00000003#32

/-- R90, R91: the words of the three commands, and some illegal ones, as the opcode table writes them. -/
def Obligations.TableWordsDecode : Prop :=
  decodeCmd 0b00000000000000000000000000000001#32 = .ok .compress ∧
  decodeCmd 0b00000000000000000000000000000010#32 = .ok .decompress ∧
  decodeCmd 0b00000000000000000000000000000011#32 = .ok .dumpbits ∧
  decodeCmd 0x00000000#32 = .error .argOpcode ∧
  decodeCmd 0x00000104#32 = .error .argOpcode ∧
  decodeCmd 0x00000101#32 = .error .argReserved ∧
  ∀ i : Instr, decodeCmd (encode i) = .ok i ∧ decodeTableWord 32 (encode i).toNat = some i

/-! ### A step runs the decoded command -/

/-- R23, R221: a CMD write to an idle block runs the command its word decodes to, the move being taken and acknowledged
and nothing else done around it. That the write is acknowledged with `ok` is the model's choice, log 14. The last clause
says the same of `withFetchWord`, which makes a busy block idle and places the move: the model's choice, log 6. -/
def Obligations.StepIssuesDecodedCommand : Prop :=
  (∀ (s : State) (m : Input) (rest : List Input) (w : Word) (i : Instr),
    s.regs.status.busy = false → s.env.inputs = m :: rest → m.writesReg 0x00#6 w → decodeCmd w = .ok i →
    step s = exec i { s with env := { s.env with inputs := rest, resp := some .ok } }) ∧
  ∀ (s : State) (i : Instr),
    step (s.withFetchWord 32 (encode i).toNat) =
      exec i { s with
        regs := { s.regs with status := { s.regs.status with busy := false } }
        phase := .idle
        env := { s.env with resp := some .ok } }

/-- R290, R41: an engine step runs the command that `ctx` holds. Two clauses are the model's choice: that the engine moves
by itself with no move to come, log 6, and that one engine step follows each poll of WAIT, log 16. -/
def Obligations.EngineStepRunsLatchedCommand : Prop :=
  ∀ (s : State) (i : Instr) (rest : List Input), s.regs.status.busy = true → decodeOp s.ctx.op = some i →
    (s.env.inputs = [] → step s = exec i s) ∧
    (s.env.inputs = .engine :: rest → step s = exec i { s with env := { s.env with inputs := rest } }) ∧
    (s.env.inputs = .wait :: rest →
      step s = exec i { s with env := { s.env with resp := some (.data s.regs.status.word) } })

/-- R262, R282: an idle block does nothing until a CMD write. -/
def Obligations.IdleBlockStaysAsItIs : Prop :=
  ∀ s : State, s.regs.status.busy = false →
    (s.env.inputs = [] → step s = .next s) ∧
    ∀ rest, s.env.inputs = .engine :: rest → step s = .next { s with env := { s.env with inputs := rest } }

/-! ### Issue, acceptance and rejection (spec/45_commands.md R221 to R223) -/

/-- R221, R222 checks 3 to 5, R223, R254: the issue of each command while idle, the first failing check deciding. An
accepted command latches its arguments and OP, clears DONE, ERR, ERR_CODE, ERR_INFO and RESULT_LEN, sets BUSY and enters
its first phase with a latency of at least 1; nothing else changes. -/
def Obligations.IdleIssueRejectsOrAccepts : Prop :=
  ∀ (i : Instr) (s : State), s.regs.status.busy = false →
    let rejected : ErrCode → Word → State := fun c v =>
      { s with
        regs := { s.regs with
          errCode := c, errInfo := v, resultLen := 0,
          status := ⟨false, false, true, s.regs.status.ovr⟩ }
        phase := .idle }
    if s.regs.srcAddr.toNat + s.regs.srcLen.toNat > 2 ^ 32 then exec i s = .next (rejected .argRange 0)
    else if s.regs.dstAddr.toNat + s.regs.dstCap.toNat > 2 ^ 32 then exec i s = .next (rejected .argRange 1)
    else if 0 < s.regs.srcLen.toNat ∧ 0 < s.regs.dstCap.toNat ∧
        s.regs.srcAddr.toNat < s.regs.dstAddr.toNat + s.regs.dstCap.toNat ∧
        s.regs.dstAddr.toNat < s.regs.srcAddr.toNat + s.regs.srcLen.toNat then
      exec i s = .next (rejected .argOverlap 0)
    else ∃ latency draws : Nat, 1 ≤ latency ∧
      exec i s = .next { s with
        ctx := ⟨match i with | .compress => 0x01#8 | .decompress => 0x02#8 | .dumpbits => 0x03#8,
          s.regs.srcAddr, s.regs.srcLen, s.regs.dstAddr, s.regs.dstCap⟩
        regs := { s.regs with
          errCode := .none, errInfo := 0, resultLen := 0,
          status := ⟨true, false, false, s.regs.status.ovr⟩ }
        phase := match i with | .compress => .cCount | .decompress => .dHeader | .dumpbits => .xDump
        env := { s.env with latencyLeft := latency, draws := draws } }

/-- R92, R221, R222 checks 1 and 2, R252, R256: an illegal command word written to an idle block is rejected, ERR_INFO
holding the word, and nothing else changes. -/
def Obligations.IllegalWordIsRejected : Prop :=
  ∀ (s : State) (m : Input) (rest : List Input) (w : Word) (e : CmdIllegal),
    s.regs.status.busy = false → s.env.inputs = m :: rest → m.writesReg 0x00#6 w → decodeCmd w = .error e →
    step s = .next { s with
      regs := { s.regs with
        errCode := match e with | .argOpcode => .argOpcode | .argReserved => .argReserved
        errInfo := w, resultLen := 0
        status := ⟨false, false, true, s.regs.status.ovr⟩ }
      phase := .idle
      env := { s.env with inputs := rest, resp := some .ok } }

/-- R27: a CMD write while BUSY only sets OVR, and only a STATUS write with bit 3 set, or reset, ever clears OVR. -/
def Obligations.BusyCommandWriteIsDropped : Prop :=
  (∀ (s : State) (m : Input) (rest : List Input) (w : Word),
    s.regs.status.busy = true → s.env.inputs = m :: rest → m.writesReg 0x00#6 w →
    step s = .next { s with
      regs := { s.regs with status := { s.regs.status with ovr := true } }
      env := { s.env with inputs := rest, resp := some .ok } }) ∧
  ∀ s t : State, s.Inv → step s = .next t → s.regs.status.ovr = true → t.regs.status.ovr = false →
    ∃ m rest, s.env.inputs = m :: rest ∧ (m = .rst ∨ ∃ v : Word, m.writesReg 0x04#6 v ∧ v.getLsbD 3 = true)

/-! ### Register window (spec/10_state.md) -/

/-- R24 to R26: a STATUS write clears DONE, ERR and OVR where bits 1, 2 and 3 are 1, and changes nothing else. -/
def Obligations.StatusWriteClearsMaskedFlags : Prop :=
  ∀ (s : State) (m : Input) (rest : List Input) (v : Word), s.env.inputs = m :: rest → m.writesReg 0x04#6 v →
    step s = .next { s with
      regs := { s.regs with
        status := {
          busy := s.regs.status.busy
          done := if v.getLsbD 1 then false else s.regs.status.done
          err := if v.getLsbD 2 then false else s.regs.status.err
          ovr := if v.getLsbD 3 then false else s.regs.status.ovr } }
      env := { s.env with inputs := rest, resp := some .ok } }

/-- R30 to R33, R287: a write to an argument register changes that register alone, BUSY or not, and the next read returns
it. -/
def Obligations.ArgumentWriteReadsBack : Prop :=
  ∀ (s : State) (m m' : Input) (rest : List Input) (off : BitVec 6) (v : Word),
    s.env.inputs = m :: m' :: rest → m.writesReg off v → m'.readsReg off →
    off = 0x10#6 ∨ off = 0x14#6 ∨ off = 0x18#6 ∨ off = 0x1C#6 →
    ∃ t, step s = .next t ∧
      t = { s with
        regs := { s.regs with
          srcAddr := if off = 0x10#6 then v else s.regs.srcAddr
          srcLen := if off = 0x14#6 then v else s.regs.srcLen
          dstAddr := if off = 0x18#6 then v else s.regs.dstAddr
          dstCap := if off = 0x1C#6 then v else s.regs.dstCap }
        env := { s.env with inputs := m' :: rest, resp := some .ok } } ∧
      step t = .next { t with env := { t.env with inputs := rest, resp := some (.data v) } }

/-- R35 and the read-only registers of R22: a write to one of these offsets changes nothing, and the reserved offsets and
CMD read 0. -/
def Obligations.ReservedOffsetsHoldNothing : Prop :=
  ∀ (s : State) (m : Input) (rest : List Input) (off : BitVec 6), s.env.inputs = m :: rest →
    (∀ v, m.writesReg off v →
      off ∈ [0x08#6, 0x0C#6, 0x20#6, 0x24#6, 0x28#6, 0x2C#6, 0x30#6, 0x34#6, 0x38#6, 0x3C#6] →
      step s = .next { s with env := { s.env with inputs := rest, resp := some .ok } }) ∧
    (m.readsReg off → off ∈ [0x00#6, 0x24#6, 0x28#6, 0x2C#6, 0x30#6, 0x34#6, 0x38#6, 0x3C#6] →
      step s = .next { s with env := { s.env with inputs := rest, resp := some (.data 0x00000000#32) } })

/-- R21: an access of another width, or at an offset that is no multiple of 4, gets a bus error and changes nothing,
through the window or at an address of the host's bus inside it. -/
def Obligations.MalformedAccessGetsBusError : Prop :=
  ∀ (s : State) (m : Input) (rest : List Input) (off : BitVec 6) (width : Nat) (v : Word),
    width ≠ 32 ∨ off.toNat % 4 ≠ 0 → s.env.inputs = m :: rest →
    (m = .regRead off width ∨ m = .regWrite off width v ∨
      ∃ addr, regOffset addr = some off ∧ (m = .busRead addr width ∨ m = .busWrite addr width v)) →
    step s = .next { s with env := { s.env with inputs := rest, resp := some .busError } }

/-- R22, R24, R28, R29, R34, R251: what the registers read as, each error by its code, a read changing nothing. -/
def Obligations.RegisterReadsGiveTheMap : Prop :=
  ∀ (s : State) (m : Input) (rest : List Input) (off : BitVec 6), s.env.inputs = m :: rest → m.readsReg off →
    off.toNat % 4 = 0 →
    ∃ v : Word, step s = .next { s with env := { s.env with inputs := rest, resp := some (.data v) } } ∧
      (off = 0x04#6 →
        v.getLsbD 0 = s.regs.status.busy ∧ v.getLsbD 1 = s.regs.status.done ∧ v.getLsbD 2 = s.regs.status.err ∧
        v.getLsbD 3 = s.regs.status.ovr ∧ v.extractLsb' 4 28 = 0#28) ∧
      (off = 0x08#6 → v.extractLsb' 8 24 = 0#24 ∧ v.extractLsb' 0 8 =
        match s.regs.errCode with
        | .none => 0x00#8
        | .ioRead => 0x01#8
        | .ioWrite => 0x02#8
        | .ioDstFull => 0x03#8
        | .fmtHeader => 0x10#8
        | .fmtTreeEos => 0x11#8
        | .fmtTreeLeafRoot => 0x12#8
        | .fmtTreeTooLarge => 0x13#8
        | .fmtPayloadEos => 0x14#8
        | .argOpcode => 0x20#8
        | .argReserved => 0x21#8
        | .argRange => 0x22#8
        | .argOverlap => 0x23#8
        | .intNoCode => 0x30#8) ∧
      (off = 0x0C#6 → v = s.regs.errInfo) ∧ (off = 0x10#6 → v = s.regs.srcAddr) ∧
      (off = 0x14#6 → v = s.regs.srcLen) ∧ (off = 0x18#6 → v = s.regs.dstAddr) ∧
      (off = 0x1C#6 → v = s.regs.dstCap) ∧ (off = 0x20#6 → v = s.regs.resultLen)

/-! ### Memory and the host (spec/20_memory.md) -/

/-- R78: a host that stores into a buffer of the running command has no move. Any other host store is taken, and a host
read of a byte outside the running command's window returns it; neither touches the block. R80(a): a host read of a byte
in that window answers some byte and changes nothing else, but for the draw counter. Which byte is the model's free value,
log 8. That no host access of memory is answered with a bus error, and that a store is answered `ok`, is the model's choice,
log 18. -/
def Obligations.HostMemoryAccess : Prop :=
  ∀ (s : State) (rest : List Input) (a : Word) (b : Byte),
    let inSrc := s.ctx.src.toNat ≤ a.toNat ∧ a.toNat < s.ctx.src.toNat + s.ctx.len.toNat
    let inDst := s.ctx.dst.toNat ≤ a.toNat ∧ a.toNat < s.ctx.dst.toNat + s.ctx.cap.toNat
    (s.env.inputs = .memWrite a b :: rest →
      (s.regs.status.busy = true ∧ (inSrc ∨ inDst) → step s = .refused .hostDutyBroken) ∧
      (¬(s.regs.status.busy = true ∧ (inSrc ∨ inDst)) → ∃ m, m.read a.toNat = b ∧ SameOutside a.toNat 1 s.mem m ∧
        step s = .next { s with mem := m, env := { s.env with inputs := rest, resp := some .ok } })) ∧
    (s.env.inputs = .memRead a :: rest →
      (¬(s.regs.status.busy = true ∧ inDst) →
        step s = .next { s with env := { s.env with inputs := rest, resp := some (.byte (s.mem.read a.toNat)) } }) ∧
      (s.regs.status.busy = true ∧ inDst → ∃ v : Byte,
        step s = .next { s with
          env := { s.env with inputs := rest, resp := some (.byte v), draws := s.env.draws + 1 } }))

/-- R80(c), R256: after an error of an accepted command every byte of its window is a free value. -/
def Obligations.ErrorLeavesWindowUnspecified : Prop :=
  ∀ (i : Instr) (s t : State), s.Inv → Running i s → s.phase.command = some i → exec i s = .next t →
    t.regs.status.err = true →
    ∃ since, ∀ a : Nat, s.ctx.dst.toNat ≤ a → a < s.ctx.dst.toNat + s.ctx.cap.toNat →
      t.mem.read a = Config.unspecByte since a

/-! ### Reset (spec/70_reset_and_hazards.md R280, R281, spec/10_state.md R51) -/

/-- R280, R281: reset zeroes every register and makes the block idle, whatever it was doing. Memory keeps its values,
but for the window of a command that was running: every byte of that is a free value (R80(c); its form is the model's
choice, log 4). -/
def Obligations.ResetInputResetsTheBlock : Prop :=
  ∀ (s : State) (rest : List Input), s.env.inputs = .rst :: rest →
    ∃ t, step s = .next t ∧ t.env.inputs = rest ∧ t.phase = .idle ∧
      t.regs.status = ⟨false, false, false, false⟩ ∧ (∀ off, t.regs.read off = 0x00000000#32) ∧
      (s.regs.status.busy = false → t.mem = s.mem) ∧
      (s.regs.status.busy = true → SameOutside s.ctx.dst.toNat s.ctx.cap.toNat s.mem t.mem ∧
        ∃ since, ∀ a : Nat, s.ctx.dst.toNat ≤ a → a < s.ctx.dst.toNat + s.ctx.cap.toNat →
          t.mem.read a = Config.unspecByte since a)

/-- R51, R282: after reset every register reads 0, the block is idle, and with no move to come it stays so. -/
def Obligations.ResetStateReadsZero : Prop :=
  (∀ off, State.reset.regs.read off = 0x00000000#32) ∧ State.reset.phase = .idle ∧
  State.reset.regs.status = ⟨false, false, false, false⟩ ∧ step State.reset = .next State.reset

/-! ### The invariant -/

/-- The invariant holds after reset. -/
def Obligations.ResetSatisfiesInvariant : Prop := State.reset.Inv

/-- Every step keeps the invariant: R36 and R29 on the registers, R40 on BUSY and `phase`, R41 and R222 on the latched
arguments, the bounds of both cursors (R47, R48, R122, R127), the arena of a built or read tree (R149, R163), and memory in
its canonical form. -/
def Obligations.StepKeepsInvariant : Prop :=
  ∀ s t : State, s.Inv → step s = .next t → t.Inv

/-- From a state of the invariant no step faults, whatever the move and whatever the memory system answers. The only
refusal is of a host store into a buffer of the running command, which breaks R78(a) or R78(b). -/
def Obligations.InvariantNeverFaults : Prop :=
  ∀ s : State, s.Inv →
    (∃ t, step s = .next t) ∨
    (step s = .refused .hostDutyBroken ∧ s.regs.status.busy = true ∧
      ∃ (a : Word) (b : Byte) (rest : List Input), s.env.inputs = .memWrite a b :: rest ∧
        ((s.ctx.src.toNat ≤ a.toNat ∧ a.toNat < s.ctx.src.toNat + s.ctx.len.toNat) ∨
          (s.ctx.dst.toNat ≤ a.toNat ∧ a.toNat < s.ctx.dst.toNat + s.ctx.cap.toNat)))

/-! ### Life of a command (spec/45_commands.md R220, R224, R234, spec/70_reset_and_hazards.md R288, R289) -/

/-- R220, R224, R256, R289: whatever the memory system answers, the last engine step of every command completes it or ends
it in an error: BUSY falls, the phase is IDLE, exactly one of DONE and ERR is set, and no register but those the rules
name changes. Every byte outside the window is as before (R80(d)). -/
def Obligations.LastEngineStepEndsCommand : Prop :=
  ∀ (i : Instr) (s : State), s.Inv → Running i s → s.phase.command = some i → s.env.latencyLeft = 1 →
    ∃ t, exec i s = .next t ∧ t.phase = .idle ∧ SameBeyond s t ∧
      SameOutside s.ctx.dst.toNat s.ctx.cap.toNat s.mem t.mem ∧
      ((∃ n : Word, t.regs = { s.regs with
          resultLen := n, status := { s.regs.status with busy := false, done := true } }) ∨
        ∃ (c : ErrCode) (v : Word), c ≠ .none ∧ t.regs = { s.regs with
          errCode := c, errInfo := v, resultLen := 0,
          status := { s.regs.status with busy := false, done := false, err := true } })

/-- R234(b), R286: an engine step that is not the command's last changes nothing a host can read, but for the bytes of the
window. -/
def Obligations.EarlierEngineStepsAreSilent : Prop :=
  ∀ (i : Instr) (s : State), s.Inv → Running i s → s.phase.command = some i → 1 < s.env.latencyLeft →
    ∃ t, exec i s = .next t ∧ t.regs = s.regs ∧ t.phase.command = some i ∧ SameBeyond s t ∧
      t.env.latencyLeft = s.env.latencyLeft - 1 ∧ SameOutside s.ctx.dst.toNat s.ctx.cap.toNat s.mem t.mem

/-- R288, R289: with no host move to come, BUSY stays 1 for all but the last of the command's `latency` engine steps and
falls in the last. -/
def Obligations.BusyFallsAfterItsLatency : Prop :=
  ∀ (s : State) (n : Nat), s.Inv → s.regs.status.busy = true → s.env.inputs = [] → s.env.latencyLeft = n + 1 →
    (∃ t : State, Sys2Proof.core.run n s = .next t ∧ t.regs = s.regs) ∧
    ∃ u : State, Sys2Proof.core.run (n + 1) s = .next u ∧ u.regs.status.busy = false ∧ u.phase = .idle

/-- R288, R234: how many engine steps a command takes changes nothing: with no host move to come, the state after the last
of them is the one that ending the command at once would have given. -/
def Obligations.LatencyDoesNotChangeTheOutcome : Prop :=
  ∀ (i : Instr) (s : State) (n : Nat), s.Inv → Running i s → s.phase.command = some i → s.env.inputs = [] →
    s.env.latencyLeft = n + 1 →
    ∃ u : State, Sys2Proof.core.run (n + 1) s = .next u ∧
      exec i { s with env := { s.env with latencyLeft := 1 } } = .next u

/-- R24: BUSY is set only by the acceptance of a command written to CMD. -/
def Obligations.BusyRisesOnlyByAcceptance : Prop :=
  ∀ s t : State, step s = .next t → s.regs.status.busy = false → t.regs.status.busy = true →
    ∃ m rest w i, s.env.inputs = m :: rest ∧ Input.writesReg 0x00#6 w m ∧ decodeCmd w = .ok i ∧
      s.regs.args.wf = true ∧ t.ctx.op = i.op ∧ t.ctx.args = s.regs.args

/-- R24, R281: BUSY is cleared only by the command's own last engine step, which leaves DONE or ERR, or by reset. -/
def Obligations.BusyFallsOnlyByEndOrReset : Prop :=
  ∀ s t : State, s.Inv → step s = .next t → s.regs.status.busy = true → t.regs.status.busy = false →
    (∃ rest, s.env.inputs = .rst :: rest) ∨
    (s.env.latencyLeft = 1 ∧ (t.regs.status.done = true ∨ t.regs.status.err = true) ∧
      (s.env.inputs = [] ∨ ∃ rest, s.env.inputs = .engine :: rest ∨ s.env.inputs = .wait :: rest))

/-- R41: the command context is constant from acceptance until the command ends. -/
def Obligations.ContextConstantWhileBusy : Prop :=
  ∀ s t : State, s.Inv → step s = .next t → s.regs.status.busy = true → t.regs.status.busy = true → t.ctx = s.ctx

/-- R30 to R33, R256: an argument register changes only by a host write to it or by reset, never by a command. -/
def Obligations.ArgumentsChangeOnlyByHost : Prop :=
  ∀ s t : State, s.Inv → step s = .next t →
    let byHost : BitVec 6 → Word → Prop := fun off v =>
      ∃ m rest, s.env.inputs = m :: rest ∧ (m = .rst ∨ Input.writesReg off v m)
    (t.regs.srcAddr ≠ s.regs.srcAddr → byHost 0x10#6 t.regs.srcAddr) ∧
    (t.regs.srcLen ≠ s.regs.srcLen → byHost 0x14#6 t.regs.srcLen) ∧
    (t.regs.dstAddr ≠ s.regs.dstAddr → byHost 0x18#6 t.regs.dstAddr) ∧
    (t.regs.dstCap ≠ s.regs.dstCap → byHost 0x1C#6 t.regs.dstCap)

/-- R50: what a command does to registers and memory does not depend on the internal state it was issued in. -/
def Obligations.InternalStateIsNeverObserved : Prop :=
  ∀ (i : Instr) (s t : State) (e : Engine), Running i s → s.mem.wf → s.phase = Phase.first i → s.env.latencyLeft = 1 →
    exec i s = .next t →
    ∃ t', exec i { s with eng := e } = .next t' ∧ t'.regs = t.regs ∧ t'.phase = t.phase ∧ t'.ctx = t.ctx ∧
      t'.mem = t.mem ∧ t'.env = t.env

/-- R253: the errors each command can report, a host that keeps R78 being the only one with a move. -/
def Obligations.CommandsReportOnlyTheirErrors : Prop :=
  ∀ (i : Instr) (s t : State), s.Inv → Running i s → s.phase = Phase.first i → s.env.latencyLeft = 1 →
    exec i s = .next t → t.regs.status.err = true →
    match i with
    | .compress | .dumpbits => t.regs.errCode ∈ [ErrCode.ioRead, .ioWrite, .ioDstFull]
    | .decompress => t.regs.errCode ∈ [ErrCode.ioRead, .ioWrite, .ioDstFull, .fmtHeader, .fmtTreeEos, .fmtTreeLeafRoot,
        .fmtTreeTooLarge, .fmtPayloadEos]

/-! ### COMPRESS (spec/45_commands.md R225 to R227) -/

/-- R226, R81: with no access answered `BusErr`, COMPRESS ends with the outcome of its closed form, and a completed one has
read each source byte twice and written each container byte once. -/
def Obligations.CompressWritesItsContainer : Prop :=
  ∀ s : State, Running .compress s → s.phase = .cCount → s.env.latencyLeft = 1 →
    AnswersOk (2 * s.ctx.len.toNat + (compressBytes (s.ctx.srcBytes s.mem)).length) s →
    ∃ t, exec .compress s = .next t ∧ SameBeyond s t ∧
      EndsWith s t (compressOutcome (s.ctx.srcBytes s.mem) s.ctx.cap) ∧
      (t.regs.status.done = true →
        t.env.answers = s.env.answers.drop (2 * s.ctx.len.toNat + t.regs.resultLen.toNat))

/-- R62, R63, R226, R255, R257: the first access of COMPRESS that is answered `BusErr`, if it comes before the window is
full, decides its error, and no access is made after it. The accesses are those of program order, in the counting pass, the
header, the tree, the second pass and the flush. The last two clauses spell out the counting pass and the header. -/
def Obligations.CompressFirstBusError : Prop :=
  ∀ (s : State) (k : Nat) (more : List BusAnswer), Running .compress s → s.phase = .cCount → s.env.latencyLeft = 1 →
    s.env.answers = List.replicate k .ok ++ .busErr :: more →
    (∀ a : Access, (compressAccesses (s.ctx.srcBytes s.mem))[k]? = some a →
      (∀ b ∈ (compressAccesses (s.ctx.srcBytes s.mem)).take (k + 1), b.fits s.ctx.cap = true) →
      ∃ t, exec .compress s = .next t ∧ SameBeyond s t ∧ EndsWith s t (.error a.busError) ∧ t.env.answers = more) ∧
    (k < s.ctx.len.toNat →
      ∃ t, exec .compress s = .next t ∧ SameBeyond s t ∧ EndsWith s t (.error (.ioRead, BitVec.ofNat 32 k))) ∧
    ∀ j, k = s.ctx.len.toNat + j → j < 4 → j < s.ctx.cap.toNat →
      ∃ t, exec .compress s = .next t ∧ SameBeyond s t ∧ EndsWith s t (.error (.ioWrite, BitVec.ofNat 32 j))

/-! ### DECOMPRESS (spec/45_commands.md R228 to R230) -/

/-- R229: with no access answered `BusErr`, DECOMPRESS ends with the outcome of its closed form. -/
def Obligations.DecompressWritesItsSymbols : Prop :=
  ∀ s : State, Running .decompress s → s.phase = .dHeader → s.env.latencyLeft = 1 →
    AnswersOk (9 * s.ctx.len.toNat) s →
    ∃ t, exec .decompress s = .next t ∧ SameBeyond s t ∧
      EndsWith s t (decompressOutcome (s.ctx.srcBytes s.mem) s.ctx.cap)

/-- R228, R104(b): a container shorter than its header is FMT_HEADER with its length, with no memory access made. -/
def Obligations.DecompressShortContainer : Prop :=
  ∀ s : State, Running .decompress s → s.phase = .dHeader → s.env.latencyLeft = 1 → s.ctx.len.toNat < 4 →
    ∃ t, exec .decompress s = .next t ∧ SameBeyond s t ∧ EndsWith s t (.error (.fmtHeader, s.ctx.len)) ∧
      t.env.answers = s.env.answers

/-- R62, R255: the first read of the header that is answered `BusErr` is IO_READ with its offset. -/
def Obligations.DecompressHeaderBusError : Prop :=
  ∀ (s : State) (k : Nat) (more : List BusAnswer), Running .decompress s → s.phase = .dHeader →
    s.env.latencyLeft = 1 → 4 ≤ s.ctx.len.toNat → k < 4 → s.env.answers = List.replicate k .ok ++ .busErr :: more →
    ∃ t, exec .decompress s = .next t ∧ SameBeyond s t ∧ EndsWith s t (.error (.ioRead, BitVec.ofNat 32 k))

/-- R62, R63, R229, R255, R257: the first access of DECOMPRESS that is answered `BusErr`, if it comes before the window is
full, decides its error, and no access is made after it. The accesses are those of program order, in the header, the tree
and the payload with its symbols. -/
def Obligations.DecompressFirstBusError : Prop :=
  ∀ (s : State) (k : Nat) (more : List BusAnswer) (a : Access), Running .decompress s → s.phase = .dHeader →
    s.env.latencyLeft = 1 → 4 ≤ s.ctx.len.toNat → s.env.answers = List.replicate k .ok ++ .busErr :: more →
    (decompressAccesses (s.ctx.srcBytes s.mem))[k]? = some a →
    (∀ b ∈ (decompressAccesses (s.ctx.srcBytes s.mem)).take (k + 1), b.fits s.ctx.cap = true) →
    ∃ t, exec .decompress s = .next t ∧ SameBeyond s t ∧ EndsWith s t (.error a.busError) ∧ t.env.answers = more

/-! ### DUMPBITS (spec/45_commands.md R231, R232) -/

/-- R231, R232, R103, R81: with no access answered `BusErr`, DUMPBITS ends with the outcome of its closed form. A completed
one has written, for bit `7 - j` of source byte i, the byte 0x30 or 0x31 at output offset `8 i + j`, and made one access per
source and output byte. -/
def Obligations.DumpbitsWritesItsText : Prop :=
  ∀ s : State, Running .dumpbits s → s.phase = .xDump → s.env.latencyLeft = 1 →
    AnswersOk (9 * s.ctx.len.toNat) s →
    ∃ t, exec .dumpbits s = .next t ∧ SameBeyond s t ∧
      EndsWith s t (dumpOutcome (s.ctx.srcBytes s.mem) s.ctx.cap) ∧
      (8 * s.ctx.len.toNat ≤ s.ctx.cap.toNat →
        t.regs.resultLen.toNat = 8 * s.ctx.len.toNat ∧ t.env.answers = s.env.answers.drop (9 * s.ctx.len.toNat) ∧
        ∀ i j, i < s.ctx.len.toNat → j < 8 →
          t.mem.read (s.ctx.dst.toNat + (8 * i + j)) =
            if (s.mem.read (s.ctx.src.toNat + i)).getLsbD (7 - j) then 0x31#8 else 0x30#8)

/-- R62, R63, R255: the first access of DUMPBITS that is answered `BusErr` decides its error, provided it comes before the
window is full. -/
def Obligations.DumpbitsFirstBusError : Prop :=
  ∀ (s : State) (k j : Nat) (more : List BusAnswer), Running .dumpbits s → s.phase = .xDump → s.env.latencyLeft = 1 →
    k < s.ctx.len.toNat →
    (s.env.answers = List.replicate (9 * k) .ok ++ .busErr :: more → 8 * k ≤ s.ctx.cap.toNat →
      ∃ t, exec .dumpbits s = .next t ∧ SameBeyond s t ∧ EndsWith s t (.error (.ioRead, BitVec.ofNat 32 k))) ∧
    (s.env.answers = List.replicate (9 * k + 1 + j) .ok ++ .busErr :: more → j < 8 → 8 * k + j < s.ctx.cap.toNat →
      ∃ t, exec .dumpbits s = .next t ∧ SameBeyond s t ∧
        EndsWith s t (.error (.ioWrite, BitVec.ofNat 32 (8 * k + j))))

/-! ### The bit-stream engine (spec/40_bitstream.md) -/

/-- R123 to R125: an empty writer packs a bit string most significant bit first, and Flush pads the last byte with zeros. -/
def Obligations.WriterPacksBitStrings : Prop :=
  ∀ (s : State) (bits : Bits), s.eng.w = ⟨0, 0, 0⟩ → s.ctx.dst.toNat + s.ctx.cap.toNat ≤ 2 ^ 32 →
    (bits.length + 7) / 8 ≤ s.ctx.cap.toNat → AnswersOk ((bits.length + 7) / 8) s →
    ∃ t, (writeString bits s).bind (fun _ u => flush u) = .ok () t ∧
      t.eng.w = ⟨0, 0, BitVec.ofNat 32 ((bits.length + 7) / 8)⟩ ∧
      readBytes t.mem s.ctx.dst.toNat ((bits.length + 7) / 8) = bytesOfBits bits ∧
      SameOutside s.ctx.dst.toNat ((bits.length + 7) / 8) s.mem t.mem

/-- R126, R127: a fresh reader returns the bits of the source bytes, most significant bit of each byte first, and then EOS
for ever. It reads each byte once and changes no memory. -/
def Obligations.ReaderReturnsTheStream : Prop :=
  ∀ (s : State) (m : Nat), s.eng.r.cnt = 0 → s.eng.r.inPos = 0 → s.ctx.src.toNat + s.ctx.len.toNat ≤ 2 ^ 32 →
    AnswersOk s.ctx.len.toNat s →
    ∃ t, readCalls (8 * s.ctx.len.toNat + m) s =
        .ok ((bitsOfBytes (s.ctx.srcBytes s.mem)).map some ++ List.replicate m none) t ∧
      t.mem = s.mem ∧ t.env.answers = s.env.answers.drop s.ctx.len.toNat

/-- R130: the bytes written for a bit string read back as the string, then zeros up to the byte's end. -/
def Obligations.PackedBitsReadBack : Prop :=
  ∀ bits : Bits, (bytesOfBits bits).length = (bits.length + 7) / 8 ∧
    bitsOfBytes (bytesOfBits bits) = bits ++ List.replicate (8 * ((bits.length + 7) / 8) - bits.length) false

/-! ### Trees (spec/41_tree_builder.md, spec/42_tree_serialization.md, spec/43_code_table_encoder.md) -/

/-- R142 to R147, R149: from the counts of a byte sequence, phase C_BUILD leaves the arena of exactly the tree BuildTree
gives for it, the last entry in use being the root. -/
def Obligations.ArenaHoldsTheBuiltTree : Prop :=
  ∀ (x : List Byte) (e : Engine), x.length < 2 ^ 32 →
    (∀ b : Byte, e.freq[b.toNat]'b.isLt = BitVec.ofNat 32 (x.count b)) →
    ∃ e', buildArena e = some e' ∧ Engine.treeAt Config.stackDepth e' e'.root = some (buildTree x) ∧
      e'.nodeCount.toNat = 2 * (buildTree x).leafCount - 1 ∧ e'.root.toNat = 2 * (buildTree x).leafCount - 2 ∧
      ArenaBuilt e'

/-- R144, R149: every built tree has an internal root, 2 to 256 leaves and at most 511 nodes, its depth is below its leaf
count, and its leaves are the distinct input values, each once, and dummies up to two leaves. -/
def Obligations.BuiltTreeShape : Prop :=
  ∀ x : List Byte,
    (buildTree x).isInternal = true ∧ (buildTree x).leafCount = max 2 x.dedup.length ∧
    (buildTree x).leafCount ≤ 256 ∧ (buildTree x).size = 2 * (buildTree x).leafCount - 1 ∧
    (buildTree x).depth ≤ (buildTree x).leafCount - 1 ∧
    (((buildTree x).leafPaths []).map Prod.fst).Perm (x.dedup ++ List.replicate (2 - x.dedup.length) 0)

/-- R151: the tree depends on the bytes' counts alone. -/
def Obligations.BuiltTreeIgnoresOrder : Prop :=
  ∀ x y : List Byte, x.Perm y → buildTree x = buildTree y

/-- R181: every code of a built tree has 1 to 255 bits, and every input byte has one. -/
def Obligations.BuiltCodesFitTheTable : Prop :=
  ∀ x : List Byte,
    (∀ (v : Byte) (p : Bits), (buildTree x).code v = some p → 1 ≤ p.length ∧ p.length ≤ Config.codeMaxLen) ∧
    ∀ v ∈ x, ∃ p, (buildTree x).code v = some p

/-- R180, R182, R183: from an arena that holds a tree, phase C_DERIVE writes the code table alone, leaves valid exactly the
values of the tree's leaves, and stores for each the path of its last leaf. -/
def Obligations.CodeTableHoldsThePaths : Prop :=
  ∀ (s : State) (t : HuffTree), Engine.treeAt Config.stackDepth s.eng s.eng.root = some t →
    t.depth ≤ Config.codeMaxLen →
    ∃ ct, cDerive s = .ok () ((s.setEng { s.eng with ct := ct }).setPhase .cEncode) ∧
      ∀ v : Byte, match t.code v with
        | none => (ct[v.toNat]'v.isLt).valid = false
        | some p => (ct[v.toNat]'v.isLt).valid = true ∧ (ct[v.toNat]'v.isLt).len.toNat = p.length ∧
            (ct[v.toNat]'v.isLt).bits = p

/-- R184: after phase C_DERIVE, of two different valid values neither code begins the other. The second clause says the
same of the tree itself. -/
def Obligations.CodesArePrefixFree : Prop :=
  (∀ (s u : State) (t : HuffTree) (v w : Byte), Engine.treeAt Config.stackDepth s.eng s.eng.root = some t →
    t.depth ≤ Config.codeMaxLen → cDerive s = .ok () u → v ≠ w →
    (u.eng.codeEntry v).valid = true → (u.eng.codeEntry w).valid = true →
    ¬(u.eng.codeEntry v).bits <+: (u.eng.codeEntry w).bits) ∧
  ∀ (t : HuffTree) (v w : Byte) (p q : Bits), v ≠ w → t.code v = some p → t.code w = some q → ¬p <+: q

/-- R161: a tree of L leaves serializes to 10 L - 1 bits, 19 to 2559 for a built tree. -/
def Obligations.SerializedLength : Prop :=
  (∀ t : HuffTree, t.serialize.length = 10 * t.leafCount - 1) ∧
  ∀ x : List Byte, 19 ≤ (buildTree x).serialize.length ∧ (buildTree x).serialize.length ≤ 2559

/-- R166: deserializing a serialized tree with an internal root and at most 511 nodes gives that tree back and consumes
exactly its bits, and every built tree is such a tree. -/
def Obligations.DeserializeUndoesSerialize : Prop :=
  (∀ (t : HuffTree) (rest : Bits), t.isInternal = true → t.size ≤ Config.nodeCap →
    deserialize (t.serialize ++ rest) = .ok (t, rest)) ∧
  ∀ x : List Byte, (buildTree x).isInternal = true ∧ (buildTree x).size ≤ Config.nodeCap

/-- R164: a leaf root, a tree that needs a 512th node and a tree cut short are rejected, each by its own code. -/
def Obligations.DeserializeRejections : Prop :=
  (∀ s : Bits, deserialize (true :: s) = .error (.fmtTreeLeafRoot, 0)) ∧
  (∀ (t : HuffTree) (rest : Bits), t.isInternal = true → Config.nodeCap < t.size →
    deserialize (t.serialize ++ rest) = .error (.fmtTreeTooLarge, 511#32)) ∧
  ∀ (t : HuffTree) (p : Bits), t.isInternal = true → t.size ≤ Config.nodeCap → p <+: t.serialize → p ≠ t.serialize →
    deserialize p = .error (.fmtTreeEos, 0)

/-! ### Containers (spec/30_encoding.md, spec/44_decoder.md) -/

/-- R101: the length of the container of `x`, from its leaf count and payload length; it is never below 7 bytes. -/
def Obligations.ContainerLength : Prop :=
  ∀ x : List Byte,
    (compressBytes x).length = 4 + (10 * (buildTree x).leafCount - 1 + (payload (buildTree x) x).length + 7) / 8 ∧
    7 ≤ (compressBytes x).length

/-- R206: decoding the payload of `x` with its tree gives `x`, whatever bits follow. -/
def Obligations.DecodeUndoesEncode : Prop :=
  ∀ (x : List Byte) (rest : Bits), decodeSymbols (buildTree x) x.length (payload (buildTree x) x ++ rest) = .ok x

/-- R202, R230(c): a container that decodes still decodes to the same bytes when bytes are put after it. -/
def Obligations.TrailingBytesAreIgnored : Prop :=
  ∀ (c more d : List Byte) (cap : Word), decompressOutcome c cap = .ok d → decompressOutcome (c ++ more) cap = .ok d

/-- R233: decompress of compress is the identity on every byte sequence whose length the header can hold. -/
def Obligations.DecompressUndoesCompress : Prop :=
  ∀ (x : List Byte) (cap : Word), x.length < 2 ^ 32 → x.length ≤ cap.toNat →
    decompressOutcome (compressBytes x) cap = .ok x

/-- R233, on the machine: a COMPRESS run to completion, and a DECOMPRESS of what it wrote, restore the source bytes. -/
def Obligations.MachineRoundTrip : Prop :=
  ∀ s t u : State, Running .compress s → s.phase = .cCount → s.env.latencyLeft = 1 →
    AnswersOk (2 * s.ctx.len.toNat + (compressBytes (s.ctx.srcBytes s.mem)).length) s →
    (compressBytes (s.ctx.srcBytes s.mem)).length ≤ s.ctx.cap.toNat → exec .compress s = .next t →
    Running .decompress u → u.phase = .dHeader → u.env.latencyLeft = 1 → u.mem = t.mem → u.ctx.src = s.ctx.dst →
    u.ctx.len = t.regs.resultLen → s.ctx.len.toNat ≤ u.ctx.cap.toNat → AnswersOk (9 * u.ctx.len.toNat) u →
    ∃ v, exec .decompress u = .next v ∧ v.regs.status.done = true ∧ v.regs.status.busy = false ∧
      v.regs.resultLen = s.ctx.len ∧ readBytes v.mem u.ctx.dst.toNat s.ctx.len.toNat = s.ctx.srcBytes s.mem
end

