-- ==== Sys2Proof/Laws/Bits.lean ====
section
/-! SUPPORT. The small laws of bit strings, packed bytes, stored codes and access orders. -/

namespace Sys2Proof.Machine

@[simp] theorem bitsOf_length (n v : Nat) : (bitsOf n v).length = n := by simp [bitsOf]

/-- Bit i of `bits_n(v)` is bit `n - 1 - i` of v (spec/00_scope.md R8). -/
theorem bitsOf_getElem (n v i : Nat) (h : i < (bitsOf n v).length) : (bitsOf n v)[i] = v.testBit (n - 1 - i) := by
  simp [bitsOf]

theorem bitsOf_zero (v : Nat) : bitsOf 0 v = [] := rfl

/-- Bit `7 - i` of a packed byte is bit i of the eight (spec/20_memory.md R65). -/
theorem byteOfBits_getLsbD (f : Nat → Bool) {i : Nat} (h : i < 8) : (byteOfBits f).getLsbD (7 - i) = f i := by
  have key : ∀ a b c d e g k l : Bool, ∀ j : Fin 8,
      (BitVec.ofBoolListBE [a, b, c, d, e, g, k, l]).getLsbD (7 - j.val) = [a, b, c, d, e, g, k, l][j.val] := by
    decide
  have := key (f 0) (f 1) (f 2) (f 3) (f 4) (f 5) (f 6) (f 7) ⟨i, h⟩
  rw [byteOfBits]
  rw [this]
  rcases i with _ | _ | _ | _ | _ | _ | _ | _ | i <;> first | rfl | omega

@[simp] theorem bytesOfBits_length (s : Bits) : (bytesOfBits s).length = (s.length + 7) / 8 := by simp [bytesOfBits]

@[simp] theorem bitsOfBytes_nil : bitsOfBytes [] = [] := rfl

@[simp] theorem bitsOfBytes_cons (b : Byte) (c : List Byte) :
    bitsOfBytes (b :: c) = bitsOf 8 b.toNat ++ bitsOfBytes c := rfl

theorem bitsOfBytes_append (c d : List Byte) : bitsOfBytes (c ++ d) = bitsOfBytes c ++ bitsOfBytes d := by
  simp [bitsOfBytes]

@[simp] theorem bitsOfBytes_length (c : List Byte) : (bitsOfBytes c).length = 8 * c.length := by
  induction c with
  | nil => rfl
  | cons b c ih => simp [ih]; omega

theorem natOfBits_lt (p : Bits) : natOfBits p < 2 ^ p.length := by
  induction p with
  | nil => simp [natOfBits]
  | cons b p ih =>
    simp only [natOfBits, List.length_cons, Nat.pow_succ]
    have := Bool.toNat_le b
    omega

theorem natOfBits_testBit (p : Bits) (k : Nat) : (natOfBits p).testBit k = p.getD k false := by
  induction p generalizing k with
  | nil => simp [natOfBits]
  | cons b p ih =>
    cases k with
    | zero => cases b <;> simp [natOfBits, Nat.testBit_zero]
    | succ k =>
      have h : (b.toNat + 2 * natOfBits p) / 2 = natOfBits p := by
        have := Bool.toNat_le b
        omega
      simp [natOfBits, Nat.testBit_succ, h, ih]

/-- An entry stored for a path the table can hold gives the path back (spec/10_state.md R46, R181). -/
theorem CodeEntry.ofPath_bits {p : Bits} (h : p.length ≤ Config.codeMaxLen) : (CodeEntry.ofPath p).bits = p := by
  simp only [Config.codeMaxLen] at h
  have hl : (BitVec.ofNat 8 p.length).toNat = p.length := by simp; omega
  apply List.ext_getElem
  · simp only [CodeEntry.bits, CodeEntry.ofPath, hl, List.length_map, List.length_range]
  · intro i h1 h2
    have hi : i < 255 := by omega
    simp only [CodeEntry.bits, CodeEntry.ofPath, List.getElem_map, List.getElem_range]
    rw [BitVec.getLsbD_ofNat]
    simp [hi, natOfBits_testBit, h2]

/-! ### The accesses of the memory port -/

@[simp] theorem Access.fits_read (cap : Word) (i : Nat) : (Access.read i).fits cap = true := rfl
@[simp] theorem Access.fits_write (cap : Word) (j : Nat) : (Access.write j).fits cap = true ↔ j < cap.toNat := by
  simp [Access.fits]
@[simp] theorem Access.busError_read (i : Nat) : (Access.read i).busError = (.ioRead, BitVec.ofNat 32 i) := rfl
@[simp] theorem Access.busError_write (j : Nat) : (Access.write j).busError = (.ioWrite, BitVec.ofNat 32 j) := rfl
@[simp] theorem writesBetween_self (p : Nat) : writesBetween p p = [] := by simp [writesBetween]
@[simp] theorem length_writesBetween (p q : Nat) : (writesBetween p q).length = q - p := by simp [writesBetween]
theorem getElem?_writesBetween {p q k : Nat} (h : k < q - p) : (writesBetween p q)[k]? = some (.write (p + k)) := by
  simp [writesBetween, h]
theorem mem_writesBetween {p q : Nat} {a : Access} : a ∈ writesBetween p q ↔ ∃ j, p ≤ j ∧ j < q ∧ a = .write j := by
  simp only [writesBetween, List.mem_map, List.mem_range'_1]
  exact ⟨fun ⟨j, h, e⟩ => ⟨j, h.1, by omega, e.symm⟩, fun ⟨j, h1, h2, e⟩ => ⟨j, ⟨h1, by omega⟩, e.symm⟩⟩
theorem writesBetween_append {p q r : Nat} (h1 : p ≤ q) (h2 : q ≤ r) :
    writesBetween p q ++ writesBetween q r = writesBetween p r := by
  have h := @List.range'_append p (q - p) (r - q) 1
  rw [Nat.one_mul, Nat.add_sub_cancel' h1, show q - p + (r - q) = r - p by omega] at h
  rw [writesBetween, writesBetween, writesBetween, ← List.map_append, h]

end Sys2Proof.Machine
end

