-- ==== Sys2Proof/Laws/Memory.lean ====
section
/-! SUPPORT. The laws of the shared memory: a read after a write, the canonical form kept by every operation, and the
form's being canonical. -/

namespace Sys2Proof.Machine

/-! ### Cells -/

theorem lookupCell_insertCell (cs : List Host.Cell) (a : Nat) (b : Byte) (x : Nat) :
    lookupCell (insertCell cs a b) x = if a = x then some b else lookupCell cs x := by
  induction cs with
  | nil => simp [insertCell, lookupCell]
  | cons c cs ih =>
    simp only [insertCell]
    split
    · simp [lookupCell]
    · split
      · next h => simp only [lookupCell, ← h]; split <;> rfl
      · next _ h =>
        simp only [lookupCell, ih]
        split
        · next hc => rw [if_neg (by omega)]
        · rfl

theorem lookupCell_filter (p : Nat → Bool) (cs : List Host.Cell) (x : Nat) :
    lookupCell (cs.filter fun c => p c.1) x = if p x then lookupCell cs x else none := by
  induction cs with
  | nil => simp [lookupCell]
  | cons c cs ih =>
    by_cases hp : p c.1 <;> by_cases hx : c.1 = x <;> simp_all [lookupCell]

theorem mem_insertCell {cs : List Host.Cell} {a : Nat} {b : Byte} {c : Host.Cell} (h : c ∈ insertCell cs a b) :
    c = (a, b) ∨ c ∈ cs := by
  induction cs with
  | nil => simpa [insertCell] using h
  | cons d cs ih =>
    simp only [insertCell] at h
    split at h
    · simpa using h
    · split at h
      · simp only [List.mem_cons] at h ⊢; tauto
      · simp only [List.mem_cons] at h ⊢; rcases h with h | h
        · tauto
        · have := ih h; tauto

theorem insertCell_rising {cs : List Host.Cell} (a : Nat) (b : Byte)
    (h : cs.Pairwise (fun c d => c.1 < d.1)) : (insertCell cs a b).Pairwise (fun c d => c.1 < d.1) := by
  induction cs with
  | nil => simp [insertCell]
  | cons c cs ih =>
    rw [List.pairwise_cons] at h
    simp only [insertCell]
    split
    · next hlt =>
      refine List.pairwise_cons.2 ⟨fun d hd => ?_, List.pairwise_cons.2 h⟩
      rcases List.mem_cons.1 hd with rfl | hd
      · exact hlt
      · exact lt_trans hlt (h.1 d hd)
    · split
      · next _ heq => exact List.pairwise_cons.2 ⟨fun d hd => by simpa [heq] using h.1 d hd, h.2⟩
      · next hnlt hne =>
        refine List.pairwise_cons.2 ⟨fun d hd => ?_, ih h.2⟩
        rcases mem_insertCell hd with rfl | hd
        · exact Nat.lt_of_le_of_ne (Nat.not_lt.1 hnlt) (fun e => hne e.symm)
        · exact h.1 d hd

/-- Two lists in the canonical form that list the same bytes are the same list. -/
theorem cells_ext {cs ds : List Host.Cell} (hc : cs.Pairwise (fun c d => c.1 < d.1))
    (hd : ds.Pairwise (fun c d => c.1 < d.1)) (h : ∀ a, lookupCell cs a = lookupCell ds a) : cs = ds := by
  induction cs generalizing ds with
  | nil =>
    cases ds with
    | nil => rfl
    | cons d ds => simpa [lookupCell] using h d.1
  | cons c cs ih =>
    have none_of : ∀ {a : Nat} {l : List Host.Cell}, (∀ x ∈ l, a < x.1) → lookupCell l a = none := by
      intro a l hl
      induction l with
      | nil => rfl
      | cons x l ih =>
        have hx := hl x (by simp)
        simp only [lookupCell]
        rw [if_neg (by omega)]
        exact ih fun y hy => hl y (by simp [hy])
    rw [List.pairwise_cons] at hc
    cases ds with
    | nil => simpa [lookupCell] using h c.1
    | cons d ds =>
      rw [List.pairwise_cons] at hd
      have hcd : c.1 = d.1 := by
        rcases Nat.lt_trichotomy c.1 d.1 with hlt | heq | hlt
        · have := h c.1
          simp only [lookupCell] at this
          rw [if_neg (show ¬d.1 = c.1 by omega), none_of fun x hx => lt_trans hlt (hd.1 x hx)] at this
          simp at this
        · exact heq
        · have := h d.1
          simp only [lookupCell] at this
          rw [if_neg (show ¬c.1 = d.1 by omega), none_of fun x hx => lt_trans hlt (hc.1 x hx)] at this
          simp at this
      have hval : c.2 = d.2 := by simpa [lookupCell, hcd] using h c.1
      have hrest : cs = ds := by
        refine ih hc.2 hd.2 fun a => ?_
        have := h a
        simp only [lookupCell, hcd] at this
        split at this
        · next he =>
          rw [none_of fun x hx => he ▸ hcd ▸ hc.1 x hx, none_of fun x hx => he ▸ hd.1 x hx]
        · exact this
      exact congrArg₂ _ (Prod.ext hcd hval) hrest

namespace Memory

/-! ### Reads -/

/-- Memory where nothing is listed, at power-on, reads as its unspecified contents. -/
@[simp] theorem read_reset (a : Nat) : Memory.reset.read a = Config.unspecByte 0 a := rfl

/-- A read after a write: the byte written there, and every other byte as before. -/
theorem read_write (m : Memory) (a : Nat) (b : Byte) (x : Nat) :
    (m.write a b).read x = if a = x then b else m.read x := by
  simp only [read, write, unlisted, lookupCell_insertCell]
  split <;> simp

@[simp] theorem read_write_same (m : Memory) (a : Nat) (b : Byte) : (m.write a b).read a = b := by
  simp [read_write]

theorem read_write_ne (m : Memory) {a x : Nat} (b : Byte) (h : a ≠ x) : (m.write a b).read x = m.read x := by
  simp [read_write, h]

/-- A read after a stretch became unspecified: a free value there, and every other byte as before. -/
theorem read_forget (m : Memory) (base len seed x : Nat) :
    (m.forget base len seed).read x = if inWindow base len x then Config.unspecByte seed x else m.read x := by
  have h := lookupCell_filter (fun a => !inWindow base len a) m.cells x
  simp only [read, forget, unlisted, unspecSeed, h]
  by_cases hw : inWindow base len x = true <;> simp [hw]

theorem read_forget_outside (m : Memory) {base len seed x : Nat} (h : ¬(base ≤ x ∧ x < base + len)) :
    (m.forget base len seed).read x = m.read x := by
  simp [read_forget, inWindow, h]

/-! ### The canonical form -/

theorem reset_wf : Memory.reset.wf := by decide

/-- A write inside the address space keeps the canonical form. -/
theorem write_wf {m : Memory} (h : m.wf) {a : Nat} (ha : a < Config.addrSpace) (b : Byte) : (m.write a b).wf :=
  ⟨insertCell_rising a b h.1, fun c hc => by
    rcases mem_insertCell hc with rfl | hc
    · exact ha
    · exact h.2 c hc⟩

/-- Making a stretch unspecified keeps the canonical form. -/
theorem forget_wf {m : Memory} (h : m.wf) (base len seed : Nat) : (m.forget base len seed).wf :=
  ⟨h.1.filter _, fun c hc => h.2 c (List.mem_of_mem_filter hc)⟩

end Memory

/-- Storing bytes inside the address space keeps the canonical form. -/
theorem writeBytes_wf {m : Memory} (h : m.wf) {a : Nat} {bs : List Byte} (ha : a + bs.length ≤ Config.addrSpace) :
    (writeBytes m a bs).wf := by
  induction bs generalizing m a with
  | nil => exact h
  | cons b bs ih =>
    simp only [List.length_cons] at ha
    exact ih (Memory.write_wf h (by omega) b) (by omega)

/-- A read after a run of stores: the byte stored there, and every other byte as before. -/
theorem read_writeBytes (m : Memory) (a : Nat) (bs : List Byte) (x : Nat) :
    (writeBytes m a bs).read x = if h : a ≤ x ∧ x < a + bs.length then bs[x - a]'(by omega) else m.read x := by
  induction bs generalizing m a with
  | nil => simp [writeBytes]
  | cons b bs ih =>
    simp only [writeBytes, ih, Memory.read_write, List.length_cons]
    by_cases hx : a = x
    · subst hx; simp
    · by_cases h1 : a + 1 ≤ x ∧ x < a + 1 + bs.length
      · rw [dif_pos h1, dif_pos (by omega)]
        have : x - a = (x - (a + 1)) + 1 := by omega
        simp [this]
      · rw [dif_neg h1, if_neg hx, dif_neg (by omega)]

/-- The bytes stored are the bytes read back. -/
theorem readBytes_writeBytes (m : Memory) (a : Nat) (bs : List Byte) :
    readBytes (writeBytes m a bs) a bs.length = bs := by
  apply List.ext_getElem
  · simp [readBytes]
  · intro i h1 h2
    have hlen : i < bs.length := h2
    simp [readBytes, read_writeBytes, hlen]

end Sys2Proof.Machine
end

