-- ==== Sys2Proof/Laws/State.lean ====
section
/-! SUPPORT. One lemma per field per update of the state, each true by unfolding, so that no later proof unfolds a record
update. -/

namespace Sys2Proof.Machine

namespace State

/-! `setRegs` -/
@[simp] theorem setRegs_regs (s : State) (r : RegFile) : (s.setRegs r).regs = r := rfl
@[simp] theorem setRegs_phase (s : State) (r : RegFile) : (s.setRegs r).phase = s.phase := rfl
@[simp] theorem setRegs_ctx (s : State) (r : RegFile) : (s.setRegs r).ctx = s.ctx := rfl
@[simp] theorem setRegs_eng (s : State) (r : RegFile) : (s.setRegs r).eng = s.eng := rfl
@[simp] theorem setRegs_mem (s : State) (r : RegFile) : (s.setRegs r).mem = s.mem := rfl
@[simp] theorem setRegs_env (s : State) (r : RegFile) : (s.setRegs r).env = s.env := rfl

/-! `setStatus` -/
@[simp] theorem setStatus_regs (s : State) (t : Status) : (s.setStatus t).regs = { s.regs with status := t } := rfl
@[simp] theorem setStatus_phase (s : State) (t : Status) : (s.setStatus t).phase = s.phase := rfl
@[simp] theorem setStatus_ctx (s : State) (t : Status) : (s.setStatus t).ctx = s.ctx := rfl
@[simp] theorem setStatus_eng (s : State) (t : Status) : (s.setStatus t).eng = s.eng := rfl
@[simp] theorem setStatus_mem (s : State) (t : Status) : (s.setStatus t).mem = s.mem := rfl
@[simp] theorem setStatus_env (s : State) (t : Status) : (s.setStatus t).env = s.env := rfl

/-! `setPhase` -/
@[simp] theorem setPhase_regs (s : State) (p : Phase) : (s.setPhase p).regs = s.regs := rfl
@[simp] theorem setPhase_phase (s : State) (p : Phase) : (s.setPhase p).phase = p := rfl
@[simp] theorem setPhase_ctx (s : State) (p : Phase) : (s.setPhase p).ctx = s.ctx := rfl
@[simp] theorem setPhase_eng (s : State) (p : Phase) : (s.setPhase p).eng = s.eng := rfl
@[simp] theorem setPhase_mem (s : State) (p : Phase) : (s.setPhase p).mem = s.mem := rfl
@[simp] theorem setPhase_env (s : State) (p : Phase) : (s.setPhase p).env = s.env := rfl

/-! `setEng` -/
@[simp] theorem setEng_regs (s : State) (e : Engine) : (s.setEng e).regs = s.regs := rfl
@[simp] theorem setEng_phase (s : State) (e : Engine) : (s.setEng e).phase = s.phase := rfl
@[simp] theorem setEng_ctx (s : State) (e : Engine) : (s.setEng e).ctx = s.ctx := rfl
@[simp] theorem setEng_eng (s : State) (e : Engine) : (s.setEng e).eng = e := rfl
@[simp] theorem setEng_mem (s : State) (e : Engine) : (s.setEng e).mem = s.mem := rfl
@[simp] theorem setEng_env (s : State) (e : Engine) : (s.setEng e).env = s.env := rfl

/-! `setWriter` -/
@[simp] theorem setWriter_regs (s : State) (w : Writer) : (s.setWriter w).regs = s.regs := rfl
@[simp] theorem setWriter_phase (s : State) (w : Writer) : (s.setWriter w).phase = s.phase := rfl
@[simp] theorem setWriter_ctx (s : State) (w : Writer) : (s.setWriter w).ctx = s.ctx := rfl
@[simp] theorem setWriter_eng (s : State) (w : Writer) : (s.setWriter w).eng = { s.eng with w := w } := rfl
@[simp] theorem setWriter_mem (s : State) (w : Writer) : (s.setWriter w).mem = s.mem := rfl
@[simp] theorem setWriter_env (s : State) (w : Writer) : (s.setWriter w).env = s.env := rfl

/-! `setReader` -/
@[simp] theorem setReader_regs (s : State) (r : Reader) : (s.setReader r).regs = s.regs := rfl
@[simp] theorem setReader_phase (s : State) (r : Reader) : (s.setReader r).phase = s.phase := rfl
@[simp] theorem setReader_ctx (s : State) (r : Reader) : (s.setReader r).ctx = s.ctx := rfl
@[simp] theorem setReader_eng (s : State) (r : Reader) : (s.setReader r).eng = { s.eng with r := r } := rfl
@[simp] theorem setReader_mem (s : State) (r : Reader) : (s.setReader r).mem = s.mem := rfl
@[simp] theorem setReader_env (s : State) (r : Reader) : (s.setReader r).env = s.env := rfl

/-! `setK` -/
@[simp] theorem setK_regs (s : State) (v : Word) : (s.setK v).regs = s.regs := rfl
@[simp] theorem setK_phase (s : State) (v : Word) : (s.setK v).phase = s.phase := rfl
@[simp] theorem setK_ctx (s : State) (v : Word) : (s.setK v).ctx = s.ctx := rfl
@[simp] theorem setK_eng (s : State) (v : Word) : (s.setK v).eng = { s.eng with k := v } := rfl
@[simp] theorem setK_mem (s : State) (v : Word) : (s.setK v).mem = s.mem := rfl
@[simp] theorem setK_env (s : State) (v : Word) : (s.setK v).env = s.env := rfl

/-! `setSym` -/
@[simp] theorem setSym_regs (s : State) (v : Word) : (s.setSym v).regs = s.regs := rfl
@[simp] theorem setSym_phase (s : State) (v : Word) : (s.setSym v).phase = s.phase := rfl
@[simp] theorem setSym_ctx (s : State) (v : Word) : (s.setSym v).ctx = s.ctx := rfl
@[simp] theorem setSym_eng (s : State) (v : Word) : (s.setSym v).eng = { s.eng with sym := v } := rfl
@[simp] theorem setSym_mem (s : State) (v : Word) : (s.setSym v).mem = s.mem := rfl
@[simp] theorem setSym_env (s : State) (v : Word) : (s.setSym v).env = s.env := rfl

/-! `setSymCount` -/
@[simp] theorem setSymCount_regs (s : State) (v : Word) : (s.setSymCount v).regs = s.regs := rfl
@[simp] theorem setSymCount_phase (s : State) (v : Word) : (s.setSymCount v).phase = s.phase := rfl
@[simp] theorem setSymCount_ctx (s : State) (v : Word) : (s.setSymCount v).ctx = s.ctx := rfl
@[simp] theorem setSymCount_eng (s : State) (v : Word) : (s.setSymCount v).eng = { s.eng with symCount := v } := rfl
@[simp] theorem setSymCount_mem (s : State) (v : Word) : (s.setSymCount v).mem = s.mem := rfl
@[simp] theorem setSymCount_env (s : State) (v : Word) : (s.setSymCount v).env = s.env := rfl

/-! `setMem` -/
@[simp] theorem setMem_regs (s : State) (m : Memory) : (s.setMem m).regs = s.regs := rfl
@[simp] theorem setMem_phase (s : State) (m : Memory) : (s.setMem m).phase = s.phase := rfl
@[simp] theorem setMem_ctx (s : State) (m : Memory) : (s.setMem m).ctx = s.ctx := rfl
@[simp] theorem setMem_eng (s : State) (m : Memory) : (s.setMem m).eng = s.eng := rfl
@[simp] theorem setMem_mem (s : State) (m : Memory) : (s.setMem m).mem = m := rfl
@[simp] theorem setMem_env (s : State) (m : Memory) : (s.setMem m).env = s.env := rfl

/-! `setInputs` -/
@[simp] theorem setInputs_regs (s : State) (l : List Input) : (s.setInputs l).regs = s.regs := rfl
@[simp] theorem setInputs_phase (s : State) (l : List Input) : (s.setInputs l).phase = s.phase := rfl
@[simp] theorem setInputs_ctx (s : State) (l : List Input) : (s.setInputs l).ctx = s.ctx := rfl
@[simp] theorem setInputs_eng (s : State) (l : List Input) : (s.setInputs l).eng = s.eng := rfl
@[simp] theorem setInputs_mem (s : State) (l : List Input) : (s.setInputs l).mem = s.mem := rfl
@[simp] theorem setInputs_env (s : State) (l : List Input) : (s.setInputs l).env = { s.env with inputs := l } := rfl

/-! `respond` -/
@[simp] theorem respond_regs (s : State) (r : HostResp) : (s.respond r).regs = s.regs := rfl
@[simp] theorem respond_phase (s : State) (r : HostResp) : (s.respond r).phase = s.phase := rfl
@[simp] theorem respond_ctx (s : State) (r : HostResp) : (s.respond r).ctx = s.ctx := rfl
@[simp] theorem respond_eng (s : State) (r : HostResp) : (s.respond r).eng = s.eng := rfl
@[simp] theorem respond_mem (s : State) (r : HostResp) : (s.respond r).mem = s.mem := rfl
@[simp] theorem respond_env (s : State) (r : HostResp) : (s.respond r).env = { s.env with resp := some r } := rfl

/-! `drawn` -/
@[simp] theorem drawn_regs (s : State) : (s.drawn).regs = s.regs := rfl
@[simp] theorem drawn_phase (s : State) : (s.drawn).phase = s.phase := rfl
@[simp] theorem drawn_ctx (s : State) : (s.drawn).ctx = s.ctx := rfl
@[simp] theorem drawn_eng (s : State) : (s.drawn).eng = s.eng := rfl
@[simp] theorem drawn_mem (s : State) : (s.drawn).mem = s.mem := rfl
@[simp] theorem drawn_env (s : State) : (s.drawn).env = { s.env with draws := s.env.draws + 1 } := rfl

end State

/-! `issued` -/
@[simp] theorem issued_regs (s : State) : (issued s).regs = { s.regs with status := s.regs.status.issued } := rfl
@[simp] theorem issued_phase (s : State) : (issued s).phase = s.phase := rfl
@[simp] theorem issued_ctx (s : State) : (issued s).ctx = s.ctx := rfl
@[simp] theorem issued_eng (s : State) : (issued s).eng = s.eng := rfl
@[simp] theorem issued_mem (s : State) : (issued s).mem = s.mem := rfl
@[simp] theorem issued_env (s : State) : (issued s).env = s.env := rfl

/-! `dropCommand` -/
@[simp] theorem dropCommand_regs (s : State) :
    (dropCommand s).regs = { s.regs with status := s.regs.status.overrun } := rfl
@[simp] theorem dropCommand_phase (s : State) : (dropCommand s).phase = s.phase := rfl
@[simp] theorem dropCommand_ctx (s : State) : (dropCommand s).ctx = s.ctx := rfl
@[simp] theorem dropCommand_eng (s : State) : (dropCommand s).eng = s.eng := rfl
@[simp] theorem dropCommand_mem (s : State) : (dropCommand s).mem = s.mem := rfl
@[simp] theorem dropCommand_env (s : State) : (dropCommand s).env = s.env := rfl

/-! `complete` -/
@[simp] theorem complete_regs (n : Word) (s : State) :
    (complete n s).regs = { s.regs with resultLen := n, status := s.regs.status.completed } := rfl
@[simp] theorem complete_phase (n : Word) (s : State) : (complete n s).phase = .idle := rfl
@[simp] theorem complete_ctx (n : Word) (s : State) : (complete n s).ctx = s.ctx := rfl
@[simp] theorem complete_eng (n : Word) (s : State) : (complete n s).eng = s.eng := rfl
@[simp] theorem complete_mem (n : Word) (s : State) : (complete n s).mem = s.mem := rfl
@[simp] theorem complete_env (n : Word) (s : State) : (complete n s).env = s.env := rfl

/-! `errorEntry` -/
@[simp] theorem errorEntry_regs (c : ErrCode) (v : Word) (s : State) :
    (errorEntry c v s).regs = { s.regs with errCode := c, errInfo := v, resultLen := 0, status := s.regs.status.errored } := rfl
@[simp] theorem errorEntry_phase (c : ErrCode) (v : Word) (s : State) : (errorEntry c v s).phase = .idle := rfl
@[simp] theorem errorEntry_ctx (c : ErrCode) (v : Word) (s : State) : (errorEntry c v s).ctx = s.ctx := rfl
@[simp] theorem errorEntry_eng (c : ErrCode) (v : Word) (s : State) : (errorEntry c v s).eng = s.eng := rfl
@[simp] theorem errorEntry_mem (c : ErrCode) (v : Word) (s : State) : (errorEntry c v s).mem = s.mem := rfl
@[simp] theorem errorEntry_env (c : ErrCode) (v : Word) (s : State) : (errorEntry c v s).env = s.env := rfl

/-! `commandError` -/
@[simp] theorem commandError_regs (c : ErrCode) (v : Word) (s : State) :
    (commandError c v s).regs = { s.regs with errCode := c, errInfo := v, resultLen := 0, status := s.regs.status.errored } := rfl
@[simp] theorem commandError_phase (c : ErrCode) (v : Word) (s : State) : (commandError c v s).phase = .idle := rfl
@[simp] theorem commandError_ctx (c : ErrCode) (v : Word) (s : State) : (commandError c v s).ctx = s.ctx := rfl
@[simp] theorem commandError_eng (c : ErrCode) (v : Word) (s : State) : (commandError c v s).eng = s.eng := rfl
@[simp] theorem commandError_mem (c : ErrCode) (v : Word) (s : State) :
    (commandError c v s).mem = s.mem.forget s.ctx.dst.toNat s.ctx.cap.toNat (s.env.draws + 1) := rfl
@[simp] theorem commandError_env (c : ErrCode) (v : Word) (s : State) :
    (commandError c v s).env = { s.env with draws := s.env.draws + 1 } := rfl

/-! `accept` -/
@[simp] theorem accept_regs (op : Byte) (p : Phase) (s : State) :
    (accept op p s).regs = { s.regs with errCode := .none, errInfo := 0, resultLen := 0, status := s.regs.status.accepted } := rfl
@[simp] theorem accept_phase (op : Byte) (p : Phase) (s : State) : (accept op p s).phase = p := rfl
@[simp] theorem accept_ctx (op : Byte) (p : Phase) (s : State) :
    (accept op p s).ctx = ⟨op, s.regs.srcAddr, s.regs.srcLen, s.regs.dstAddr, s.regs.dstCap⟩ := rfl
@[simp] theorem accept_eng (op : Byte) (p : Phase) (s : State) : (accept op p s).eng = s.eng := rfl
@[simp] theorem accept_mem (op : Byte) (p : Phase) (s : State) : (accept op p s).mem = s.mem := rfl
@[simp] theorem accept_env (op : Byte) (p : Phase) (s : State) :
    (accept op p s).env = { s.env with latencyLeft := max 1 (Config.latency s.env.draws), draws := s.env.draws + 1 } := rfl

/-! `forgetBytes` -/
@[simp] theorem forgetBytes_regs (b n : Word) (s : State) : (forgetBytes b n s).regs = s.regs := rfl
@[simp] theorem forgetBytes_phase (b n : Word) (s : State) : (forgetBytes b n s).phase = s.phase := rfl
@[simp] theorem forgetBytes_ctx (b n : Word) (s : State) : (forgetBytes b n s).ctx = s.ctx := rfl
@[simp] theorem forgetBytes_eng (b n : Word) (s : State) : (forgetBytes b n s).eng = s.eng := rfl
@[simp] theorem forgetBytes_mem (b n : Word) (s : State) :
    (forgetBytes b n s).mem = s.mem.forget b.toNat n.toNat (s.env.draws + 1) := rfl
@[simp] theorem forgetBytes_env (b n : Word) (s : State) :
    (forgetBytes b n s).env = { s.env with draws := s.env.draws + 1 } := rfl

/-! `spend` -/
@[simp] theorem spend_regs (s : State) : (spend s).regs = s.regs := rfl
@[simp] theorem spend_phase (s : State) : (spend s).phase = s.phase := rfl
@[simp] theorem spend_ctx (s : State) : (spend s).ctx = s.ctx := rfl
@[simp] theorem spend_eng (s : State) : (spend s).eng = s.eng := rfl
@[simp] theorem spend_mem (s : State) : (spend s).mem = s.mem := rfl
@[simp] theorem spend_env (s : State) : (spend s).env = { s.env with latencyLeft := s.env.latencyLeft - 1 } := rfl

/-! `wInit` -/
@[simp] theorem wInit_regs (s : State) : (wInit s).regs = s.regs := rfl
@[simp] theorem wInit_phase (s : State) : (wInit s).phase = s.phase := rfl
@[simp] theorem wInit_ctx (s : State) : (wInit s).ctx = s.ctx := rfl
@[simp] theorem wInit_eng (s : State) : (wInit s).eng = { s.eng with w := ⟨0, 0, 0⟩ } := rfl
@[simp] theorem wInit_mem (s : State) : (wInit s).mem = s.mem := rfl
@[simp] theorem wInit_env (s : State) : (wInit s).env = s.env := rfl

/-! `rInit` -/
@[simp] theorem rInit_regs (s : State) : (rInit s).regs = s.regs := rfl
@[simp] theorem rInit_phase (s : State) : (rInit s).phase = s.phase := rfl
@[simp] theorem rInit_ctx (s : State) : (rInit s).ctx = s.ctx := rfl
@[simp] theorem rInit_eng (s : State) : (rInit s).eng = { s.eng with r := { s.eng.r with cnt := 0, inPos := 0 } } := rfl
@[simp] theorem rInit_mem (s : State) : (rInit s).mem = s.mem := rfl
@[simp] theorem rInit_env (s : State) : (rInit s).env = s.env := rfl

/-! `allocNode` -/
@[simp] theorem allocNode_regs (s : State) : (allocNode s).regs = s.regs := rfl
@[simp] theorem allocNode_phase (s : State) : (allocNode s).phase = s.phase := rfl
@[simp] theorem allocNode_ctx (s : State) : (allocNode s).ctx = s.ctx := rfl
@[simp] theorem allocNode_eng (s : State) : (allocNode s).eng = { s.eng with nodeCount := s.eng.nodeCount + 1 } := rfl
@[simp] theorem allocNode_mem (s : State) : (allocNode s).mem = s.mem := rfl
@[simp] theorem allocNode_env (s : State) : (allocNode s).env = s.env := rfl

/-! Flags -/
@[simp] theorem Status.issued_busy (t : Status) : t.issued.busy = t.busy := rfl
@[simp] theorem Status.issued_done (t : Status) : t.issued.done = false := rfl
@[simp] theorem Status.issued_err (t : Status) : t.issued.err = t.err := rfl
@[simp] theorem Status.issued_ovr (t : Status) : t.issued.ovr = t.ovr := rfl
@[simp] theorem Status.accepted_busy (t : Status) : t.accepted.busy = true := rfl
@[simp] theorem Status.accepted_done (t : Status) : t.accepted.done = t.done := rfl
@[simp] theorem Status.accepted_err (t : Status) : t.accepted.err = false := rfl
@[simp] theorem Status.accepted_ovr (t : Status) : t.accepted.ovr = t.ovr := rfl
@[simp] theorem Status.completed_busy (t : Status) : t.completed.busy = false := rfl
@[simp] theorem Status.completed_done (t : Status) : t.completed.done = true := rfl
@[simp] theorem Status.completed_err (t : Status) : t.completed.err = t.err := rfl
@[simp] theorem Status.completed_ovr (t : Status) : t.completed.ovr = t.ovr := rfl
@[simp] theorem Status.errored_busy (t : Status) : t.errored.busy = false := rfl
@[simp] theorem Status.errored_done (t : Status) : t.errored.done = false := rfl
@[simp] theorem Status.errored_err (t : Status) : t.errored.err = true := rfl
@[simp] theorem Status.errored_ovr (t : Status) : t.errored.ovr = t.ovr := rfl
@[simp] theorem Status.overrun_busy (t : Status) : t.overrun.busy = t.busy := rfl
@[simp] theorem Status.overrun_done (t : Status) : t.overrun.done = t.done := rfl
@[simp] theorem Status.overrun_err (t : Status) : t.overrun.err = t.err := rfl
@[simp] theorem Status.overrun_ovr (t : Status) : t.overrun.ovr = true := rfl
@[simp] theorem Status.w1c_busy (t : Status) (v : Word) : (t.w1c v).busy = t.busy := rfl
@[simp] theorem Status.w1c_done (t : Status) (v : Word) : (t.w1c v).done = (t.done && !v.getLsbD 1) := rfl
@[simp] theorem Status.w1c_err (t : Status) (v : Word) : (t.w1c v).err = (t.err && !v.getLsbD 2) := rfl
@[simp] theorem Status.w1c_ovr (t : Status) (v : Word) : (t.w1c v).ovr = (t.ovr && !v.getLsbD 3) := rfl

end Sys2Proof.Machine
end

