-- ==== Sys2Proof/Laws/Ops.lean ====
section
/-! SUPPORT. What each shared operation can do, said once: the memory port, PutByte, GetByte, acceptance, completion and
error entry, and how computations end. -/

namespace Sys2Proof.Machine

/-! ### How computations end -/

namespace Res

@[simp] theorem bind_ok {α β : Type} (a : α) (s : State) (f : α → State → Res β) : (Res.ok a s).bind f = f a s := rfl

@[simp] theorem bind_raised {α β : Type} (c : ErrCode) (i : Word) (s : State) (f : α → State → Res β) :
    (Res.raised c i s : Res α).bind f = .raised c i s := rfl

@[simp] theorem bind_stuck {α β : Type} (e : Fault) (f : α → State → Res β) :
    (Res.stuck e : Res α).bind f = .stuck e := rfl

theorem bind_assoc {α β γ : Type} (x : Res α) (f : α → State → Res β) (g : β → State → Res γ) :
    (x.bind f).bind g = x.bind fun a s => (f a s).bind g := by
  cases x <;> rfl

/-- A bind that ends well went through a first part that ended well. -/
theorem bind_eq_ok {α β : Type} {x : Res α} {f : α → State → Res β} {b : β} {t : State} :
    x.bind f = .ok b t ↔ ∃ a s, x = .ok a s ∧ f a s = .ok b t := by
  cases x <;> simp [Res.bind]

/-- A bind raises where its first part does, or where the second does after it. -/
theorem bind_eq_raised {α β : Type} {x : Res α} {f : α → State → Res β} {c : ErrCode} {i : Word} {t : State} :
    x.bind f = .raised c i t ↔ x = .raised c i t ∨ ∃ a s, x = .ok a s ∧ f a s = .raised c i t := by
  cases x <;> simp [Res.bind]

/-- A bind is stuck where its first part is, or where the second is after it. -/
theorem bind_eq_stuck {α β : Type} {x : Res α} {f : α → State → Res β} {e : Fault} :
    x.bind f = .stuck e ↔ x = .stuck e ∨ ∃ a s, x = .ok a s ∧ f a s = .stuck e := by
  cases x <;> simp [Res.bind]

/-- The state a computation leaves, if it leaves one, has the property. -/
def All {α : Type} (P : State → Prop) : Res α → Prop
  | .ok _ s => P s
  | .raised _ _ s => P s
  | .stuck _ => True

@[simp] theorem all_ok {α : Type} (P : State → Prop) (a : α) (s : State) : (Res.ok a s).All P ↔ P s := Iff.rfl

@[simp] theorem all_raised {α : Type} (P : State → Prop) (c : ErrCode) (i : Word) (s : State) :
    (Res.raised c i s : Res α).All P ↔ P s := Iff.rfl

@[simp] theorem all_stuck {α : Type} (P : State → Prop) (e : Fault) : (Res.stuck e : Res α).All P := trivial

theorem all_bind {α β : Type} {P : State → Prop} {x : Res α} {f : α → State → Res β} (hx : x.All P)
    (hf : ∀ a s, P s → (f a s).All P) : (x.bind f).All P := by
  cases x with
  | ok a s => exact hf a s hx
  | raised c i s => exact hx
  | stuck e => trivial

end Res

/-! ### Memory port -/

/-- The next answer is the next settled one, or a free one, and drawing it changes `answers` and `draws` only. -/
theorem nextAnswer_cases (s : State) :
    (∃ x xs, s.env.answers = x :: xs ∧ nextAnswer s = (x, { s with env := { s.env with answers := xs } })) ∨
    (s.env.answers = [] ∧ nextAnswer s = (Config.busAnswer s.env.draws, s.drawn)) := by
  unfold nextAnswer
  split
  · next x xs h => exact .inl ⟨x, xs, h, rfl⟩
  · next h => exact .inr ⟨h, rfl⟩

theorem nextAnswer_cons {s : State} {x : BusAnswer} {xs : List BusAnswer} (h : s.env.answers = x :: xs) :
    nextAnswer s = (x, { s with env := { s.env with answers := xs } }) := by
  simp [nextAnswer, h]

@[simp] theorem nextAnswer_regs (s : State) : (nextAnswer s).2.regs = s.regs := by unfold nextAnswer; split <;> rfl
@[simp] theorem nextAnswer_phase (s : State) : (nextAnswer s).2.phase = s.phase := by unfold nextAnswer; split <;> rfl
@[simp] theorem nextAnswer_ctx (s : State) : (nextAnswer s).2.ctx = s.ctx := by unfold nextAnswer; split <;> rfl
@[simp] theorem nextAnswer_eng (s : State) : (nextAnswer s).2.eng = s.eng := by unfold nextAnswer; split <;> rfl
@[simp] theorem nextAnswer_mem (s : State) : (nextAnswer s).2.mem = s.mem := by unfold nextAnswer; split <;> rfl
@[simp] theorem nextAnswer_inputs (s : State) : (nextAnswer s).2.env.inputs = s.env.inputs := by
  unfold nextAnswer; split <;> rfl
@[simp] theorem nextAnswer_resp (s : State) : (nextAnswer s).2.env.resp = s.env.resp := by
  unfold nextAnswer; split <;> rfl
@[simp] theorem nextAnswer_latencyLeft (s : State) : (nextAnswer s).2.env.latencyLeft = s.env.latencyLeft := by
  unfold nextAnswer; split <;> rfl

/-- MemRead gives the byte there or `BusErr`, and has no other effect on the block (R62). -/
theorem memRead_eq (a : Word) (s : State) :
    memRead a s =
      (if (nextAnswer s).1 = .ok then some (s.mem.read a.toNat) else none, (nextAnswer s).2) := by
  unfold memRead
  have hm := nextAnswer_mem s
  cases h : nextAnswer s with
  | mk x t => cases x <;> simp_all

/-- MemWrite stores the byte on `Ok`, and leaves it unspecified on `BusErr` (R63). -/
theorem memWrite_eq (a : Word) (v : Byte) (s : State) :
    memWrite a v s =
      if (nextAnswer s).1 = .ok then (true, (nextAnswer s).2.setMem (s.mem.write a.toNat v))
      else (false, forgetBytes a 1 (nextAnswer s).2) := by
  unfold memWrite
  have hm := nextAnswer_mem s
  cases h : nextAnswer s with
  | mk x t => cases x <;> simp_all

/-- GetByte (R129): the source byte, or IO_READ with its offset. -/
theorem getByte_eq (i : Word) (s : State) :
    getByte i s =
      if (nextAnswer s).1 = .ok then .ok (s.mem.read (s.ctx.src + i).toNat) (nextAnswer s).2
      else .raised .ioRead i (nextAnswer s).2 := by
  unfold getByte
  rw [memRead_eq]
  split <;> simp_all

/-- GetByte when the next settled answer is `Ok`. -/
theorem getByte_ok {i : Word} {s : State} {xs : List BusAnswer} (h : s.env.answers = .ok :: xs) :
    getByte i s =
      .ok (s.mem.read (s.ctx.src + i).toNat) { s with env := { s.env with answers := xs } } := by
  simp [getByte_eq, nextAnswer_cons h]

/-- GetByte when the next settled answer is `BusErr`. -/
theorem getByte_busErr {i : Word} {s : State} {xs : List BusAnswer} (h : s.env.answers = .busErr :: xs) :
    getByte i s = .raised .ioRead i { s with env := { s.env with answers := xs } } := by
  simp [getByte_eq, nextAnswer_cons h]

/-- PutByte (R122): IO_DST_FULL on a full window with nothing changed, IO_WRITE on `BusErr`, and otherwise the byte
stored and `out_pos` one more. -/
theorem putByte_eq (v : Byte) (s : State) :
    putByte v s =
      if s.eng.w.outPos = s.ctx.cap then .raised .ioDstFull s.eng.w.outPos s
      else if (nextAnswer s).1 = .ok then
        .ok () (((nextAnswer s).2.setMem (s.mem.write (s.ctx.dst + s.eng.w.outPos).toNat v)).setWriter
          { s.eng.w with outPos := s.eng.w.outPos + 1 })
      else .raised .ioWrite s.eng.w.outPos (forgetBytes (s.ctx.dst + s.eng.w.outPos) 1 (nextAnswer s).2) := by
  unfold putByte
  split
  · rfl
  · rw [memWrite_eq]
    by_cases h : (nextAnswer s).1 = .ok <;> simp [h]

/-- PutByte into a window with room when the next settled answer is `Ok`. -/
theorem putByte_ok {v : Byte} {s : State} {xs : List BusAnswer} (hc : s.eng.w.outPos ≠ s.ctx.cap)
    (h : s.env.answers = .ok :: xs) :
    putByte v s =
      .ok () { s with
        mem := s.mem.write (s.ctx.dst + s.eng.w.outPos).toNat v
        eng := { s.eng with w := { s.eng.w with outPos := s.eng.w.outPos + 1 } }
        env := { s.env with answers := xs } } := by
  simp [putByte_eq, hc, nextAnswer_cons h, State.setMem, State.setWriter]

/-! ### Argument checks -/

/-- No check of R222 fails exactly on well-formed arguments. -/
theorem argCheck_eq_none_iff (a : CmdArgs) : argCheck a = none ↔ a.wf = true := by
  unfold argCheck CmdArgs.wf CmdArgs.srcInRange CmdArgs.dstInRange CmdArgs.overlap Config.addrSpace
  simp only [gt_iff_lt]
  split
  · simp; omega
  · split
    · simp; omega
    · split
      · simp; omega
      · simp; omega

/-- The window of well-formed arguments does not pass the end of memory. -/
theorem CmdArgs.wf_dst {a : CmdArgs} (h : a.wf = true) : a.dst.toNat + a.cap.toNat ≤ 2 ^ 32 := by
  simp only [CmdArgs.wf, Bool.and_eq_true, CmdArgs.dstInRange, Config.addrSpace] at h
  exact of_decide_eq_true h.1.2

/-- The source buffer of well-formed arguments does not pass the end of memory. -/
theorem CmdArgs.wf_src {a : CmdArgs} (h : a.wf = true) : a.src.toNat + a.len.toNat ≤ 2 ^ 32 := by
  simp only [CmdArgs.wf, Bool.and_eq_true, CmdArgs.srcInRange, Config.addrSpace] at h
  exact of_decide_eq_true h.1.1

/-- The buffers of well-formed arguments share no byte. -/
theorem CmdArgs.wf_disjoint {a : CmdArgs} (h : a.wf = true) {x : Nat}
    (hs : a.src.toNat ≤ x ∧ x < a.src.toNat + a.len.toNat) (hd : a.dst.toNat ≤ x ∧ x < a.dst.toNat + a.cap.toNat) :
    False := by
  simp [CmdArgs.wf, CmdArgs.overlap] at h
  omega

/-- `regAccessOk` is R21's condition on the access. -/
theorem regAccessOk_iff (off : BitVec 6) (width : Nat) :
    regAccessOk off width = true ↔ width = 32 ∧ off.toNat % 4 = 0 := by
  have h : ∀ o : BitVec 6, (o.extractLsb' 0 2 == 0#2) = decide (o.toNat % 4 = 0) := by decide
  simp [regAccessOk, h off]

end Sys2Proof.Machine
end

