-- ==== Sys2Proof/Laws/Commands.lean ====
section
/-! SUPPORT. What each meaning and each agent's move can do, said once: the issue of a command, an engine step, and how the
phases of a command lead to its end. -/

namespace Sys2Proof.Machine

/-- The phase table of a command. -/
def commandPhase : Instr → State → Res Unit
  | .compress => compressPhase
  | .decompress => decompressPhase
  | .dumpbits => dumpbitsPhase

/-- The meaning of a command while the block is idle is its issue (spec/45_commands.md R221). -/
theorem exec_idle {i : Instr} {s : State} (h : s.regs.status.busy = false) :
    exec i s = .next (issue i.op (Phase.first i) s) := by
  cases i <;> simp [exec, execCompress, execDecompress, execDumpbits, h]

/-- The meaning of a command while the block is busy is an engine step of it. -/
theorem exec_busy {i : Instr} {s : State} (h : s.regs.status.busy = true) :
    exec i s = engineStep (commandPhase i) s := by
  cases i <;> simp [exec, execCompress, execDecompress, execDumpbits, commandPhase, h]

/-- The issue of a legal word is a rejection by the first failing check or an acceptance (R221 to R223). -/
theorem issue_cases (op : Byte) (first : Phase) (s : State) :
    (∃ c v, argCheck s.regs.args = some (c, v) ∧ issue op first s = errorEntry c v (issued s)) ∨
    (s.regs.args.wf = true ∧ issue op first s = accept op first (issued s)) := by
  unfold issue
  cases h : argCheck s.regs.args with
  | none => exact .inr ⟨(argCheck_eq_none_iff _).1 h, rfl⟩
  | some p => exact .inl ⟨p.1, p.2, rfl, rfl⟩

/-- A rejection has one of the two argument codes (R222). -/
theorem argCheck_some_code {a : CmdArgs} {c : ErrCode} {v : Word} (h : argCheck a = some (c, v)) :
    c = .argRange ∨ c = .argOverlap := by
  unfold argCheck at h
  simp only at h
  split at h
  · simp at h; exact .inl h.1.symm
  · split at h
    · simp at h; exact .inl h.1.symm
    · split at h
      · simp at h; exact .inr h.1.symm
      · simp at h

/-! ### Phases in order -/

/-- States that a phase table's phases lead to, the command not having ended. -/
inductive Reaches (phase : State → Res Unit) : State → State → Prop where
  | refl (s : State) : Reaches phase s s
  | step {s s' t : State} : phase s = .ok () s' → s'.phase ≠ .idle → Reaches phase s' t → Reaches phase s t

/-- What the phases preserve while the command has not ended holds where they lead. -/
theorem Reaches.preserves {phase : State → Res Unit} {P : State → Prop} {s t : State} (h : Reaches phase s t)
    (hp : ∀ u u', P u → phase u = .ok () u' → u'.phase ≠ .idle → P u') (hs : P s) : P t := by
  induction h with
  | refl => exact hs
  | step h1 h2 _ ih => exact ih (hp _ _ hs h1 h2)

/-- The last engine step of a command ends in the completion or in the error of a phase its phases lead to. -/
theorem finish_next {phase : State → Res Unit} {n : Nat} {s t : State} (h : finish phase n s = .next t) :
    ∃ u, Reaches phase s u ∧
      ((phase u = .ok () t ∧ t.phase = .idle) ∨
        ∃ c v w, phase u = .raised c v w ∧ t = commandError c v w) := by
  induction n generalizing s with
  | zero => simp [finish] at h
  | succ n ih =>
    simp only [finish] at h
    split at h
    · next a s' hs =>
      split at h
      · next hi =>
        simp only [Host.Outcome.next.injEq] at h
        exact ⟨s, .refl s, .inl ⟨h ▸ hs, h ▸ hi⟩⟩
      · next hi =>
        obtain ⟨u, hu, ht⟩ := ih h
        exact ⟨u, .step hs hi hu, ht⟩
    · next c v s' hs =>
      simp only [Host.Outcome.next.injEq] at h
      exact ⟨s, .refl s, .inr ⟨c, v, s', hs, h.symm⟩⟩
    · simp at h

/-- An engine step that is not the last runs one phase that does not end the command, or spends the step alone. -/
theorem proceed_next {phase : State → Res Unit} {s t : State} (h : proceed phase s = .next t) :
    t = spend s ∨ ∃ s', phase s = .ok () s' ∧ s'.phase ≠ .idle ∧ t = spend s' := by
  unfold proceed at h
  split at h
  · next a s' hs =>
    split at h
    · simp only [Host.Outcome.next.injEq] at h; exact .inl h.symm
    · next hi => simp only [Host.Outcome.next.injEq] at h; exact .inr ⟨s', hs, hi, h.symm⟩
  · simp only [Host.Outcome.next.injEq] at h; exact .inl h.symm
  · simp at h

/-- What an engine step can answer next (spec/70_reset_and_hazards.md R288). -/
theorem engineStep_next {phase : State → Res Unit} {s t : State} (h : engineStep phase s = .next t) :
    (s.env.latencyLeft ≤ 1 ∧ ∃ u, Reaches phase s u ∧
      ((phase u = .ok () t ∧ t.phase = .idle) ∨ ∃ c v w, phase u = .raised c v w ∧ t = commandError c v w)) ∨
    (1 < s.env.latencyLeft ∧
      (t = spend s ∨ ∃ s', phase s = .ok () s' ∧ s'.phase ≠ .idle ∧ t = spend s')) := by
  unfold engineStep at h
  split at h
  · next hl => exact .inl ⟨hl, finish_next h⟩
  · next hl => exact .inr ⟨Nat.lt_of_not_le hl, proceed_next h⟩

/-! ### Moves of the agents -/

/-- A move of the engine on an idle block changes nothing (spec/60_exceptions.md R262). -/
theorem engineMove_idle {s : State} (h : s.regs.status.busy = false) : engineMove s = .next s := by
  simp [engineMove, h]

/-- A move of the engine on a busy block runs the command in `ctx`. -/
theorem engineMove_busy {s : State} {i : Instr} (h : s.regs.status.busy = true) (hi : decodeOp s.ctx.op = some i) :
    engineMove s = exec i s := by
  simp [engineMove, h, hi]

/-- The opcode of a command names it. -/
@[simp] theorem decodeOp_op (i : Instr) : decodeOp i.op = some i := by cases i <;> rfl

/-- A CMD write does one of three things: it is dropped, it runs the command it decodes to, or it is rejected. -/
theorem cmdWrite_cases (w : Word) (s : State) :
    (s.regs.status.busy = true ∧ cmdWrite w s = .next (dropCommand s)) ∨
    (s.regs.status.busy = false ∧ ∃ i, decodeCmd w = .ok i ∧ cmdWrite w s = .next (issue i.op (Phase.first i) s)) ∨
    (s.regs.status.busy = false ∧ ∃ e, decodeCmd w = .error e ∧
      cmdWrite w s = .next (errorEntry (illegalCode e) w (issued s))) := by
  unfold cmdWrite
  cases hb : s.regs.status.busy with
  | true => exact .inl ⟨rfl, rfl⟩
  | false =>
    cases hd : decodeCmd w with
    | ok i => exact .inr (.inl ⟨rfl, i, rfl, exec_idle hb⟩)
    | error e => exact .inr (.inr ⟨rfl, e, rfl, rfl⟩)

end Sys2Proof.Machine
end

