-- ==== Sys2Proof/Laws/Frame.lean ====
section
/-! SUPPORT. The frame of a running command, said once for every operation of the engine: what has been touched since a
state `s` is the internal state, the settled answers and draws, and bytes of the destination window. -/

namespace Sys2Proof.Machine

/-- What the engine's operations keep between a state `s` of a running command and a later state `t` of it. -/
structure Tracks (s t : State) : Prop where
  regs : t.regs = s.regs
  phase : t.phase = s.phase
  ctx : t.ctx = s.ctx
  inputs : t.env.inputs = s.env.inputs
  resp : t.env.resp = s.env.resp
  latencyLeft : t.env.latencyLeft = s.env.latencyLeft
  window : s.ctx.dst.toNat + s.ctx.cap.toNat ≤ 2 ^ 32
  writer : t.eng.w.outPos.toNat ≤ s.ctx.cap.toNat
  memWf : t.mem.wf
  outside : SameOutside s.ctx.dst.toNat s.ctx.cap.toNat s.mem t.mem

namespace Tracks

/-- A state tracks itself when its window fits and its writer and memory are in order. -/
theorem start {s : State} (hw : s.ctx.dst.toNat + s.ctx.cap.toNat ≤ 2 ^ 32) (hp : WriterOk s) (hm : s.mem.wf) :
    Tracks s s :=
  ⟨rfl, rfl, rfl, rfl, rfl, rfl, hw, hp, hm, fun _ _ => rfl⟩

variable {s t : State}

/-- An update of the internal state that leaves the writer alone. -/
theorem setEng (h : Tracks s t) (e : Engine) (he : e.w.outPos.toNat ≤ s.ctx.cap.toNat) : Tracks s (t.setEng e) :=
  ⟨h.regs, h.phase, h.ctx, h.inputs, h.resp, h.latencyLeft, h.window, he, h.memWf, h.outside⟩

theorem setReader (h : Tracks s t) (r : Reader) : Tracks s (t.setReader r) :=
  ⟨h.regs, h.phase, h.ctx, h.inputs, h.resp, h.latencyLeft, h.window, h.writer, h.memWf, h.outside⟩

theorem setK (h : Tracks s t) (v : Word) : Tracks s (t.setK v) :=
  ⟨h.regs, h.phase, h.ctx, h.inputs, h.resp, h.latencyLeft, h.window, h.writer, h.memWf, h.outside⟩

theorem setSym (h : Tracks s t) (v : Word) : Tracks s (t.setSym v) :=
  ⟨h.regs, h.phase, h.ctx, h.inputs, h.resp, h.latencyLeft, h.window, h.writer, h.memWf, h.outside⟩

theorem setSymCount (h : Tracks s t) (v : Word) : Tracks s (t.setSymCount v) :=
  ⟨h.regs, h.phase, h.ctx, h.inputs, h.resp, h.latencyLeft, h.window, h.writer, h.memWf, h.outside⟩

theorem setWriter (h : Tracks s t) (w : Writer) (hw : w.outPos.toNat ≤ s.ctx.cap.toNat) : Tracks s (t.setWriter w) :=
  ⟨h.regs, h.phase, h.ctx, h.inputs, h.resp, h.latencyLeft, h.window, hw, h.memWf, h.outside⟩

theorem wInit (h : Tracks s t) : Tracks s (wInit t) := h.setWriter _ (by simp)

theorem rInit (h : Tracks s t) : Tracks s (rInit t) := h.setReader _

theorem nextAnswer (h : Tracks s t) : Tracks s (nextAnswer t).2 :=
  ⟨by simp [h.regs], by simp [h.phase], by simp [h.ctx], by simp [h.inputs], by simp [h.resp], by simp [h.latencyLeft],
    h.window, by simp [h.writer], by rw [nextAnswer_mem]; exact h.memWf,
    by rw [nextAnswer_mem]; exact h.outside⟩

/-- A store inside the window. -/
theorem setMem_write (h : Tracks s t) {a : Nat} (v : Byte)
    (ha : s.ctx.dst.toNat ≤ a ∧ a < s.ctx.dst.toNat + s.ctx.cap.toNat) : Tracks s (t.setMem (t.mem.write a v)) :=
  ⟨h.regs, h.phase, h.ctx, h.inputs, h.resp, h.latencyLeft, h.window, h.writer,
    Memory.write_wf h.memWf (by have := h.window; simp only [Config.addrSpace]; omega) v,
    fun x hx => by
      have hne : a ≠ x := by rintro rfl; exact hx ha
      rw [State.setMem_mem, Memory.read_write_ne _ _ hne]
      exact h.outside x hx⟩

/-- A stretch inside the window becomes unspecified. -/
theorem forgetBytes (h : Tracks s t) (base len : Word) (hb : s.ctx.dst.toNat ≤ base.toNat)
    (hl : base.toNat + len.toNat ≤ s.ctx.dst.toNat + s.ctx.cap.toNat) : Tracks s (forgetBytes base len t) :=
  ⟨h.regs, h.phase, h.ctx, h.inputs, h.resp, h.latencyLeft, h.window, h.writer,
    Memory.forget_wf h.memWf _ _ _,
    fun x hx => by
      rw [forgetBytes_mem, Memory.read_forget_outside _ (by omega)]
      exact h.outside x hx⟩

/-! ### Operations of the engine -/

theorem getByte (h : Tracks s t) (i : Word) : (getByte i t).All (Tracks s) := by
  rw [getByte_eq]
  split <;> exact h.nextAnswer

theorem putByte (h : Tracks s t) (v : Byte) : (putByte v t).All (Tracks s) := by
  rw [putByte_eq]
  have hw := h.window
  have ho := h.writer
  have hc : t.ctx = s.ctx := h.ctx
  split
  · exact h
  · next hne =>
    rw [hc] at hne
    have hlt : t.eng.w.outPos.toNat < s.ctx.cap.toNat :=
      Nat.lt_of_le_of_ne ho fun e => hne (BitVec.eq_of_toNat_eq e)
    have hcap := s.ctx.cap.isLt
    have haddr : (t.ctx.dst + t.eng.w.outPos).toNat = s.ctx.dst.toNat + t.eng.w.outPos.toNat := by
      rw [hc, BitVec.toNat_add, Nat.mod_eq_of_lt (by omega)]
    split
    · have h1 := (h.nextAnswer).setMem_write (a := (t.ctx.dst + t.eng.w.outPos).toNat) v (by omega)
      rw [nextAnswer_mem] at h1
      refine h1.setWriter _ ?_
      rw [BitVec.toNat_add, Nat.mod_eq_of_lt (by simp; omega)]
      simp
      omega
    · refine h.nextAnswer.forgetBytes _ _ (by omega) ?_
      rw [haddr]
      simp
      omega

theorem putAcc (h : Tracks s t) : (putAcc t).All (Tracks s) :=
  Res.all_bind (h.putByte _) fun _ _ h' => h'.setWriter _ h'.writer

theorem writeBit (h : Tracks s t) (b : Bool) : (writeBit b t).All (Tracks s) := by
  unfold Machine.writeBit
  split
  · exact putAcc (h.setWriter _ h.writer)
  · exact (h.setWriter _ h.writer).setWriter _ h.writer

theorem writeString (h : Tracks s t) (bs : Bits) : (writeString bs t).All (Tracks s) := by
  induction bs generalizing t with
  | nil => exact h
  | cons b bs ih => exact Res.all_bind (h.writeBit b) fun _ _ h' => ih h'

theorem writeBits (h : Tracks s t) (v n : Nat) : (writeBits v n t).All (Tracks s) := h.writeString _

theorem flush (h : Tracks s t) : (flush t).All (Tracks s) := by
  unfold Machine.flush
  split
  · exact h
  · exact h.putAcc

theorem readBit (h : Tracks s t) : (readBit t).All (Tracks s) := by
  unfold Machine.readBit
  split
  · split
    · exact h
    · rw [memRead_eq]
      by_cases ha : (Machine.nextAnswer t).1 = .ok
      · simp only [ha, if_true]
        exact (h.nextAnswer.setReader _).setReader _
      · simp only [ha, if_false]
        exact h.nextAnswer
  · exact h.setReader _

theorem readBitsFrom (h : Tracks s t) (n : Nat) (v : Word) : (readBitsFrom n v t).All (Tracks s) := by
  induction n generalizing v t with
  | zero => exact h
  | succ n ih =>
    refine Res.all_bind h.readBit fun b u hu => ?_
    cases b with
    | none => exact hu
    | some b => exact ih hu _

theorem readBits (h : Tracks s t) (n : Nat) : (readBits n t).All (Tracks s) := h.readBitsFrom n 0

theorem countLoop (h : Tracks s t) (n : Nat) : (countLoop n t).All (Tracks s) := by
  induction n generalizing t with
  | zero => exact h
  | succ n ih => exact Res.all_bind (h.getByte _) fun _ _ h' => ih (h'.setEng _ h'.writer)

theorem serNode (h : Tracks s t) (n : Nat) (i : BitVec 9) : (serNode n i t).All (Tracks s) := by
  induction n generalizing i t with
  | zero => trivial
  | succ n ih =>
    unfold Machine.serNode
    split
    · trivial
    · split
      · exact Res.all_bind (h.writeBit _) fun _ _ h' => h'.writeBits _ _
      · exact Res.all_bind (Res.all_bind (h.writeBit _) fun _ _ h' => ih h' _) fun _ _ h' => ih h' _

theorem updNode_w (e : Engine) (i : Nat) (f : Node → Node) : (e.updNode i f).w = e.w := by
  unfold Engine.updNode
  split <;> rfl

theorem desNode (h : Tracks s t) (n : Nat) (b : Bool) : (desNode n b t).All (Tracks s) := by
  induction n generalizing b t with
  | zero => trivial
  | succ n ih =>
    unfold Machine.desNode
    refine Res.all_bind h.readBit fun x u hu => ?_
    cases x with
    | none => exact hu
    | some x =>
      dsimp only
      split
      · exact hu
      · split
        · exact hu
        · have ha : Tracks s (allocNode u) := hu.setEng _ hu.writer
          split
          · refine Res.all_bind (ha.readBits _) fun v w hw => ?_
            cases v with
            | none => exact hw
            | some v => exact hw.setEng _ (by rw [Engine.setLeaf, updNode_w]; exact hw.writer)
          · refine Res.all_bind (ih ha _) fun l w hw => Res.all_bind (ih hw _) fun r w' hw' => ?_
            exact hw'.setEng _ (by rw [Engine.setInternal, updNode_w]; exact hw'.writer)

theorem encodeLoop (h : Tracks s t) (n : Nat) : (encodeLoop n t).All (Tracks s) := by
  induction n generalizing t with
  | zero => exact h
  | succ n ih =>
    refine Res.all_bind (h.getByte _) fun b u hu => ?_
    split
    · exact Res.all_bind (hu.writeString _) fun _ _ h' => ih (h'.setK _)
    · exact hu

theorem walkArena (h : Tracks s t) (n : Nat) (i : BitVec 9) : (walkArena n i t).All (Tracks s) := by
  induction n generalizing i t with
  | zero => trivial
  | succ n ih =>
    unfold Machine.walkArena
    split
    · trivial
    · split
      · exact h
      · refine Res.all_bind h.readBit fun b u hu => ?_
        cases b with
        | none => exact hu
        | some b => exact ih hu _

theorem decodeLoop (h : Tracks s t) (n : Nat) : (decodeLoop n t).All (Tracks s) := by
  induction n generalizing t with
  | zero => exact h
  | succ n ih =>
    refine Res.all_bind (h.walkArena _ _) fun v u hu => ?_
    cases v with
    | none => exact hu
    | some v => exact Res.all_bind (hu.putByte _) fun _ _ h' => ih (h'.setSym _)

theorem dumpText (h : Tracks s t) (bs : Bits) : (dumpText bs t).All (Tracks s) := by
  induction bs generalizing t with
  | nil => exact h
  | cons b bs ih => exact Res.all_bind (h.putByte _) fun _ _ h' => ih h'

theorem dumpLoop (h : Tracks s t) (n : Nat) : (dumpLoop n t).All (Tracks s) := by
  induction n generalizing t with
  | zero => exact h
  | succ n ih =>
    exact Res.all_bind (h.getByte _) fun _ _ hu => Res.all_bind (hu.dumpText _) fun _ _ h' => ih (h'.setK _)

end Tracks

end Sys2Proof.Machine
end

