-- ==== Sys2Proof/Laws/PerInstr.lean ====
section
/-! SUPPORT. Facts about instructions as syntax, one lemma per constructor. -/

namespace Sys2Proof.Laws.Encoding

/-- A command is well-formed, its word is well-formed, and the decoder reads it back from its word and from its OP. -/
def Statement (i : Instr) : Prop :=
  i.wf = true ∧ cmdWordWf (encode i) = true ∧ decodeCmd (encode i) = .ok i ∧ decodeOp i.op = some i ∧
    decodeTableWord 32 (encode i).toNat = some i

theorem compress : Statement .compress := by refine ⟨?_, ?_, ?_, ?_, ?_⟩ <;> decide
theorem decompress : Statement .decompress := by refine ⟨?_, ?_, ?_, ?_, ?_⟩ <;> decide
theorem dumpbits : Statement .dumpbits := by refine ⟨?_, ?_, ?_, ?_, ?_⟩ <;> decide

end Sys2Proof.Laws.Encoding
end

