-- ==== Sys2Proof/Tests/Slice0.lean ====
section
/-! SUPPORT. The model's own tests: well-formedness, decoding, one step of each command on the spec's test vectors
(spec/95_test_vectors.md), and for every statement with hypotheses a state that meets them. -/

open Sys2Proof Sys2Proof.Machine

namespace Sys2Proof.Tests

/-! ### Helpers -/

/-- An outcome is a next state with the property. -/
def leads (o : Host.Outcome State Fault Refusal) (p : State → Bool) : Bool :=
  match o with
  | .next t => p t
  | .fault _ => false
  | .refused _ => false

theorem leads_next {o : Host.Outcome State Fault Refusal} {p : State → Bool} (h : leads o p = true) :
    ∃ t, o = .next t ∧ p t = true := by
  cases o <;> simp_all [leads]

/-- The block after reset, with these argument registers and these moves to come. -/
def idleWith (src len dst cap : Word) (inputs : List Input) : State :=
  { State.reset with
    regs := { RegFile.reset with srcAddr := src, srcLen := len, dstAddr := dst, dstCap := cap }
    env := { Env.reset with inputs := inputs } }

/-- A command in its first phase, its source bytes at 0x1000 and its window at 0x2000. -/
def running (i : Instr) (src : List Byte) (cap latency : Nat) (answers : List BusAnswer) (inputs : List Input) : State :=
  { State.reset with
    regs := { RegFile.reset with status := ⟨true, false, false, false⟩ }
    phase := Phase.first i
    ctx := ⟨i.op, 0x1000, BitVec.ofNat 32 src.length, 0x2000, BitVec.ofNat 32 cap⟩
    mem := writeBytes .reset 0x1000 src
    env := { Env.reset with latencyLeft := latency, answers := answers, inputs := inputs } }

/-- So many answers without a bus error. -/
def oks (n : Nat) : List BusAnswer := List.replicate n .ok

/-- STATUS, ERR_CODE, ERR_INFO and RESULT_LEN as a host reads them. -/
def results (s : State) : Word × Word × Word × Word :=
  (s.regs.read 0x04, s.regs.read 0x08, s.regs.read 0x0C, s.regs.read 0x20)

/-- The bytes of "AABBC" and of its container (spec/95_test_vectors.md L1-3). -/
def aabbc : List Byte := [0x41, 0x41, 0x42, 0x42, 0x43]
def aabbcContainer : List Byte := [0x00, 0x00, 0x00, 0x05, 0x50, 0x94, 0x3A, 0x0F, 0x90]

/-! ### Well-formedness: each check refuses an ill-formed term -/

theorem test_wf_instr : Instr.compress.wf = true ∧ Instr.decompress.wf = true ∧ Instr.dumpbits.wf = true := by decide
theorem test_wf_src_range : (CmdArgs.mk 0xFFFFFFF0 0x10 0x2000 16).srcInRange = true ∧
    (CmdArgs.mk 0xFFFFFFF0 0x11 0x2000 16).srcInRange = false := by decide
theorem test_wf_dst_range : (CmdArgs.mk 0x1000 5 0xFFFFFFFF 1).dstInRange = true ∧
    (CmdArgs.mk 0x1000 5 0xFFFFFFFF 2).dstInRange = false := by decide
theorem test_wf_overlap : (CmdArgs.mk 0x1000 5 0x1004 16).overlap = true ∧
    (CmdArgs.mk 0x1000 5 0x1005 16).overlap = false ∧ (CmdArgs.mk 0x1000 0 0x1000 16).overlap = false ∧
    (CmdArgs.mk 0x1000 5 0x0FF1 16).overlap = true ∧ (CmdArgs.mk 0x1000 5 0x0FF0 16).overlap = false := by decide
theorem test_wf_args : (CmdArgs.mk 0x1000 5 0x2000 16).wf = true ∧ (CmdArgs.mk 0x1000 5 0x1004 16).wf = false ∧
    (CmdArgs.mk 0xFFFFFFF0 0x11 0x2000 16).wf = false ∧ (CmdArgs.mk 0x1000 5 0xFFFFFFFF 2).wf = false := by decide
theorem test_wf_word : cmdWordOpLegal 0x04 = false ∧ cmdWordRsvdZero 0x101 = false ∧ cmdWordWf 0x104 = false ∧
    cmdWordWf 0x103 = false ∧ cmdWordWf 0x03 = true := by decide
theorem test_wf_access : regAccessWf 0x04 32 = true ∧ regAccessWf 0x04 16 = false ∧ regAccessWf 0x06 32 = false := by
  decide

/-! ### Decoding: words written out from spec/30_encoding.md R90 to R93 and spec/opcode_table.json -/

theorem test_decode_compress : decodeCmd 0b00000000000000000000000000000001#32 = .ok .compress := by decide
theorem test_decode_decompress : decodeCmd 0b00000000000000000000000000000010#32 = .ok .decompress := by decide
theorem test_decode_dumpbits : decodeCmd 0b00000000000000000000000000000011#32 = .ok .dumpbits := by decide
theorem test_decode_illegal : decodeCmd 0x00000000#32 = .error .argOpcode ∧ decodeCmd 0x00000104#32 = .error .argOpcode ∧
    decodeCmd 0x00000101#32 = .error .argReserved := by decide
theorem test_decode_table : decodeTableWord 32 1 = some .compress ∧ decodeTableWord 32 2 = some .decompress ∧
    decodeTableWord 32 3 = some .dumpbits ∧ decodeTableWord 8 3 = some .dumpbits ∧ decodeTableWord 32 0 = none ∧
    decodeTableWord 40 0x100000001 = none := by decide

/-! ### One step of each command, expected results from spec/95_test_vectors.md -/

/-- L1-3, K-3. -/
theorem test_compress_container : leads (exec .compress (running .compress aabbc 9 1 (oks 19) [])) (fun t =>
    results t == (0x2, 0x0, 0x0, 9) && readBytes t.mem 0x2000 9 == aabbcContainer && t.env.answers == []) = true := by
  decide +kernel
/-- K-4. -/
theorem test_compress_full : leads (exec .compress (running .compress aabbc 8 1 (oks 19) [])) (fun t =>
    results t == (0x4, 0x3, 8, 0)) = true := by decide +kernel
/-- D-3: the sixth symbol comes from padding. -/
theorem test_decompress_symbols : leads (exec .decompress (running .decompress
      [0x00, 0x00, 0x00, 0x06, 0x50, 0x94, 0x3A, 0x0F, 0x90] 16 1 (oks 81) [])) (fun t =>
    results t == (0x2, 0x0, 0x0, 6) && readBytes t.mem 0x2000 6 == [0x41, 0x41, 0x42, 0x42, 0x43, 0x42]) = true := by
  decide +kernel
/-- D-5. -/
theorem test_decompress_truncated : leads (exec .decompress (running .decompress
      [0x00, 0x00, 0x00, 0x05, 0x50, 0x94, 0x3A, 0x0F] 16 1 (oks 72) [])) (fun t =>
    results t == (0x4, 0x14, 1, 0)) = true := by decide +kernel
/-- X-5. -/
theorem test_dumpbits_text : leads (exec .dumpbits (running .dumpbits [0xA5] 8 1 (oks 9) [])) (fun t =>
    results t == (0x2, 0x0, 0x0, 8) &&
      readBytes t.mem 0x2000 8 == [0x31, 0x30, 0x31, 0x30, 0x30, 0x31, 0x30, 0x31]) = true := by decide +kernel
/-- X-4. -/
theorem test_dumpbits_full : leads (exec .dumpbits (running .dumpbits [0x41, 0x00] 12 1 (oks 18) [])) (fun t =>
    results t == (0x4, 0x3, 12, 0)) = true := by decide +kernel

/-! ### Acceptance: spec/95_test_vectors.md A-1 to A-14 -/

theorem test_accepted : leads (step (idleWith 0x1000 5 0x2000 16 (hostCommand .compress)))
    (fun t => results t == (0x1, 0, 0, 0) && t.phase == .cCount && t.ctx == ⟨0x01, 0x1000, 5, 0x2000, 16⟩) = true ∧
    leads (exec .dumpbits (idleWith 0xFFFFFFF0 0x10 0x2000 16 [])) (fun t => results t == (0x1, 0, 0, 0)) = true ∧
    leads (exec .compress (idleWith 0x1000 0 0x1000 16 [])) (fun t => results t == (0x1, 0, 0, 0)) = true ∧
    leads (exec .decompress (idleWith 0x1000 5 0x0FF0 16 [])) (fun t => results t == (0x1, 0, 0, 0)) = true := by
  decide +kernel
theorem test_rejected : leads (step (idleWith 0x1000 5 0x2000 16 (hostWR .CMD 0x104)))
      (fun t => results t == (0x4, 0x20, 0x104, 0)) = true ∧
    leads (step (idleWith 0x1000 5 0x2000 16 (hostWR .CMD 0x101))) (fun t => results t == (0x4, 0x21, 0x101, 0)) = true ∧
    leads (exec .dumpbits (idleWith 0xFFFFFFF0 0x11 0xFFFFFFFF 2 [])) (fun t => results t == (0x4, 0x22, 0, 0)) = true ∧
    leads (exec .compress (idleWith 0x1000 5 0xFFFFFFFF 2 [])) (fun t => results t == (0x4, 0x22, 1, 0)) = true ∧
    leads (exec .compress (idleWith 0x1000 5 0x1004 16 [])) (fun t => results t == (0x4, 0x23, 0, 0)) = true ∧
    leads (exec .decompress (idleWith 0x1000 5 0x0FF1 16 [])) (fun t => results t == (0x4, 0x23, 0, 0)) = true := by
  decide +kernel
theorem test_dropped : leads (step (running .dumpbits [] 0 2 [] (hostCommand .compress)))
    (fun t => results t == (0x9, 0, 0, 0) && t.phase == .xDump && t.ctx.op == 0x03) = true := by decide +kernel

/-! ### The states of the statements' hypotheses -/

/-- The states of `running` meet the invariant and run their command. -/
theorem running_inv (i : Instr) (src : List Byte) (cap n : Nat) (answers : List BusAnswer) (inputs : List Input)
    (h1 : src.length ≤ 0x1000) (h2 : cap ≤ 0x1000) :
    (running i src cap (n + 1) answers inputs).Inv ∧ Running i (running i src cap (n + 1) answers inputs) ∧
      (running i src cap (n + 1) answers inputs).phase.command = some i := by
  have hargs : (running i src cap (n + 1) answers inputs).ctx.args.wf = true := by
    rw [← argCheck_eq_none_iff]
    have ha : (0x1000#32).toNat = 0x1000 := rfl
    have hb : (0x2000#32).toNat = 0x2000 := rfl
    have hl : (BitVec.ofNat 32 src.length).toNat = src.length := by simp; omega
    have hc : (BitVec.ofNat 32 cap).toNat = cap := by simp; omega
    show argCheck ⟨0x1000#32, BitVec.ofNat 32 src.length, 0x2000#32, BitVec.ofNat 32 cap⟩ = none
    simp only [argCheck, ha, hb, hl, hc]
    rw [if_neg (by omega), if_neg (by omega), if_neg (by omega)]
  have hrun : Running i (running i src cap (n + 1) answers inputs) := ⟨rfl, rfl, hargs, Nat.le_add_left 1 n⟩
  have hcmd : (running i src cap (n + 1) answers inputs).phase.command = some i := by cases i <;> rfl
  refine ⟨⟨writeBytes_wf Memory.reset_wf (by simp [Config.addrSpace]; omega), ?_, ?_, fun _ => ⟨i, hcmd, hrun⟩, ?_⟩,
    hrun, hcmd⟩
  · exact ⟨fun _ => ⟨rfl, rfl, rfl, rfl, rfl⟩, by simp [running], by simp [running], fun _ => rfl⟩
  · cases i <;> simp [running, Phase.first]
  · cases i <;> exact trivial

theorem idleWith_inv (src len dst cap : Word) (inputs : List Input) : (idleWith src len dst cap inputs).Inv :=
  ⟨Memory.reset_wf, ⟨nofun, by simp [idleWith, RegFile.reset, Status.reset], nofun, fun _ => rfl⟩,
    by simp [idleWith, State.reset, RegFile.reset, Status.reset], nofun, trivial⟩

theorem witness_StepIssuesDecodedCommand : ∃ (s : State) (m m' : Input) (w : Word) (i : Instr),
    s.regs.status.busy = false ∧ s.env.inputs = [m] ∧ m.writesReg 0x00#6 w ∧ decodeCmd w = .ok i ∧
    m' = .regWrite 0x00#6 32 w :=
  ⟨idleWith 0 0 0 0 [.regWrite 0x00#6 32 0x1#32], .regWrite 0x00#6 32 0x1#32, _, 0x1#32, .compress, rfl, rfl, .inl rfl,
    by decide, rfl⟩
theorem witness_EngineStepRunsLatchedCommand : ∀ l ∈ [[], [Input.engine], [Input.wait]],
    (running .dumpbits [] 0 1 [] l).regs.status.busy = true ∧
    decodeOp (running .dumpbits [] 0 1 [] l).ctx.op = some .dumpbits ∧ (running .dumpbits [] 0 1 [] l).env.inputs = l := by
  decide
theorem witness_IdleBlockStaysAsItIs : State.reset.regs.status.busy = false ∧ State.reset.env.inputs = [] ∧
    (idleWith 0 0 0 0 [.engine]).regs.status.busy = false ∧ (idleWith 0 0 0 0 [.engine]).env.inputs = [.engine] := by decide
/-- Each branch of the checks is met at a boundary: A-6, A-7, A-9, A-5 and A-10. -/
theorem witness_IdleIssueRejectsOrAccepts :
    (0xFFFFFFF0#32).toNat + (0x11#32).toNat > 2 ^ 32 ∧ ¬(0xFFFFFFF0#32).toNat + (0x10#32).toNat > 2 ^ 32 ∧
    (0xFFFFFFFF#32).toNat + (2#32).toNat > 2 ^ 32 ∧ (0x1000#32).toNat < (0x1004#32).toNat + (16#32).toNat ∧
    (0x1004#32).toNat < (0x1000#32).toNat + (5#32).toNat ∧ ¬(0x1005#32).toNat < (0x1000#32).toNat + (5#32).toNat ∧
    (idleWith 0x1000 5 0x1005 16 []).regs.status.busy = false := by decide
theorem witness_IllegalWordIsRejected : ∃ (s : State) (m : Input) (w : Word) (e : CmdIllegal),
    s.regs.status.busy = false ∧ s.env.inputs = [m] ∧ m.writesReg 0x00#6 w ∧ decodeCmd w = .error e :=
  ⟨idleWith 0 0 0 0 [.regWrite 0x00#6 32 0x104#32], .regWrite 0x00#6 32 0x104#32, 0x104#32, .argOpcode, rfl, rfl, .inl rfl,
    by decide⟩
theorem witness_BusyCommandWriteIsDropped_drop : ∃ (s : State) (m : Input) (w : Word),
    s.regs.status.busy = true ∧ s.env.inputs = [m] ∧ m.writesReg 0x00#6 w :=
  ⟨running .dumpbits [] 0 1 [] [.regWrite 0x00#6 32 0x3#32], .regWrite 0x00#6 32 0x3#32, 0x3#32, rfl, rfl, .inl rfl⟩
theorem witness_BusyCommandWriteIsDropped_clear : ∃ s t : State, s.Inv ∧ step s = .next t ∧ s.regs.status.ovr = true ∧
    t.regs.status.ovr = false :=
  ⟨{ idleWith 0 0 0 0 [.regWrite 0x04#6 32 0x8#32] with
      regs := { RegFile.reset with status := ⟨false, false, false, true⟩ } }, _,
    ⟨Memory.reset_wf, ⟨nofun, by simp, nofun, fun _ => rfl⟩, by simp [idleWith, State.reset], nofun, trivial⟩, rfl, rfl, rfl⟩
theorem witness_StatusWriteClearsMaskedFlags : ∃ (s : State) (m : Input) (v : Word), s.env.inputs = [m] ∧
    m.writesReg 0x04#6 v :=
  ⟨idleWith 0 0 0 0 (hostCLEAR), .regWrite 0x04#6 32 0xE#32, 0xE#32, rfl, .inl rfl⟩
theorem witness_ArgumentWriteReadsBack : ∀ off ∈ [0x10#6, 0x14#6, 0x18#6, 0x1C#6], ∃ (s : State) (m m' : Input) (v : Word),
    s.env.inputs = [m, m'] ∧ m.writesReg off v ∧ m'.readsReg off :=
  fun off _ => ⟨idleWith 0 0 0 0 [.regWrite off 32 7#32, .regRead off 32], _, _, 7#32, rfl, .inl rfl, .inl rfl⟩
theorem witness_ReservedOffsetsHoldNothing : ∃ (s t : State) (m m' : Input) (v : Word),
    s.env.inputs = [m] ∧ m.writesReg 0x24#6 v ∧ t.env.inputs = [m'] ∧ m'.readsReg 0x3C#6 :=
  ⟨idleWith 0 0 0 0 [.regWrite 0x24#6 32 7#32], idleWith 0 0 0 0 [.regRead 0x3C#6 32], _, _, 7#32, rfl, .inl rfl, rfl,
    .inl rfl⟩
theorem witness_MalformedAccessGetsBusError : ∃ s t : State,
    s.env.inputs = [.regRead 0x04#6 16] ∧ (16 ≠ 32 ∨ (0x04#6).toNat % 4 ≠ 0) ∧
    t.env.inputs = [.regWrite 0x3F#6 32 0#32] ∧ (32 ≠ 32 ∨ (0x3F#6).toNat % 4 ≠ 0) :=
  ⟨idleWith 0 0 0 0 [.regRead 0x04#6 16], idleWith 0 0 0 0 [.regWrite 0x3F#6 32 0#32], rfl, by decide, rfl, by decide⟩
/-- Every offset has an address of the host's bus, wherever the window stands. -/
theorem witness_busAddress (off : BitVec 6) : ∃ addr, regOffset addr = some off := by
  refine ⟨Config.regBase + off.setWidth 32, ?_⟩
  have h : Config.regBase + off.setWidth 32 - Config.regBase = off.setWidth 32 := by
    rw [BitVec.add_comm]; exact BitVec.add_sub_cancel ..
  have hlt : (off.setWidth 32).toNat < Config.regWindow := by
    have := off.isLt
    simp only [BitVec.toNat_setWidth, Config.regWindow]
    omega
  simp only [regOffset, h, if_pos hlt]
  simp
theorem witness_MalformedAccessGetsBusError_bus : ∃ (addr : Word) (s t : State), regOffset addr = some 0x06#6 ∧
    s.env.inputs = [.busRead addr 32] ∧ t.env.inputs = [.busWrite addr 8 0#32] ∧ (0x06#6).toNat % 4 ≠ 0 :=
  have ⟨addr, h⟩ := witness_busAddress 0x06#6
  ⟨addr, idleWith 0 0 0 0 [.busRead addr 32], idleWith 0 0 0 0 [.busWrite addr 8 0#32], h, rfl, rfl, by decide⟩
/-- Every error code is some register file's. -/
theorem witness_RegisterReadsGiveTheMap_code (c : ErrCode) : ∃ (s : State) (m : Input), s.env.inputs = [m] ∧
    m.readsReg 0x08#6 ∧ s.regs.errCode = c :=
  ⟨{ idleWith 0 0 0 0 [.regRead 0x08#6 32] with regs := { RegFile.reset with errCode := c } }, _, rfl, .inl rfl, rfl⟩
theorem witness_RegisterReadsGiveTheMap : ∀ off ∈ [0x00#6, 0x04#6, 0x08#6, 0x0C#6, 0x10#6, 0x14#6, 0x18#6, 0x1C#6, 0x20#6],
    off.toNat % 4 = 0 ∧ ∃ (s : State) (m : Input), s.env.inputs = [m] ∧ m.readsReg off :=
  fun off h => ⟨by revert off; decide, idleWith 0 0 0 0 [.regRead off 32], _, rfl, .inl rfl⟩
/-- The first and last byte of each buffer, and the bytes next to them. -/
theorem witness_HostMemoryAccess : ∃ s t : State, s.regs.status.busy = true ∧ s.env.inputs = [.memWrite 0x1004#32 0#8] ∧
    (s.ctx.inSrc 0x1000 && s.ctx.inSrc 0x1004 && s.ctx.inDst 0x2000 && s.ctx.inDst 0x200F) = true ∧
    (s.ctx.inSrc 0x0FFF || s.ctx.inSrc 0x1005 || s.ctx.inDst 0x1FFF || s.ctx.inDst 0x2010) = false ∧
    (idleWith 0 0 0 0 [.memRead 0x0#32]).regs.status.busy = false ∧
    t.regs.status.busy = true ∧ t.env.inputs = [.memRead 0x200F#32] ∧ t.ctx.inDst 0x200F = true :=
  ⟨running .compress aabbc 16 1 [] [.memWrite 0x1004#32 0#8], running .compress aabbc 16 1 [] [.memRead 0x200F#32],
    by decide⟩
theorem witness_ErrorLeavesWindowUnspecified : ∃ (i : Instr) (s t : State), s.Inv ∧ Running i s ∧ s.phase.command = some i ∧
    exec i s = .next t ∧ t.regs.status.err = true := by
  obtain ⟨t, ht, he⟩ := leads_next (o := exec .decompress (running .decompress [] 16 1 [] [])) (p := fun t => t.regs.status.err)
    (by decide +kernel)
  have h := running_inv .decompress [] 16 0 [] [] (by decide) (by decide)
  exact ⟨_, _, t, h.1, h.2.1, h.2.2, ht, he⟩
theorem witness_ResetInputResetsTheBlock : (idleWith 0 0 0 0 [.rst]).env.inputs = [.rst] ∧
    (idleWith 0 0 0 0 [.rst]).regs.status.busy = false ∧ (running .compress aabbc 16 1 [] [.rst]).env.inputs = [.rst] ∧
    (running .compress aabbc 16 1 [] [.rst]).regs.status.busy = true := by decide
theorem witness_StepKeepsInvariant : ∃ s t : State, s.Inv ∧ step s = .next t :=
  ⟨idleWith 0 0 0 0 [], _, idleWith_inv 0 0 0 0 [], rfl⟩
theorem witness_InvariantNeverFaults : (idleWith 0 0 0 0 []).Inv ∧
    (running .compress aabbc 16 1 [] [.memWrite 0x200F#32 0#8]).Inv ∧
    (match step (running .compress aabbc 16 1 [] [.memWrite 0x200F#32 0#8]) with
      | .refused r => r == .hostDutyBroken
      | .next _ => false
      | .fault _ => false) = true :=
  ⟨idleWith_inv 0 0 0 0 [], (running_inv .compress aabbc 16 0 [] [.memWrite 0x200F#32 0#8] (by decide) (by decide)).1,
    by decide +kernel⟩
/-- For every command, and for a latency of 1, 2 and more. -/
theorem witness_LifeOfACommand (i : Instr) (n : Nat) : ∃ s : State, s.Inv ∧ Running i s ∧ s.phase.command = some i ∧
    s.phase = Phase.first i ∧ s.regs.status.busy = true ∧ s.env.inputs = [] ∧ s.env.latencyLeft = n + 1 ∧ s.mem.wf :=
  have h := running_inv i [] 16 n [] [] (by decide) (by decide)
  ⟨_, h.1, h.2.1, h.2.2, rfl, rfl, rfl, rfl, h.1.memWf⟩
theorem witness_BusyRisesOnlyByAcceptance : ∃ s t : State, step s = .next t ∧ s.regs.status.busy = false ∧
    t.regs.status.busy = true :=
  ⟨idleWith 0 0 0 0 [.regWrite 0x00#6 32 0x3#32], _, rfl, rfl, rfl⟩
theorem witness_BusyFallsOnlyByEndOrReset : ∃ s t : State, s.Inv ∧ step s = .next t ∧ s.regs.status.busy = true ∧
    t.regs.status.busy = false := by
  obtain ⟨t, ht, he⟩ := leads_next (o := step (running .decompress [] 16 1 [] [])) (p := fun t => !t.regs.status.busy)
    (by decide +kernel)
  exact ⟨_, t, (running_inv .decompress [] 16 0 [] [] (by decide) (by decide)).1, ht, rfl, by simpa using he⟩
theorem witness_ContextConstantWhileBusy : ∃ s t : State, s.Inv ∧ step s = .next t ∧ s.regs.status.busy = true ∧
    t.regs.status.busy = true := by
  obtain ⟨t, ht, he⟩ := leads_next (o := step (running .decompress [] 16 2 [] [])) (p := fun t => t.regs.status.busy)
    (by decide +kernel)
  exact ⟨_, t, (running_inv .decompress [] 16 1 [] [] (by decide) (by decide)).1, ht, rfl, he⟩
theorem witness_ArgumentsChangeOnlyByHost : ∃ s t : State, s.Inv ∧ step s = .next t ∧ t.regs.srcAddr ≠ s.regs.srcAddr :=
  ⟨idleWith 0 0 0 0 [.regWrite 0x10#6 32 7#32], _, idleWith_inv _ _ _ _ _, rfl, by decide⟩
/-- Also for `CommandsReportOnlyTheirErrors`: every command can end in an error from its first phase. -/
theorem witness_InternalStateIsNeverObserved (i : Instr) : ∃ s t : State, s.Inv ∧ Running i s ∧ s.mem.wf ∧
    s.phase = Phase.first i ∧ s.env.latencyLeft = 1 ∧ exec i s = .next t ∧ t.regs.status.err = true := by
  have h := running_inv i [0x41] 3 0 (oks 9) [] (by decide) (by decide)
  obtain ⟨t, ht, he⟩ := leads_next (o := exec i (running i [0x41] 3 1 (oks 9) [])) (p := fun t => t.regs.status.err)
    (by cases i <;> decide +kernel)
  exact ⟨_, t, h.1, h.2.1, h.1.memWf, rfl, rfl, ht, he⟩
/-- A window of exactly the container's length, and one byte less. -/
theorem witness_CompressWritesItsContainer : ∀ cap ∈ [9, 8], Running .compress (running .compress aabbc cap 1 (oks 19) []) ∧
    (running .compress aabbc cap 1 (oks 19) []).phase = .cCount ∧
    AnswersOk (2 * 5 + (compressBytes aabbc).length) (running .compress aabbc cap 1 (oks 19) []) ∧
    (running .compress aabbc cap 1 (oks 19) []).ctx.srcBytes (running .compress aabbc cap 1 (oks 19) []).mem = aabbc := by
  intro cap h
  have hc : cap ≤ 0x1000 := by revert cap; decide
  refine ⟨(running_inv .compress aabbc cap 0 (oks 19) [] (by decide) hc).2.1, rfl, ?_, ?_⟩
  · show List.take (2 * 5 + (compressBytes aabbc).length) (oks 19) = oks (2 * 5 + (compressBytes aabbc).length)
    decide +kernel
  · show readBytes (writeBytes .reset 0x1000 aabbc) 0x1000 5 = aabbc
    decide +kernel
/-- The first and last source byte, and the first and last header byte. -/
theorem witness_CompressFirstBusError : ∀ k ∈ [0, 4, 5, 8], ∃ s : State, Running .compress s ∧ s.phase = .cCount ∧
    s.env.latencyLeft = 1 ∧ s.env.answers = List.replicate k BusAnswer.ok ++ [BusAnswer.busErr] ∧
    (k < s.ctx.len.toNat ∨ ∃ j, k = s.ctx.len.toNat + j ∧ j < 4 ∧ j < s.ctx.cap.toNat) := by
  intro k h
  refine ⟨running .compress aabbc 16 1 (oks k ++ [.busErr]) [],
    (running_inv .compress aabbc 16 0 (oks k ++ [.busErr]) [] (by decide) (by decide)).2.1, rfl, rfl, rfl, ?_⟩
  show k < 5 ∨ ∃ j, k = 5 + j ∧ j < 4 ∧ j < 16
  by_cases hk : k < 5
  · exact .inl hk
  · exact .inr ⟨k - 5, by omega, by revert k; decide, by revert k; decide⟩
/-- In each part of COMPRESS: both passes, header, tree, payload and flush, in a window of exactly the container's length. -/
theorem witness_CompressFirstBusError_access : ∀ k ∈ [0, 4, 5, 8, 9, 11, 12, 18],
    ∃ a, (compressAccesses aabbc)[k]? = some a ∧ ∀ b ∈ (compressAccesses aabbc).take (k + 1), b.fits 9 = true := by
  have h : ∀ k ∈ [0, 4, 5, 8, 9, 11, 12, 18], ((compressAccesses aabbc)[k]?).isSome = true ∧
      ((compressAccesses aabbc).take (k + 1)).all (Access.fits 9) = true := by decide +kernel
  intro k hk
  have ⟨h1, h2⟩ := h k hk
  exact ⟨_, (Option.some_get h1).symm, List.all_eq_true.mp h2⟩
theorem witness_DecompressWritesItsSymbols : Running .decompress (running .decompress aabbcContainer 5 1 (oks 81) []) ∧
    (running .decompress aabbcContainer 5 1 (oks 81) []).phase = .dHeader ∧
    AnswersOk (9 * 9) (running .decompress aabbcContainer 5 1 (oks 81) []) :=
  ⟨(running_inv .decompress aabbcContainer 5 0 (oks 81) [] (by decide) (by decide)).2.1, rfl, by
    show List.take _ (oks 81) = _
    decide⟩
/-- The errors of R229: a window one byte short (R230(f)), no whole header, a leaf root (R168(b)), a tree cut short
(R168(c)), a payload cut short (D-5). -/
theorem witness_DecompressWritesItsSymbols_errors :
    ∀ p ∈ [(aabbcContainer, 4, ErrCode.ioDstFull, 4#32), ([0x00], 5, .fmtHeader, 1#32),
      ([0, 0, 0, 0, 0x80], 5, .fmtTreeLeafRoot, 0#32), ([0, 0, 0, 0, 0x40], 5, .fmtTreeEos, 0#32),
      (aabbcContainer.dropLast, 5, .fmtPayloadEos, 1#32)],
    leads (exec .decompress (running .decompress p.1 p.2.1 1 (oks 81) []))
      (fun t => t.regs.errCode == p.2.2.1 && t.regs.errInfo == p.2.2.2) = true := by decide +kernel
/-- The shortest and the longest container without a whole header. -/
theorem witness_DecompressShortContainer : ∀ c ∈ [[], [0x00#8, 0x00#8, 0x00#8]],
    Running .decompress (running .decompress c 16 1 [] []) ∧ c.length < 4 := by
  intro c h
  have hc : c.length < 4 := by revert c; decide
  exact ⟨(running_inv .decompress c 16 0 [] [] (by omega) (by decide)).2.1, hc⟩
theorem witness_DecompressHeaderBusError : ∀ k ∈ [0, 3], ∃ s : State, Running .decompress s ∧ s.phase = .dHeader ∧
    s.env.latencyLeft = 1 ∧ 4 ≤ s.ctx.len.toNat ∧ k < 4 ∧
    s.env.answers = List.replicate k BusAnswer.ok ++ [BusAnswer.busErr] := by
  intro k h
  exact ⟨running .decompress aabbcContainer 16 1 (oks k ++ [.busErr]) [],
    (running_inv .decompress aabbcContainer 16 0 (oks k ++ [.busErr]) [] (by decide) (by decide)).2.1, rfl, rfl,
    show 4 ≤ 9 by decide, by revert k; decide, rfl⟩
/-- In each part of DECOMPRESS: header, tree, payload and symbols, in a window of exactly the symbols' length. -/
theorem witness_DecompressFirstBusError : ∀ k ∈ [0, 3, 4, 7, 8, 13], ∃ (s : State) (a : Access), Running .decompress s ∧
    s.phase = .dHeader ∧ s.env.latencyLeft = 1 ∧ 4 ≤ s.ctx.len.toNat ∧
    s.env.answers = List.replicate k BusAnswer.ok ++ [BusAnswer.busErr] ∧
    (decompressAccesses (s.ctx.srcBytes s.mem))[k]? = some a ∧
    ∀ b ∈ (decompressAccesses (s.ctx.srcBytes s.mem)).take (k + 1), b.fits s.ctx.cap = true := by
  have hsrc : readBytes (writeBytes .reset 0x1000 aabbcContainer) 0x1000 9 = aabbcContainer := by decide +kernel
  have h : ∀ k ∈ [0, 3, 4, 7, 8, 13], ((decompressAccesses aabbcContainer)[k]?).isSome = true ∧
      ((decompressAccesses aabbcContainer).take (k + 1)).all (Access.fits 5) = true := by decide +kernel
  intro k hk
  have ⟨h1, h2⟩ := h k hk
  refine ⟨running .decompress aabbcContainer 5 1 (oks k ++ [.busErr]) [], ((decompressAccesses aabbcContainer)[k]?).get h1,
    (running_inv .decompress aabbcContainer 5 0 (oks k ++ [.busErr]) [] (by decide) (by decide)).2.1, rfl, rfl,
    show 4 ≤ 9 by decide, rfl, ?_, ?_⟩
  · show (decompressAccesses (readBytes (writeBytes .reset 0x1000 aabbcContainer) 0x1000 9))[k]? = _
    rw [hsrc]
    exact (Option.some_get h1).symm
  · show ∀ b ∈ (decompressAccesses (readBytes (writeBytes .reset 0x1000 aabbcContainer) 0x1000 9)).take (k + 1), _
    rw [hsrc]
    exact List.all_eq_true.mp h2
/-- A window of exactly the text's length, and one byte less. -/
theorem witness_DumpbitsWritesItsText : ∀ cap ∈ [16, 15],
    Running .dumpbits (running .dumpbits [0x41, 0x00] cap 1 (oks 18) []) ∧
    (running .dumpbits [0x41, 0x00] cap 1 (oks 18) []).phase = .xDump ∧
    AnswersOk (9 * 2) (running .dumpbits [0x41, 0x00] cap 1 (oks 18) []) := by
  intro cap h
  have hc : cap ≤ 0x1000 := by revert cap; decide
  exact ⟨(running_inv .dumpbits _ cap 0 (oks 18) [] (by decide) hc).2.1, rfl, by
    show List.take _ (oks 18) = _
    decide⟩
/-- The read of the second byte with the window full, and the last write of the first byte. -/
theorem witness_DumpbitsFirstBusError : ∃ s t : State, Running .dumpbits s ∧ s.phase = .xDump ∧ s.env.latencyLeft = 1 ∧
    1 < s.ctx.len.toNat ∧ 8 * 1 ≤ s.ctx.cap.toNat ∧
    s.env.answers = List.replicate (9 * 1) BusAnswer.ok ++ [BusAnswer.busErr] ∧
    Running .dumpbits t ∧ t.phase = .xDump ∧ t.env.latencyLeft = 1 ∧ 0 < t.ctx.len.toNat ∧ 8 * 0 + 7 < t.ctx.cap.toNat ∧
    t.env.answers = List.replicate (9 * 0 + 1 + 7) BusAnswer.ok ++ [BusAnswer.busErr] :=
  ⟨running .dumpbits [0x41, 0x00] 8 1 (oks 9 ++ [.busErr]) [], running .dumpbits [0x41, 0x00] 8 1 (oks 8 ++ [.busErr]) [],
    (running_inv .dumpbits [0x41, 0x00] 8 0 (oks 9 ++ [.busErr]) [] (by decide) (by decide)).2.1, rfl, rfl,
    show 1 < 2 by decide, Nat.le_refl 8, rfl,
    (running_inv .dumpbits [0x41, 0x00] 8 0 (oks 8 ++ [.busErr]) [] (by decide) (by decide)).2.1, rfl, rfl,
    show 0 < 2 by decide, show 7 < 8 by decide, rfl⟩
theorem witness_WriterPacksBitStrings : ∃ (s : State) (bits : Bits), s.eng.w = ⟨0, 0, 0⟩ ∧
    s.ctx.dst.toNat + s.ctx.cap.toNat ≤ 2 ^ 32 ∧ (bits.length + 7) / 8 ≤ s.ctx.cap.toNat ∧
    AnswersOk ((bits.length + 7) / 8) s ∧ bits ≠ [] :=
  ⟨running .compress [] 1 1 (oks 1) [], [true, false, true], rfl, by decide, by decide, by
    show List.take _ (oks 1) = _
    decide, by decide⟩
theorem witness_ReaderReturnsTheStream : ∃ s : State, s.eng.r.cnt = 0 ∧ s.eng.r.inPos = 0 ∧
    s.ctx.src.toNat + s.ctx.len.toNat ≤ 2 ^ 32 ∧ AnswersOk s.ctx.len.toNat s ∧ s.ctx.len ≠ 0 :=
  ⟨running .decompress [0xA0] 1 1 (oks 1) [], rfl, rfl, by decide, by
    show List.take _ (oks 1) = _
    decide, by decide⟩
/-- B-1: the empty input. -/
theorem witness_ArenaHoldsTheBuiltTree : ([] : List Byte).length < 2 ^ 32 ∧
    ∀ b : Byte, Engine.reset.freq[b.toNat]'b.isLt = BitVec.ofNat 32 (([] : List Byte).count b) :=
  ⟨by decide, fun b => by simp [Engine.reset]⟩
theorem witness_BuiltTreeIgnoresOrder : [0x01#8, 0x02#8].Perm [0x02#8, 0x01#8] := by decide
theorem witness_BuiltCodesFitTheTable : (buildTree [0x41#8]).code 0x41#8 = some [true] := by decide +kernel
/-- The arena of the smallest built tree, `Node(Leaf 0x00, Leaf 'A')` (R150, R152(b)), in phase C_DERIVE. -/
def derivable : State :=
  let leaf (v : Byte) : Node := ⟨.leaf, v, 0, 0, 0⟩
  { State.reset with
    eng := { Engine.reset with
      node := ((Engine.reset.node.set 0 (leaf 0x41)).set 1 (leaf 0x00)).set 2 ⟨.internal, 0, 1, 0, 0⟩
      nodeCount := 3, root := 2 } }
/-- Also for `CodesArePrefixFree`. -/
theorem witness_CodeTableHoldsThePaths :
    Engine.treeAt Config.stackDepth derivable.eng derivable.eng.root = some (HuffTree.node (.leaf 0x00) (.leaf 0x41)) ∧
    (HuffTree.node (.leaf 0x00) (.leaf 0x41)).depth ≤ Config.codeMaxLen ∧
    (match cDerive derivable with
      | .ok _ u => (u.eng.codeEntry 0x00).valid && (u.eng.codeEntry 0x41).valid
      | .raised _ _ _ => false
      | .stuck _ => false) = true := by decide +kernel
theorem witness_CodesArePrefixFree : 0x78#8 ≠ 0x79#8 ∧ (HuffTree.node (.leaf 0x78) (.leaf 0x79)).code 0x78 = some [false] ∧
    (HuffTree.node (.leaf 0x78) (.leaf 0x79)).code 0x79 = some [true] := by decide
/-- A tree with `n` internal nodes on one path. -/
def comb : Nat → HuffTree
  | 0 => .leaf 0
  | n + 1 => .node (.leaf 0) (comb n)
/-- The largest tree that is accepted, and the smallest that is not. -/
theorem witness_DeserializeUndoesSerialize : (comb 255).isInternal = true ∧ (comb 255).size ≤ Config.nodeCap := by
  decide +kernel
theorem witness_DeserializeRejections : (comb 256).isInternal = true ∧ Config.nodeCap < (comb 256).size ∧
    (comb 1).isInternal = true ∧ (comb 1).size ≤ Config.nodeCap ∧ ([] : Bits) <+: (comb 1).serialize ∧
    [] ≠ (comb 1).serialize := by decide +kernel
theorem witness_TrailingBytesAreIgnored :
    (match decompressOutcome [0, 0, 0, 4, 0x40, 0x28, 0x3E] 4 with | .ok d => d == [0x41, 0x41, 0x41, 0x41] | .error _ => false) =
      true := by decide +kernel
theorem witness_DecompressUndoesCompress : aabbc.length < 2 ^ 32 ∧ aabbc.length ≤ (5#32).toNat := by decide
theorem witness_MachineRoundTrip : ∃ s t u : State, Running .compress s ∧ s.phase = .cCount ∧ s.env.latencyLeft = 1 ∧
    AnswersOk (2 * s.ctx.len.toNat + (compressBytes (s.ctx.srcBytes s.mem)).length) s ∧
    (compressBytes (s.ctx.srcBytes s.mem)).length ≤ s.ctx.cap.toNat ∧ exec .compress s = .next t ∧
    Running .decompress u ∧ u.phase = .dHeader ∧ u.env.latencyLeft = 1 ∧ u.mem = t.mem ∧ u.ctx.src = s.ctx.dst ∧
    u.ctx.len = t.regs.resultLen ∧ s.ctx.len.toNat ≤ u.ctx.cap.toNat ∧ AnswersOk (9 * u.ctx.len.toNat) u := by
  obtain ⟨t, ht, he⟩ := leads_next (o := exec .compress (running .compress aabbc 9 1 (oks 19) []))
    (p := fun t => t.regs.resultLen == 9) (by decide +kernel)
  have hl : t.regs.resultLen = 9 := by simpa using he
  refine ⟨_, t, { running .decompress [] 5 1 (oks 81) [] with mem := t.mem, ctx := ⟨0x02, 0x2000, 9, 0x3000, 5⟩ },
    (running_inv .compress aabbc 9 0 (oks 19) [] (by decide) (by decide)).2.1, rfl, rfl, ?_, ?_, ht,
    ⟨rfl, rfl, ?_, Nat.le_refl 1⟩, rfl, rfl, rfl, rfl, hl.symm, Nat.le_refl 5, ?_⟩
  · show List.take (2 * 5 + (compressBytes (readBytes (writeBytes .reset 0x1000 aabbc) 0x1000 5)).length) (oks 19) =
      oks (2 * 5 + (compressBytes (readBytes (writeBytes .reset 0x1000 aabbc) 0x1000 5)).length)
    decide +kernel
  · decide +kernel
  · show (CmdArgs.mk 0x2000 9 0x3000 5).wf = true
    decide
  · show List.take 81 (oks 81) = oks 81
    decide

end Sys2Proof.Tests
end

/-! ## Family 10_state: what one step can do, and the statements about the register window

Every proof about a step goes through `step_cases`, every proof about a register access through `step_of_writesReg` and
`step_of_readsReg`. -/

namespace Sys2Proof.Machine

/-! ### A register access, through the window or on the host's bus (spec/10_state.md R21, spec/20_memory.md R68) -/

section RegisterAccess

variable {s : State} {m : Input} {rest : List Input} {off : BitVec 6} {v : Word}

theorem step_of_writesReg (hi : s.env.inputs = m :: rest) (hm : m.writesReg off v) :
    step s = hostRegWrite off 32 v (s.setInputs rest) := by
  rcases hm with rfl | ⟨addr, ha, rfl⟩
  · simp only [step, hi]
  · simp only [step, hi, hostBusWrite, ha]

theorem step_of_readsReg (hi : s.env.inputs = m :: rest) (hm : m.readsReg off) :
    step s = .next (hostRegRead off 32 (s.setInputs rest)) := by
  rcases hm with rfl | ⟨addr, ha, rfl⟩
  · simp only [step, hi]
  · simp only [step, hi, hostBusRead, ha]

theorem regAccessOk_of_aligned (h : off.toNat % 4 = 0) : regAccessOk off 32 = true :=
  (regAccessOk_iff off 32).2 ⟨rfl, h⟩

/-- A write to CMD is the CMD write of R23. -/
theorem step_of_writesCmd {w : Word} (hi : s.env.inputs = m :: rest) (hm : m.writesReg 0x00#6 w) :
    step s = cmdWrite w ((s.setInputs rest).respond .ok) := by
  rw [step_of_writesReg hi hm, hostRegWrite, if_pos (regAccessOk_of_aligned rfl), if_pos rfl]

/-- A well-formed write to any register but CMD changes the register file alone. -/
theorem step_of_writesOther (hi : s.env.inputs = m :: rest) (hm : m.writesReg off v) (ha : off.toNat % 4 = 0)
    (h0 : off ≠ 0x00#6) :
    step s = .next (((s.setInputs rest).setRegs (s.regs.write off v)).respond .ok) := by
  rw [step_of_writesReg hi hm, hostRegWrite, if_pos (regAccessOk_of_aligned ha), if_neg h0]
  rfl

/-- A well-formed read answers the register and changes nothing. -/
theorem step_of_readsAligned (hi : s.env.inputs = m :: rest) (hm : m.readsReg off) (ha : off.toNat % 4 = 0) :
    step s = .next ((s.setInputs rest).respond (.data (s.regs.read off))) := by
  rw [step_of_readsReg hi hm, hostRegRead, if_pos (regAccessOk_of_aligned ha)]
  rfl

end RegisterAccess

/-- A register write can do three things: a bus error, a CMD write, or the write of another register. -/
theorem hostRegWrite_next {off : BitVec 6} {width : Nat} {v : Word} {s t : State}
    (h : hostRegWrite off width v s = .next t) :
    t = s.respond .busError ∨
    (width = 32 ∧ off = 0x00#6 ∧ cmdWrite v (s.respond .ok) = .next t) ∨
    (width = 32 ∧ off ≠ 0x00#6 ∧ t = (s.setRegs (s.regs.write off v)).respond .ok) := by
  unfold hostRegWrite at h
  split at h
  · next hok =>
    have hw : width = 32 := ((regAccessOk_iff off width).1 hok).1
    split at h
    · next h0 => exact .inr (.inl ⟨hw, h0, h⟩)
    · next h0 => exact .inr (.inr ⟨hw, h0, by simpa using h.symm⟩)
  · exact .inl (by simpa using h.symm)

/-! ### What a write does to the register file (R21, R24 to R35) -/

namespace RegFile

variable (r : RegFile) (off : BitVec 6) (v : Word)

@[simp] theorem write_status : r.write 0x04#6 v = { r with status := r.status.w1c v } := rfl
@[simp] theorem write_srcAddr : r.write 0x10#6 v = { r with srcAddr := v } := rfl
@[simp] theorem write_srcLen : r.write 0x14#6 v = { r with srcLen := v } := rfl
@[simp] theorem write_dstAddr : r.write 0x18#6 v = { r with dstAddr := v } := rfl
@[simp] theorem write_dstCap : r.write 0x1C#6 v = { r with dstCap := v } := rfl

/-- A write changes STATUS, or one argument register, or nothing. -/
theorem write_cases :
    (off = 0x04#6 ∧ r.write off v = { r with status := r.status.w1c v }) ∨
    (off = 0x10#6 ∧ r.write off v = { r with srcAddr := v }) ∨
    (off = 0x14#6 ∧ r.write off v = { r with srcLen := v }) ∨
    (off = 0x18#6 ∧ r.write off v = { r with dstAddr := v }) ∨
    (off = 0x1C#6 ∧ r.write off v = { r with dstCap := v }) ∨
    (off ∉ [0x04#6, 0x10#6, 0x14#6, 0x18#6, 0x1C#6] ∧ r.write off v = r) := by
  by_cases h : off ∈ [0x04#6, 0x10#6, 0x14#6, 0x18#6, 0x1C#6]
  · simp only [List.mem_cons, List.not_mem_nil, or_false] at h
    rcases h with rfl | rfl | rfl | rfl | rfl <;> simp
  · simp only [List.mem_cons, List.not_mem_nil, or_false, not_or] at h
    simp [write, h]

end RegFile

/-! ### One step (spec/70_reset_and_hazards.md R290) -/

/-- From `s` to `t` the block is as before: only memory, kept in its form, and the moves, responses, answers and draws
outside the block may differ. -/
structure SameBlock (s t : State) : Prop where
  regs : t.regs = s.regs
  phase : t.phase = s.phase
  ctx : t.ctx = s.ctx
  eng : t.eng = s.eng
  latencyLeft : t.env.latencyLeft = s.env.latencyLeft
  memWf : s.mem.wf → t.mem.wf

namespace SameBlock

theorem setInputs (s : State) (l : List Input) : SameBlock s (s.setInputs l) := ⟨rfl, rfl, rfl, rfl, rfl, id⟩

variable {s t : State}

theorem respond (h : SameBlock s t) (r : HostResp) : SameBlock s (t.respond r) :=
  ⟨h.regs, h.phase, h.ctx, h.eng, h.latencyLeft, h.memWf⟩

theorem drawn (h : SameBlock s t) : SameBlock s t.drawn :=
  ⟨h.regs, h.phase, h.ctx, h.eng, h.latencyLeft, h.memWf⟩

theorem elsewhere (h : SameBlock s t) : SameBlock s (elsewhere t) :=
  ⟨h.regs, h.phase, h.ctx, h.eng, h.latencyLeft, h.memWf⟩

theorem hostMemRead (h : SameBlock s t) (a : Word) : SameBlock s (hostMemRead a t) := by
  unfold Machine.hostMemRead
  split
  · exact (h.respond _).drawn
  · exact h.respond _

theorem setMem_write (h : SameBlock s t) (a : Word) (b : Byte) : SameBlock s (t.setMem (t.mem.write a.toNat b)) :=
  ⟨h.regs, h.phase, h.ctx, h.eng, h.latencyLeft, fun hm => Memory.write_wf (h.memWf hm) a.isLt b⟩

end SameBlock

/-- The next move lets the engine move: none is left, it is the engine's own, or it is a WAIT. -/
def EngineTurn (inputs : List Input) : Prop :=
  inputs = [] ∨ ∃ rest, inputs = .engine :: rest ∨ inputs = .wait :: rest

/-- What one step from `s` to `t` did. -/
inductive StepCase (s t : State) : Prop where
  /-- Nothing to the block: a read, a malformed access, an access elsewhere, a host store, or an idle engine's move. -/
  | silent (h : SameBlock s t)
  /-- A write of a register other than CMD. -/
  | reg (m : Input) (rest : List Input) (off : BitVec 6) (v : Word) (hi : s.env.inputs = m :: rest)
      (hm : m.writesReg off v) (ht : t = ((s.setInputs rest).setRegs (s.regs.write off v)).respond .ok)
  /-- A CMD write. -/
  | cmd (m : Input) (rest : List Input) (w : Word) (hi : s.env.inputs = m :: rest) (hm : m.writesReg 0x00#6 w)
      (ht : cmdWrite w ((s.setInputs rest).respond .ok) = .next t)
  /-- Reset. -/
  | rst (rest : List Input) (hi : s.env.inputs = .rst :: rest) (ht : t = resetBlock (s.setInputs rest))
  /-- An engine step of the running command. -/
  | engine (u : State) (i : Instr) (hb : s.regs.status.busy = true) (hi : EngineTurn s.env.inputs)
      (hu : SameBlock s u) (hop : decodeOp s.ctx.op = some i) (ht : exec i u = .next t)

namespace StepCase

variable {s u t : State}

/-- A move of the engine, the move and the response in the environment being settled. -/
theorem of_engineMove (hu : SameBlock s u) (hi : EngineTurn s.env.inputs) (h : engineMove u = .next t) :
    StepCase s t := by
  unfold engineMove at h
  split at h
  · next hb =>
    rw [hu.regs] at hb
    rw [hu.ctx] at h
    split at h
    · next i hop => exact .engine u i hb hi hu hop h
    · simp at h
  · simp only [Host.Outcome.next.injEq] at h
    exact .silent (h ▸ hu)

/-- A register write that the next move makes, through the window or on the bus. -/
theorem of_hostRegWrite {m : Input} {rest : List Input} {off : BitVec 6} {width : Nat} {v : Word}
    (hi : s.env.inputs = m :: rest) (hm : width = 32 → m.writesReg off v)
    (h : hostRegWrite off width v (s.setInputs rest) = .next t) : StepCase s t := by
  rcases hostRegWrite_next h with rfl | ⟨hw, rfl, hcmd⟩ | ⟨hw, _, rfl⟩
  · exact .silent ((SameBlock.setInputs s rest).respond _)
  · exact .cmd m rest v hi (hm hw) hcmd
  · exact .reg m rest off v hi (hm hw) rfl

end StepCase

/-- A register read, through the window, leaves the block as it is. -/
theorem SameBlock.hostRegRead {s t : State} (h : SameBlock s t) (off : BitVec 6) (width : Nat) :
    SameBlock s (hostRegRead off width t) := h.respond _

/-- Every step does one of the things `StepCase` lists. -/
theorem step_cases {s t : State} (h : step s = .next t) : StepCase s t := by
  unfold step at h
  split at h
  · next hi => exact .of_engineMove ⟨rfl, rfl, rfl, rfl, rfl, id⟩ (.inl hi) h
  · next m rest hi =>
    have hs : SameBlock s (s.setInputs rest) := .setInputs s rest
    cases m with
    | regRead off width =>
      simp only [Host.Outcome.next.injEq] at h
      exact .silent (h ▸ hs.hostRegRead off width)
    | regWrite off width v => exact .of_hostRegWrite hi (fun hw => .inl (hw ▸ rfl)) h
    | busRead addr width =>
      simp only [Host.Outcome.next.injEq, hostBusRead] at h
      split at h
      · exact .silent (h ▸ hs.hostRegRead _ width)
      · exact .silent (h ▸ hs.elsewhere)
    | busWrite addr width v =>
      simp only [hostBusWrite] at h
      split at h
      · next off ha => exact .of_hostRegWrite hi (fun hw => .inr ⟨addr, ha, hw ▸ rfl⟩) h
      · simp only [Host.Outcome.next.injEq] at h
        exact .silent (h ▸ hs.elsewhere)
    | memRead a =>
      simp only [Host.Outcome.next.injEq] at h
      exact .silent (h ▸ hs.hostMemRead a)
    | memWrite a b =>
      simp only [hostMemWrite] at h
      split at h
      · simp at h
      · simp only [Host.Outcome.next.injEq] at h
        exact .silent (h ▸ (hs.setMem_write a b).respond .ok)
    | wait =>
      dsimp only at h
      split at h
      · exact .of_engineMove (SameBlock.hostRegRead ⟨rfl, rfl, rfl, rfl, rfl, id⟩ _ _) (.inr ⟨rest, .inr hi⟩) h
      · simp only [Host.Outcome.next.injEq] at h
        exact .silent (h ▸ hs.hostRegRead _ _)
    | rst =>
      simp only [Host.Outcome.next.injEq] at h
      exact .rst rest hi h.symm
    | engine => exact .of_engineMove hs (.inr ⟨rest, .inl hi⟩) h

/-! ### The tier 1 statements about the window -/

/-- Settles O3: the CMD write of R23 on an idle block, which `withFetchWord` places. -/
theorem stepIssuesDecodedCommand : Obligations.StepIssuesDecodedCommand := by
  unfold Obligations.StepIssuesDecodedCommand
  have issued : ∀ (s : State) (m : Input) (rest : List Input) (w : Word) (i : Instr),
      s.regs.status.busy = false → s.env.inputs = m :: rest → m.writesReg 0x00#6 w → decodeCmd w = .ok i →
      step s = exec i { s with env := { s.env with inputs := rest, resp := some .ok } } := by
    intro s m rest w i hb hi hm hd
    rw [step_of_writesCmd hi hm, cmdWrite]
    simp only [State.respond_regs, State.setInputs_regs, hb, hd]
    rfl
  refine ⟨issued, fun s i => ?_⟩
  have hword : BitVec.ofNat 32 ((encode i).toNat % 2 ^ 32) = encode i := by cases i <;> rfl
  exact issued (s.withFetchWord 32 (encode i).toNat) _ s.env.inputs (encode i) i rfl rfl
    (.inl (by rw [hword]; rfl)) (by cases i <;> decide)

/-- Settles O9. -/
theorem statusWriteClearsMaskedFlags : Obligations.StatusWriteClearsMaskedFlags := by
  unfold Obligations.StatusWriteClearsMaskedFlags
  intro s m rest v hi hm
  have and_not : ∀ a b : Bool, (a && !b) = if b then false else a := by decide
  rw [step_of_writesOther hi hm rfl (by decide), RegFile.write_status]
  simp only [Status.w1c, and_not]
  rfl

/-- The registers after an argument register was written, as R30 to R33 say it, and what the register reads as then. -/
theorem RegFile.write_argument (r : RegFile) (off : BitVec 6) (v : Word)
    (h : off = 0x10#6 ∨ off = 0x14#6 ∨ off = 0x18#6 ∨ off = 0x1C#6) :
    off.toNat % 4 = 0 ∧ off ≠ 0x00#6 ∧ (r.write off v).read off = v ∧
    r.write off v = { r with
      srcAddr := if off = 0x10#6 then v else r.srcAddr
      srcLen := if off = 0x14#6 then v else r.srcLen
      dstAddr := if off = 0x18#6 then v else r.dstAddr
      dstCap := if off = 0x1C#6 then v else r.dstCap } := by
  rcases h with rfl | rfl | rfl | rfl <;> exact ⟨rfl, by decide, rfl, rfl⟩

/-- Settles O10. -/
theorem argumentWriteReadsBack : Obligations.ArgumentWriteReadsBack := by
  unfold Obligations.ArgumentWriteReadsBack
  intro s m m' rest off v hi hm hm' hoff
  obtain ⟨haligned, hne, hread, hwrite⟩ := RegFile.write_argument s.regs off v hoff
  refine ⟨_, step_of_writesOther hi hm haligned hne, ?_, ?_⟩
  · rw [hwrite]; rfl
  · rw [step_of_readsAligned (rest := rest) rfl hm' haligned]
    simp only [State.respond_regs, State.setRegs_regs, hread]
    rfl

/-- The read-only registers and the reserved offsets, where a write is ignored (R21, R35). -/
def ignoredOffsets : List (BitVec 6) :=
  [0x08#6, 0x0C#6, 0x20#6, 0x24#6, 0x28#6, 0x2C#6, 0x30#6, 0x34#6, 0x38#6, 0x3C#6]

/-- CMD and the reserved offsets, which hold no value (R23, R35). -/
def emptyOffsets : List (BitVec 6) := [0x00#6, 0x24#6, 0x28#6, 0x2C#6, 0x30#6, 0x34#6, 0x38#6, 0x3C#6]

theorem ignoredOffsets_spec : ∀ off ∈ ignoredOffsets,
    off.toNat % 4 = 0 ∧ off ≠ 0x00#6 ∧ off ≠ 0x04#6 ∧ off ≠ 0x10#6 ∧ off ≠ 0x14#6 ∧ off ≠ 0x18#6 ∧ off ≠ 0x1C#6 := by
  decide

theorem emptyOffsets_spec : ∀ off ∈ emptyOffsets, off.toNat % 4 = 0 ∧ off ≠ 0x04#6 ∧ off ≠ 0x08#6 ∧ off ≠ 0x0C#6 ∧
    off ≠ 0x10#6 ∧ off ≠ 0x14#6 ∧ off ≠ 0x18#6 ∧ off ≠ 0x1C#6 ∧ off ≠ 0x20#6 := by
  decide

/-- Settles O11. -/
theorem reservedOffsetsHoldNothing : Obligations.ReservedOffsetsHoldNothing := by
  unfold Obligations.ReservedOffsetsHoldNothing
  intro s m rest off hi
  refine ⟨fun v hm hoff => ?_, fun hm hoff => ?_⟩
  · obtain ⟨haligned, hcmd, h04, h10, h14, h18, h1C⟩ := ignoredOffsets_spec off hoff
    have hwrite : s.regs.write off v = s.regs := by
      simp only [RegFile.write, h04, h10, h14, h18, h1C, if_false]
    rw [step_of_writesOther hi hm haligned hcmd, hwrite]
    rfl
  · obtain ⟨haligned, h04, h08, h0C, h10, h14, h18, h1C, h20⟩ := emptyOffsets_spec off hoff
    have hread : s.regs.read off = 0 := by
      simp only [RegFile.read, h04, h08, h0C, h10, h14, h18, h1C, h20, if_false]
    rw [step_of_readsAligned hi hm haligned, hread]
    rfl

/-- Settles O12. -/
theorem malformedAccessGetsBusError : Obligations.MalformedAccessGetsBusError := by
  unfold Obligations.MalformedAccessGetsBusError
  intro s m rest off width v hbad hi hm
  have hno : ¬regAccessOk off width = true := by rw [regAccessOk_iff]; tauto
  have hread : hostRegRead off width (s.setInputs rest) = (s.setInputs rest).respond .busError := by
    rw [hostRegRead, if_neg hno]
  have hwrite : hostRegWrite off width v (s.setInputs rest) = .next ((s.setInputs rest).respond .busError) := by
    rw [hostRegWrite, if_neg hno]
  rcases hm with rfl | rfl | ⟨addr, ha, rfl | rfl⟩
  · simp only [step, hi, hread]; rfl
  · simp only [step, hi, hwrite]; rfl
  · simp only [step, hi, hostBusRead, ha, hread]; rfl
  · simp only [step, hi, hostBusWrite, ha, hwrite]; rfl

/-- STATUS as the host reads it: the flags in bits 0 to 3 (R24). -/
theorem Status.word_bits (t : Status) :
    t.word.getLsbD 0 = t.busy ∧ t.word.getLsbD 1 = t.done ∧ t.word.getLsbD 2 = t.err ∧ t.word.getLsbD 3 = t.ovr ∧
      t.word.extractLsb' 4 28 = 0#28 := by
  obtain ⟨busy, done, err, ovr⟩ := t
  revert busy done err ovr
  decide

/-- ERR_CODE as the host reads it: the code in the low byte (R28). -/
theorem ErrCode.word_bytes (c : ErrCode) : c.word.extractLsb' 8 24 = 0#24 ∧ c.word.extractLsb' 0 8 = c.byte := by
  cases c <;> decide

/-- Settles O13. -/
theorem registerReadsGiveTheMap : Obligations.RegisterReadsGiveTheMap := by
  unfold Obligations.RegisterReadsGiveTheMap
  intro s m rest off hi hm haligned
  refine ⟨s.regs.read off, step_of_readsAligned hi hm haligned, ?_, ?_, ?_⟩
  · rintro rfl
    exact s.regs.status.word_bits
  · rintro rfl
    obtain ⟨hhigh, hlow⟩ := s.regs.errCode.word_bytes
    refine ⟨hhigh, hlow.trans ?_⟩
    cases s.regs.errCode <;> rfl
  · refine ⟨?_, ?_, ?_, ?_, ?_, ?_⟩ <;> rintro rfl <;> rfl

/-- Settles O17. -/
theorem resetStateReadsZero : Obligations.ResetStateReadsZero := by
  unfold Obligations.ResetStateReadsZero
  refine ⟨by decide, rfl, rfl, ?_⟩
  rw [step]
  exact engineMove_idle rfl

end Sys2Proof.Machine

namespace Sys2Proof.Machine

/-! ### Acceptance is what sets BUSY (spec/10_state.md R24) -/

theorem RegFile.write_busy (r : RegFile) (off : BitVec 6) (v : Word) :
    (r.write off v).status.busy = r.status.busy := by
  rcases r.write_cases off v with ⟨_, h⟩ | ⟨_, h⟩ | ⟨_, h⟩ | ⟨_, h⟩ | ⟨_, h⟩ | ⟨_, h⟩ <;> simp [h]

@[simp] theorem resetBlock_regs (s : State) : (resetBlock s).regs = RegFile.reset := rfl

/-- What a CMD write answers next: the write dropped, a rejection with its code, or an acceptance. -/
theorem cmdWrite_next {w : Word} {s t : State} (h : cmdWrite w s = .next t) :
    (s.regs.status.busy = true ∧ t = dropCommand s) ∨
    (s.regs.status.busy = false ∧ ∃ c v, c ≠ .none ∧ t = errorEntry c v (issued s)) ∨
    (s.regs.status.busy = false ∧ ∃ i, decodeCmd w = .ok i ∧ s.regs.args.wf = true ∧
      t = accept i.op (Phase.first i) (issued s)) := by
  rcases cmdWrite_cases w s with ⟨hb, hw⟩ | ⟨hb, i, hd, hw⟩ | ⟨hb, e, _, hw⟩
  all_goals rw [hw, Host.Outcome.next.injEq] at h
  · exact .inl ⟨hb, h.symm⟩
  · rcases issue_cases i.op (Phase.first i) s with ⟨c, v, hc, hi⟩ | ⟨ha, hi⟩ <;> rw [hi] at h
    · refine .inr (.inl ⟨hb, c, v, ?_, h.symm⟩)
      rcases argCheck_some_code hc with rfl | rfl <;> decide
    · exact .inr (.inr ⟨hb, i, hd, ha, h.symm⟩)
  · exact .inr (.inl ⟨hb, illegalCode e, w, by cases e <;> decide, h.symm⟩)

/-- Settles O25: of the moves of `step_cases` only a CMD write to an idle block sets BUSY, by accepting. -/
theorem busyRisesOnlyByAcceptance : Obligations.BusyRisesOnlyByAcceptance := by
  unfold Obligations.BusyRisesOnlyByAcceptance
  intro s t h hs ht
  cases step_cases h with
  | silent hk => simp [hk.regs, hs] at ht
  | reg m rest off v hi hm hreg => simp [hreg, RegFile.write_busy, hs] at ht
  | cmd m rest w hi hm hw =>
    rcases cmdWrite_next hw with ⟨hb, _⟩ | ⟨_, c, v, _, rfl⟩ | ⟨_, i, hd, ha, rfl⟩
    · simp [hs] at hb
    · simp at ht
    · exact ⟨m, rest, w, i, hi, hm, hd, ha, rfl, rfl⟩
  | rst rest hi hr => simp [hr, RegFile.reset, Status.reset] at ht
  | engine u i hb => simp [hs] at hb

end Sys2Proof.Machine

namespace Sys2Proof.Machine

/-! ## Family 10_state: computations that run on two internal states

`Res.Sim` compares one computation run from two states that differ in the internal state alone. A relation on internal
states says what the computation reads of them. Between a state and another internal state this is R50; between a state
and itself it says what the computation keeps. -/

/-- Two computations end alike: with the same value or the same error of the block (never NONE), in states that differ
in the internal state alone, the relation holding after a value. Of a first computation that is stuck it says nothing. -/
inductive Res.Sim {α : Type} (P : α → State → Engine → Prop) : Res α → Res α → Prop where
  | ok {a : α} {s t : State} (hs : t = s.setEng t.eng) (h : P a s t.eng) : Sim P (.ok a s) (.ok a t)
  | raised {c : ErrCode} {v : Word} {s t : State} (hc : c ≠ .none) (hs : t = s.setEng t.eng) :
      Sim P (.raised c v s) (.raised c v t)
  | stuck {f : Fault} {y : Res α} : Sim P (.stuck f) y

namespace Res.Sim

theorem bind {α β : Type} {P : α → State → Engine → Prop} {Q : β → State → Engine → Prop} {x y : Res α}
    {f g : α → State → Res β} (h : Sim P x y) (hf : ∀ a s e, P a s e → Sim Q (f a s) (g a (s.setEng e))) :
    Sim Q (x.bind f) (y.bind g) := by
  cases h with
  | @ok a s t hs h => rw [hs]; exact hf a s t.eng h
  | raised hc hs => exact .raised hc hs
  | stuck => exact .stuck

end Res.Sim

theorem nextAnswer_setEng (s : State) (e : Engine) :
    nextAnswer (s.setEng e) = ((nextAnswer s).1, (nextAnswer s).2.setEng e) := by
  unfold nextAnswer
  simp only [State.setEng_env]
  split <;> rfl

/-- GetByte reads nothing of the internal state. -/
theorem getByte_sim {P : Engine → Engine → Prop} {s : State} {e : Engine} (h : P s.eng e) (i : Word) :
    Res.Sim (fun _ u => P u.eng) (getByte i s) (getByte i (s.setEng e)) := by
  rw [getByte_eq, getByte_eq, nextAnswer_setEng]
  dsimp only
  split
  · exact .ok rfl (by rw [nextAnswer_eng]; exact h)
  · exact .raised (by decide) rfl

/-! ### The writer -/

/-- A relation that gives the writer and survives the same update of it on both sides. -/
structure WriterStable (P : Engine → Engine → Prop) : Prop where
  same : ∀ {d e : Engine}, P d e → e.w = d.w
  update : ∀ {d e : Engine} (w : Writer), P d e → P { d with w := w } { e with w := w }

section Writer

variable {P : Engine → Engine → Prop} (hP : WriterStable P) {s : State} {e : Engine}
include hP

theorem putByte_sim (h : P s.eng e) (v : Byte) :
    Res.Sim (fun _ u => P u.eng) (putByte v s) (putByte v (s.setEng e)) := by
  rw [putByte_eq, putByte_eq, nextAnswer_setEng]
  simp only [State.setEng_eng, State.setEng_ctx, State.setEng_mem, hP.same h]
  split
  · exact .raised (by decide) rfl
  · split
    · exact .ok rfl (by simpa using hP.update _ h)
    · exact .raised (by decide) rfl

theorem putAcc_sim (h : P s.eng e) : Res.Sim (fun _ u => P u.eng) (putAcc s) (putAcc (s.setEng e)) := by
  unfold putAcc
  rw [State.setEng_eng, hP.same h]
  refine (putByte_sim hP h _).bind fun _ u d hu => ?_
  rw [State.setEng_eng, hP.same hu]
  exact .ok rfl (hP.update _ hu)

theorem writeBit_sim (h : P s.eng e) (b : Bool) :
    Res.Sim (fun _ u => P u.eng) (writeBit b s) (writeBit b (s.setEng e)) := by
  unfold writeBit
  simp only [State.setEng_eng, State.setWriter_eng, hP.same h]
  split
  · exact putAcc_sim hP (s := s.setWriter _) (hP.update _ h)
  · exact .ok rfl (hP.update _ (hP.update _ h))

theorem writeString_sim (h : P s.eng e) (bs : Bits) :
    Res.Sim (fun _ u => P u.eng) (writeString bs s) (writeString bs (s.setEng e)) := by
  induction bs generalizing s e with
  | nil => exact .ok rfl h
  | cons b bs ih => exact (writeBit_sim hP h b).bind fun _ _ _ hu => ih hu

theorem flush_sim (h : P s.eng e) : Res.Sim (fun _ u => P u.eng) (flush s) (flush (s.setEng e)) := by
  unfold flush
  rw [State.setEng_eng, hP.same h]
  split
  · exact .ok rfl h
  · exact putAcc_sim hP h

theorem dumpText_sim (h : P s.eng e) (bs : Bits) :
    Res.Sim (fun _ u => P u.eng) (dumpText bs s) (dumpText bs (s.setEng e)) := by
  induction bs generalizing s e with
  | nil => exact .ok rfl h
  | cons b bs ih => exact (putByte_sim hP h _).bind fun _ _ _ hu => ih hu

end Writer

/-! ### The reader -/

/-- Two readers that go on alike: the same cursors, and the same byte while bits of it are unread (R48, R126). -/
structure Reader.Alike (r q : Reader) : Prop where
  cnt : q.cnt = r.cnt
  inPos : q.inPos = r.inPos
  byte : r.cnt ≠ 0 → q.byte = r.byte

/-- A relation that gives readers that go on alike and survives an update to others that do. -/
structure ReaderStable (P : Engine → Engine → Prop) : Prop where
  same : ∀ {d e : Engine}, P d e → d.r.Alike e.r
  update : ∀ {d e : Engine} {r q : Reader}, r.Alike q → P d e → P { d with r := r } { e with r := q }

section Reader

variable {P : Engine → Engine → Prop} (hP : ReaderStable P) {s : State} {e : Engine}
include hP

theorem takeBit_sim (h : P s.eng e) (hc : s.eng.r.cnt ≠ 0) :
    Res.Sim (fun _ u => P u.eng) (takeBit s) (takeBit (s.setEng e)) := by
  obtain ⟨hcnt, hpos, hbyte⟩ := hP.same h
  unfold takeBit
  simp only [State.setEng_eng, hcnt, hbyte hc]
  exact .ok rfl (hP.update ⟨rfl, hpos, fun _ => rfl⟩ h)

theorem readBit_sim (h : P s.eng e) :
    Res.Sim (fun _ u => P u.eng) (readBit s) (readBit (s.setEng e)) := by
  obtain ⟨hcnt, hpos, -⟩ := hP.same h
  unfold readBit
  simp only [State.setEng_eng, State.setEng_ctx, State.setEng_mem, hcnt, hpos, memRead_eq, nextAnswer_setEng]
  split
  · split
    · exact .ok rfl h
    · by_cases hok : (nextAnswer s).1 = .ok
      · simp only [hok, if_true, nextAnswer_eng]
        refine takeBit_sim hP (s := (nextAnswer s).2.setReader _) (e := { e with r := ⟨_, 8, _⟩ }) ?_ ?_
        · rw [State.setReader_eng, nextAnswer_eng, State.setEng_eng, hpos]
          exact hP.update ⟨rfl, rfl, fun _ => rfl⟩ h
        · exact show 8#4 ≠ 0 by decide
      · simp only [hok, if_false, nextAnswer_eng, State.setEng_eng, hpos]
        exact .raised (by decide) rfl
  · next hne => exact takeBit_sim hP h hne

theorem readBitsFrom_sim (n : Nat) (v : Word) (h : P s.eng e) :
    Res.Sim (fun _ u => P u.eng) (readBitsFrom n v s) (readBitsFrom n v (s.setEng e)) := by
  induction n generalizing v s e with
  | zero => exact .ok rfl h
  | succ n ih =>
    refine (readBit_sim hP h).bind fun b u d hu => ?_
    cases b with
    | none => exact .ok rfl hu
    | some b => exact ih _ hu

theorem readBits_sim (n : Nat) (h : P s.eng e) :
    Res.Sim (fun _ u => P u.eng) (readBits n s) (readBits n (s.setEng e)) :=
  readBitsFrom_sim hP n 0 h

end Reader

end Sys2Proof.Machine

namespace Sys2Proof.Machine

/-! ## Family 10_state: arenas and code tables that are read alike -/

/-- Two arena entries that read alike: the same kind, and the same fields of that kind (R43). -/
structure Node.Alike (n m : Node) : Prop where
  kind : m.kind = n.kind
  value : n.kind = .leaf → m.value = n.value
  left : n.kind = .internal → m.left = n.left
  right : n.kind = .internal → m.right = n.right

theorem Node.Alike.refl (n : Node) : n.Alike n := ⟨rfl, fun _ => rfl, fun _ => rfl, fun _ => rfl⟩

/-- Two arenas whose entries in use read alike, the root and the children of every entry in use being in use. -/
structure ArenaAlike (d e : Engine) : Prop where
  nodeCount : e.nodeCount = d.nodeCount
  root : e.root = d.root
  rootUsed : d.root.toNat < d.nodeCount.toNat
  entry : ∀ (i : Nat) (n : Node), i < d.nodeCount.toNat → d.node[i]? = some n → ∃ m, e.node[i]? = some m ∧ n.Alike m
  children : ∀ (i : Nat) (n : Node), i < d.nodeCount.toNat → d.node[i]? = some n → n.kind = .internal →
    n.left.toNat < d.nodeCount.toNat ∧ n.right.toNat < d.nodeCount.toNat

/-- The arena of `d` is still that of `a`. -/
structure SameArena (a d : Engine) : Prop where
  node : d.node = a.node
  nodeCount : d.nodeCount = a.nodeCount
  root : d.root = a.root

namespace SameArena

theorem refl (d : Engine) : SameArena d d := ⟨rfl, rfl, rfl⟩

variable {a d : Engine} (h : SameArena a d)
include h

theorem setW (w : Writer) : SameArena a { d with w := w } := ⟨h.node, h.nodeCount, h.root⟩

theorem setR (r : Reader) : SameArena a { d with r := r } := ⟨h.node, h.nodeCount, h.root⟩

theorem setSym (v : Word) : SameArena a { d with sym := v } := ⟨h.node, h.nodeCount, h.root⟩

end SameArena

theorem ArenaBuilt.of_same {a d : Engine} (h : ArenaBuilt a) (hs : SameArena a d) : ArenaBuilt d := by
  obtain ⟨hnode, hcount, hroot⟩ := hs
  obtain ⟨fits, rootInternal, rootUsed, below⟩ := h
  constructor
  · rwa [hcount]
  · rwa [Engine.nodeAt, hnode, hroot]
  · rwa [hcount, hroot]
  · rwa [hcount, hnode]

theorem ArenaAlike.of_same {a b d e : Engine} (h : ArenaAlike a b) (hd : SameArena a d) (he : SameArena b e) :
    ArenaAlike d e := by
  obtain ⟨hdnode, hdcount, hdroot⟩ := hd
  obtain ⟨henode, hecount, heroot⟩ := he
  obtain ⟨count, root, rootUsed, entry, children⟩ := h
  constructor
  · rw [hdcount, hecount, count]
  · rw [hdroot, heroot, root]
  · rwa [hdcount, hdroot]
  · rwa [hdcount, hdnode, henode]
  · rwa [hdcount, hdnode]

/-- A built arena reads like itself. -/
theorem ArenaBuilt.alike {d : Engine} (h : ArenaBuilt d) : ArenaAlike d d where
  nodeCount := rfl
  root := rfl
  rootUsed := h.rootUsed
  entry _ n _ hn := ⟨n, hn, .refl n⟩
  children i n hi hn hk := by
    obtain ⟨hl, hr⟩ := h.childrenBelow i n hi hn hk
    omega

/-- A read arena reads like itself. -/
theorem ArenaRead.alike {d : Engine} (h : ArenaRead d) : ArenaAlike d d where
  nodeCount := rfl
  root := rfl
  rootUsed := h.rootUsed
  entry _ n _ hn := ⟨n, hn, .refl n⟩
  children i n hi hn hk := by
    obtain ⟨_, hl, _, hr⟩ := h.childrenAbove i n hi hn hk
    exact ⟨hl, hr⟩

/-- Two code tables that read alike: the same symbols have a code, and the codes are the same (R46). -/
def CodesAlike (d e : Engine) : Prop :=
  ∀ v : Byte, (e.codeEntry v).valid = (d.codeEntry v).valid ∧
    ((d.codeEntry v).valid = true → e.codeEntry v = d.codeEntry v)

theorem codeEntry_setCode (e : Engine) (v : Byte) (c : CodeEntry) (x : Byte) :
    (e.setCode v c).codeEntry x = if v = x then c else e.codeEntry x := by
  simp only [Engine.codeEntry, Engine.setCode, Vector.getElem_set, BitVec.toNat_inj]

@[simp] theorem codeEntry_clearCodes_valid (e : Engine) (x : Byte) : (e.clearCodes.codeEntry x).valid = false := by
  simp [Engine.codeEntry, Engine.clearCodes]

theorem CodesAlike.clearCodes (d e : Engine) : CodesAlike d.clearCodes e.clearCodes := fun v => by simp

theorem CodesAlike.setCode {d e : Engine} (h : CodesAlike d e) (v : Byte) (c : CodeEntry) :
    CodesAlike (d.setCode v c) (e.setCode v c) := fun x => by
  rw [codeEntry_setCode, codeEntry_setCode]
  split
  · exact ⟨rfl, fun _ => rfl⟩
  · exact h x

/-! ### Walks over the tree (R160, R180, R201) -/

section Trees

variable {a b : Engine} (hab : ArenaAlike a b)
include hab

/-- What an index in use names in two arenas that are read alike. -/
theorem nodeAt_alike {d e : Engine} (hd : SameArena a d) (he : SameArena b e) {i : BitVec 9}
    (hi : i.toNat < a.nodeCount.toNat) {n : Node} (hn : d.nodeAt i = some n) :
    ∃ m, e.nodeAt i = some m ∧ n.Alike m ∧
      (n.kind = .internal → n.left.toNat < a.nodeCount.toNat ∧ n.right.toNat < a.nodeCount.toNat) := by
  rw [Engine.nodeAt, hd.node] at hn
  obtain ⟨m, hm, hnm⟩ := hab.entry _ n hi hn
  exact ⟨m, by rw [Engine.nodeAt, he.node, hm], hnm, hab.children _ n hi hn⟩

theorem serNode_sim {P : Engine → Engine → Prop} (hP : WriterStable P)
    (hA : ∀ {d e : Engine}, P d e → SameArena a d ∧ SameArena b e) (depth : Nat) {i : BitVec 9}
    (hi : i.toNat < a.nodeCount.toNat) {s : State} {e : Engine} (h : P s.eng e) :
    Res.Sim (fun _ u => P u.eng) (serNode depth i s) (serNode depth i (s.setEng e)) := by
  induction depth generalizing i s e with
  | zero => exact .stuck
  | succ depth ih =>
    cases hn : s.eng.nodeAt i with
    | none => simp only [serNode, hn]; exact .stuck
    | some n =>
      obtain ⟨m, hm, hnm, hchildren⟩ := nodeAt_alike hab (hA h).1 (hA h).2 hi hn
      simp only [serNode, hn, State.setEng_eng, hm, hnm.kind]
      cases hk : n.kind with
      | leaf =>
        simp only [hnm.value hk]
        exact (writeBit_sim hP h true).bind fun _ _ _ hu => writeString_sim hP hu _
      | internal =>
        obtain ⟨hl, hr⟩ := hchildren hk
        simp only [hnm.left hk, hnm.right hk]
        exact ((writeBit_sim hP h false).bind fun _ _ _ hu => ih hl hu).bind fun _ _ _ hu => ih hr hu

theorem walkArena_sim {P : Engine → Engine → Prop} (hP : ReaderStable P)
    (hA : ∀ {d e : Engine}, P d e → SameArena a d ∧ SameArena b e) (steps : Nat) {i : BitVec 9}
    (hi : i.toNat < a.nodeCount.toNat) {s : State} {e : Engine} (h : P s.eng e) :
    Res.Sim (fun _ u => P u.eng) (walkArena steps i s) (walkArena steps i (s.setEng e)) := by
  induction steps generalizing i s e with
  | zero => exact .stuck
  | succ steps ih =>
    cases hn : s.eng.nodeAt i with
    | none => simp only [walkArena, hn]; exact .stuck
    | some n =>
      obtain ⟨m, hm, hnm, hchildren⟩ := nodeAt_alike hab (hA h).1 (hA h).2 hi hn
      simp only [walkArena, hn, State.setEng_eng, hm, hnm.kind]
      cases hk : n.kind with
      | leaf =>
        simp only [hnm.value hk]
        exact .ok rfl h
      | internal =>
        obtain ⟨hl, hr⟩ := hchildren hk
        simp only [hnm.left hk, hnm.right hk]
        refine (readBit_sim hP h).bind fun x u d hu => ?_
        cases x with
        | none => exact .ok rfl hu
        | some x => exact ih (by cases x <;> assumption) hu

/-- Two internal states on the way of phase C_DERIVE from `a` and `b`: only the code tables have changed, and they read
alike. -/
structure Deriving (a b d e : Engine) : Prop where
  left : d = { a with ct := d.ct }
  right : e = { b with ct := e.ct }
  codes : CodesAlike d e

omit hab in
theorem Deriving.arenas {d e : Engine} (h : Deriving a b d e) : SameArena a d ∧ SameArena b e := by
  rw [h.left, h.right]
  exact ⟨⟨rfl, rfl, rfl⟩, ⟨rfl, rfl, rfl⟩⟩

omit hab in
theorem Deriving.setCode {d e : Engine} (h : Deriving a b d e) (v : Byte) (c : CodeEntry) :
    Deriving a b (d.setCode v c) (e.setCode v c) where
  left := by rw [Engine.setCode, h.left]
  right := by rw [Engine.setCode, h.right]
  codes := h.codes.setCode v c

theorem derive_sim {depth : Nat} {i : BitVec 9} {path : Bits} {d e d' : Engine} (hi : i.toNat < a.nodeCount.toNat)
    (h : Deriving a b d e) (hd : derive depth i path d = some d') :
    ∃ e', derive depth i path e = some e' ∧ Deriving a b d' e' := by
  induction depth generalizing i path d e d' with
  | zero => simp [derive] at hd
  | succ depth ih =>
    cases hn : d.nodeAt i with
    | none => simp [derive, hn] at hd
    | some n =>
      obtain ⟨m, hm, hnm, hchildren⟩ := nodeAt_alike hab h.arenas.1 h.arenas.2 hi hn
      cases hk : n.kind with
      | leaf =>
        simp only [derive, hn, hk, Option.some.injEq] at hd
        subst hd
        simp only [derive, hm, hnm.kind, hk, hnm.value hk]
        exact ⟨_, rfl, h.setCode _ _⟩
      | internal =>
        obtain ⟨hl, hr⟩ := hchildren hk
        simp only [derive, hn, hk] at hd
        cases hdl : derive depth n.left (path ++ [false]) d with
        | none => simp [hdl] at hd
        | some d1 =>
          obtain ⟨e1, hel, h1⟩ := ih hl h hdl
          simp only [hdl] at hd
          obtain ⟨e2, her, h2⟩ := ih hr h1 hd
          refine ⟨e2, ?_, h2⟩
          simp only [derive, hm, hnm.kind, hk, hnm.left hk, hnm.right hk, hel, her]

end Trees

/-! ### The loops over the source bytes and over the symbols -/

/-- The counting loop reads FREQ and k (R141). -/
structure CountAlike (d e : Engine) : Prop where
  freq : e.freq = d.freq
  k : e.k = d.k

theorem countLoop_sim (n : Nat) {s : State} {e : Engine} (h : CountAlike s.eng e) :
    Res.Sim (fun _ u => CountAlike u.eng) (countLoop n s) (countLoop n (s.setEng e)) := by
  induction n generalizing s e with
  | zero => exact .ok rfl h
  | succ n ih =>
    simp only [countLoop, State.setEng_eng, h.k]
    refine (getByte_sim h _).bind fun b u d hu => ih (s := u.setEng _) ⟨?_, ?_⟩
    · simp only [State.setEng_eng, Engine.count, hu.freq]
    · simp only [State.setEng_eng, hu.k]

/-- The encoding loop reads the writer, the code table and k (R185). -/
structure EncodeAlike (d e : Engine) : Prop where
  w : e.w = d.w
  k : e.k = d.k
  codes : CodesAlike d e

theorem EncodeAlike.stable : WriterStable EncodeAlike where
  same h := h.w
  update _ h := ⟨rfl, h.k, h.codes⟩

theorem encodeLoop_sim (n : Nat) {s : State} {e : Engine} (h : EncodeAlike s.eng e) :
    Res.Sim (fun _ u => EncodeAlike u.eng) (encodeLoop n s) (encodeLoop n (s.setEng e)) := by
  induction n generalizing s e with
  | zero => exact .ok rfl h
  | succ n ih =>
    simp only [encodeLoop, State.setEng_eng, h.k]
    refine (getByte_sim h _).bind fun b u d hu => ?_
    obtain ⟨hvalid, hentry⟩ := hu.codes b
    simp only [State.setEng_eng, hvalid]
    split
    · next hv =>
      rw [hentry hv]
      exact (writeString_sim EncodeAlike.stable hu _).bind fun _ u d hu =>
        ih (s := u.setK _) ⟨hu.w, congrArg (· + 1) hu.k, hu.codes⟩
    · rw [hu.k]
      exact .raised (by decide) rfl

/-- The dump loop reads the writer and k (R231). -/
structure DumpAlike (d e : Engine) : Prop where
  w : e.w = d.w
  k : e.k = d.k

theorem DumpAlike.stable : WriterStable DumpAlike where
  same h := h.w
  update _ h := ⟨rfl, h.k⟩

theorem dumpLoop_sim (n : Nat) {s : State} {e : Engine} (h : DumpAlike s.eng e) :
    Res.Sim (fun _ u => DumpAlike u.eng) (dumpLoop n s) (dumpLoop n (s.setEng e)) := by
  induction n generalizing s e with
  | zero => exact .ok rfl h
  | succ n ih =>
    simp only [dumpLoop, State.setEng_eng, h.k]
    exact (getByte_sim h _).bind fun b u d hu => (dumpText_sim DumpAlike.stable hu _).bind fun _ u d hu =>
      ih (s := u.setK _) ⟨hu.w, congrArg (· + 1) hu.k⟩

/-- The decode loop reads both cursors, N, sym and the arenas, which stay those of `a` and `b` (R201). -/
structure DecodeAlike (a b d e : Engine) : Prop where
  left : SameArena a d
  right : SameArena b e
  w : e.w = d.w
  r : d.r.Alike e.r
  symCount : e.symCount = d.symCount
  sym : e.sym = d.sym

theorem DecodeAlike.writerStable (a b : Engine) : WriterStable (DecodeAlike a b) where
  same h := h.w
  update w h := ⟨h.left.setW w, h.right.setW w, rfl, h.r, h.symCount, h.sym⟩

theorem DecodeAlike.readerStable (a b : Engine) : ReaderStable (DecodeAlike a b) where
  same h := h.r
  update hr h := ⟨h.left.setR _, h.right.setR _, h.w, hr, h.symCount, h.sym⟩

theorem decodeLoop_sim {a b : Engine} (hab : ArenaAlike a b) (n : Nat) {s : State} {e : Engine}
    (h : DecodeAlike a b s.eng e) :
    Res.Sim (fun _ u => DecodeAlike a b u.eng) (decodeLoop n s) (decodeLoop n (s.setEng e)) := by
  induction n generalizing s e with
  | zero => exact .ok rfl h
  | succ n ih =>
    have hroot : e.root = s.eng.root := by rw [h.left.root, h.right.root, hab.root]
    have hused : s.eng.root.toNat < a.nodeCount.toNat := by rw [h.left.root]; exact hab.rootUsed
    simp only [decodeLoop, State.setEng_eng, hroot]
    refine (walkArena_sim hab (DecodeAlike.readerStable a b) (fun h => ⟨h.left, h.right⟩) (bitBound s) hused h).bind
      fun x u d hu => ?_
    cases x with
    | none =>
      simp only [State.setEng_eng, hu.sym]
      exact .raised (by decide) rfl
    | some v =>
      refine (putByte_sim (DecodeAlike.writerStable a b) hu v).bind fun _ u d hu => ih (s := u.setSym _) ?_
      exact ⟨hu.left.setSym _, hu.right.setSym _, hu.w, hu.r, hu.symCount, congrArg (· + 1) hu.sym⟩

end Sys2Proof.Machine

namespace Sys2Proof.Machine

/-! ## Family 10_state: phase C_BUILD builds an arena, and reads of the internal state only FREQ

`BuildAlike` is the invariant of the arena under construction and the relation of two of them at once. -/

/-! ### One new entry -/

theorem updNode_eq (e : Engine) (i : Nat) (f : Node → Node) :
    e.updNode i f = { e with node := (e.updNode i f).node } := by
  unfold Engine.updNode
  split <;> rfl

theorem getElem?_updNode_node (e : Engine) (i j : Nat) (f : Node → Node) :
    (e.updNode i f).node[j]? = if i = j then e.node[j]?.map f else e.node[j]? := by
  unfold Engine.updNode
  split
  · next n hn =>
    simp only [Vector.getElem?_setIfInBounds]
    split
    · next hij =>
      subst hij
      have hi : i < 511 := by
        by_contra hge
        simp [Vector.getElem?_eq_none (Nat.le_of_not_lt hge)] at hn
      rw [if_pos hi, hn]
      rfl
    · rfl
  · next hn =>
    split
    · next hij => rw [← hij, hn]; rfl
    · rfl

/-- A new entry at index `node_count`, in the working set: what R142, R143 and R145 do alike. -/
def Engine.addEntry (e : Engine) (f : Node → Node) : Engine :=
  let e' := (e.updNode e.nodeCount.toNat f).setAlive e.nodeCount.toNat true
  { e' with nodeCount := e'.nodeCount + 1 }

theorem addLeaf_eq_addEntry (e : Engine) (v : Byte) (weight : Word) :
    e.addLeaf v weight = e.addEntry fun n => { n with kind := .leaf, value := v, weight := weight } := rfl

theorem addInternal_eq_addEntry (e : Engine) (left right : Nat) (weight : Word) :
    e.addInternal left right weight = e.addEntry fun n =>
      { n with kind := .internal, left := BitVec.ofNat 9 left, right := BitVec.ofNat 9 right, weight := weight } := rfl

theorem addEntry_nodeCount (e : Engine) (f : Node → Node) : (e.addEntry f).nodeCount = e.nodeCount + 1 := by
  rw [Engine.addEntry, Engine.setAlive, updNode_eq]

theorem addEntry_nodeCount_toNat {e : Engine} (f : Node → Node) (h : e.nodeCount.toNat < Config.nodeCap) :
    (e.addEntry f).nodeCount.toNat = e.nodeCount.toNat + 1 := by
  rw [Config.nodeCap] at h
  rw [addEntry_nodeCount, BitVec.toNat_add, Nat.mod_eq_of_lt (by simp; omega)]
  rfl

theorem addEntry_alive (e : Engine) (f : Node → Node) :
    (e.addEntry f).alive = e.alive.setIfInBounds e.nodeCount.toNat true := by
  rw [Engine.addEntry, Engine.setAlive, updNode_eq]

theorem getElem?_addEntry_node (e : Engine) (f : Node → Node) (j : Nat) :
    (e.addEntry f).node[j]? = if e.nodeCount.toNat = j then e.node[j]?.map f else e.node[j]? :=
  getElem?_updNode_node e e.nodeCount.toNat j f

/-! ### The arena under construction -/

/-- Two arenas under construction: the entries in use read alike, with their weights, the children of an entry are at
lower indices, and the working set is the same and holds only entries in use. -/
structure BuildAlike (d e : Engine) : Prop where
  fits : d.nodeCount.toNat ≤ Config.nodeCap
  nodeCount : e.nodeCount = d.nodeCount
  alive : e.alive = d.alive
  aliveUsed : ∀ i : Nat, d.alive[i]? = some true → i < d.nodeCount.toNat
  entry : ∀ (i : Nat) (n : Node), i < d.nodeCount.toNat → d.node[i]? = some n →
    ∃ m, e.node[i]? = some m ∧ n.Alike m ∧ m.weight = n.weight
  childrenBelow : ∀ (i : Nat) (n : Node), i < d.nodeCount.toNat → d.node[i]? = some n → n.kind = .internal →
    n.left.toNat < i ∧ n.right.toNat < i

/-- An update that gives any two entries the same contents. -/
def SetsEntry (f : Node → Node) : Prop := ∀ n m : Node, (f n).Alike (f m) ∧ (f m).weight = (f n).weight

theorem setsEntry_leaf (v : Byte) (weight : Word) :
    SetsEntry fun n => { n with kind := .leaf, value := v, weight := weight } :=
  fun _ _ => ⟨⟨rfl, fun _ => rfl, nofun, nofun⟩, rfl⟩

theorem setsEntry_internal (l r : BitVec 9) (weight : Word) :
    SetsEntry fun n => { n with kind := .internal, left := l, right := r, weight := weight } :=
  fun _ _ => ⟨⟨rfl, nofun, fun _ => rfl, fun _ => rfl⟩, rfl⟩

namespace BuildAlike

variable {d e : Engine} (h : BuildAlike d e)
include h

theorem addEntry (hlt : d.nodeCount.toNat < Config.nodeCap) {f : Node → Node} (hf : SetsEntry f)
    (hchildren : ∀ n, (f n).kind = .internal →
      (f n).left.toNat < d.nodeCount.toNat ∧ (f n).right.toNat < d.nodeCount.toNat) :
    BuildAlike (d.addEntry f) (e.addEntry f) := by
  have hcount := addEntry_nodeCount_toNat f hlt
  constructor
  · omega
  · rw [addEntry_nodeCount, addEntry_nodeCount, h.nodeCount]
  · rw [addEntry_alive, addEntry_alive, h.alive, h.nodeCount]
  · intro i hi
    rw [addEntry_alive, Vector.getElem?_setIfInBounds] at hi
    split at hi
    · omega
    · have := h.aliveUsed i hi
      omega
  · intro i n hi hn
    rw [getElem?_addEntry_node] at hn ⊢
    rw [h.nodeCount]
    split at hn
    · next hnew =>
      obtain ⟨n0, -, rfl⟩ := Option.map_eq_some_iff.1 hn
      have hi' : i < 511 := hnew ▸ hlt
      rw [if_pos hnew, Vector.getElem?_eq_getElem hi']
      exact ⟨_, rfl, hf n0 _⟩
    · next hold =>
      rw [if_neg hold]
      exact h.entry i n (by omega) hn
  · intro i n hi hn hk
    rw [getElem?_addEntry_node] at hn
    split at hn
    · next hnew =>
      obtain ⟨n0, -, rfl⟩ := Option.map_eq_some_iff.1 hn
      exact hnew ▸ hchildren n0 hk
    · exact h.childrenBelow i n (by omega) hn hk

theorem addLeaf (hlt : d.nodeCount.toNat < Config.nodeCap) (v : Byte) (weight : Word) :
    BuildAlike (d.addLeaf v weight) (e.addLeaf v weight) := by
  rw [addLeaf_eq_addEntry, addLeaf_eq_addEntry]
  exact h.addEntry hlt (setsEntry_leaf v weight) nofun

theorem removeAlive (i : Nat) : BuildAlike (d.setAlive i false) (e.setAlive i false) where
  fits := h.fits
  nodeCount := h.nodeCount
  alive := by rw [Engine.setAlive, Engine.setAlive, h.alive]
  aliveUsed j hj := by
    simp only [Engine.setAlive, Vector.getElem?_setIfInBounds] at hj
    split at hj
    · split at hj <;> simp at hj
    · exact h.aliveUsed j hj
  entry := h.entry
  childrenBelow := h.childrenBelow

end BuildAlike

/-! ### The least alive entry (R145) -/

/-- What the scan reads of an entry: its weight, when it is alive. -/
def scanKey (p : Bool × Node) : Option Word := if p.1 then some p.2.weight else none

theorem scanMin_congr {l l' : List (Bool × Node)} (h : l.map scanKey = l'.map scanKey) (i : Nat)
    (best : Option (Nat × Word)) : scanMin l i best = scanMin l' i best := by
  induction l generalizing l' i best with
  | nil => rw [List.map_eq_nil_iff.1 h.symm]
  | cons p l ih =>
    cases l' with
    | nil => simp at h
    | cons q l' =>
      obtain ⟨alive, n⟩ := p
      obtain ⟨alive', m⟩ := q
      simp only [List.map_cons, List.cons.injEq] at h
      obtain ⟨hkey, hrest⟩ := h
      simp only [scanMin]
      rw [ih hrest]
      congr 1
      cases alive <;> cases alive' <;> simp [scanKey] at hkey ⊢
      · cases best <;> rfl
      · simp [hkey]

/-- What the scan finds is what it had found before, or an alive entry. -/
theorem scanMin_some {l : List (Bool × Node)} {i : Nat} {best : Option (Nat × Word)} {m : Nat × Word}
    (h : scanMin l i best = some m) : best = some m ∨ ∃ n j, m.1 = i + j ∧ l[j]? = some (true, n) := by
  induction l generalizing i best with
  | nil => exact .inl h
  | cons p l ih =>
    obtain ⟨alive, n⟩ := p
    simp only [scanMin] at h
    rcases ih h with hb | ⟨n', j, hj, hl⟩
    · cases best with
      | none =>
        cases alive with
        | true => exact .inr ⟨n, 0, by cases hb; rfl, rfl⟩
        | false => exact .inl hb
      | some b =>
        dsimp only at hb
        split at hb
        · next hbetter =>
          obtain ⟨rfl, -⟩ := Bool.and_eq_true_iff.1 hbetter
          exact .inr ⟨n, 0, by cases hb; rfl, rfl⟩
        · exact .inl hb
    · exact .inr ⟨n', j + 1, by omega, by simpa using hl⟩

theorem minAlive_alive {e : Engine} {m : Nat × Word} (h : e.minAlive = some m) : e.alive[m.1]? = some true := by
  rcases scanMin_some h with h | ⟨n, j, hj, hl⟩
  · simp at h
  · rw [List.getElem?_zip_eq_some] at hl
    rw [hj, Nat.zero_add, ← Vector.getElem?_toList]
    exact hl.1

theorem BuildAlike.minAlive_eq {d e : Engine} (h : BuildAlike d e) : e.minAlive = d.minAlive := by
  refine scanMin_congr (List.ext_getElem (by simp) fun i hi hi' => ?_) 0 none
  have hi511 : i < 511 := by simpa using hi
  simp only [List.getElem_map, List.getElem_zip, Vector.getElem_toList, scanKey, h.alive]
  split
  · next halive =>
    have hused : i < d.nodeCount.toNat := h.aliveUsed i (by rw [Vector.getElem?_eq_getElem hi511, halive])
    obtain ⟨m, hm, -, hweight⟩ := h.entry i d.node[i] hused (Vector.getElem?_eq_getElem hi511)
    rw [Vector.getElem?_eq_getElem hi511, Option.some.injEq] at hm
    rw [hm, hweight]
  · rfl

theorem takeMin_sim {d e d' : Engine} {m : Nat × Word} (h : BuildAlike d e) (hd : d.takeMin = some (m, d')) :
    ∃ e', e.takeMin = some (m, e') ∧ BuildAlike d' e' ∧ d'.nodeCount = d.nodeCount ∧ m.1 < d.nodeCount.toNat := by
  simp only [Engine.takeMin, h.minAlive_eq] at hd ⊢
  cases hm : d.minAlive with
  | none => simp [hm] at hd
  | some m' =>
    simp only [hm, Option.some.injEq, Prod.mk.injEq] at hd ⊢
    obtain ⟨rfl, rfl⟩ := hd
    exact ⟨_, ⟨rfl, rfl⟩, h.removeAlive _, rfl, h.aliveUsed _ (minAlive_alive hm)⟩

/-! ### Merges (R145, R147) -/

/-- The last entry in use is an internal node. -/
def LastInternal (e : Engine) : Prop := ∃ n, e.node[e.nodeCount.toNat - 1]? = some n ∧ n.kind = .internal

theorem lastInternal_addInternal {e : Engine} (hlt : e.nodeCount.toNat < Config.nodeCap) (l r : Nat) (w : Word) :
    LastInternal (e.addInternal l r w) := by
  have hlt' : e.nodeCount.toNat < 511 := hlt
  rw [addInternal_eq_addEntry, LastInternal, addEntry_nodeCount_toNat _ hlt, getElem?_addEntry_node, if_pos (by omega),
    Nat.add_sub_cancel, Vector.getElem?_eq_getElem hlt']
  exact ⟨_, rfl, rfl⟩

theorem mergeOnce_sim {d e d' : Engine} (h : BuildAlike d e) (hlt : d.nodeCount.toNat < Config.nodeCap)
    (hd : mergeOnce d = some d') :
    ∃ e', mergeOnce e = some e' ∧ BuildAlike d' e' ∧ d'.nodeCount.toNat = d.nodeCount.toNat + 1 ∧ LastInternal d' := by
  unfold mergeOnce at hd
  cases ha : d.takeMin with
  | none => simp [ha] at hd
  | some p =>
    obtain ⟨a, d1⟩ := p
    obtain ⟨e1, hea, h1, hcount1, haused⟩ := takeMin_sim h ha
    simp only [ha] at hd
    cases hc : d1.takeMin with
    | none => simp [hc] at hd
    | some p =>
      obtain ⟨c, d2⟩ := p
      obtain ⟨e2, hec, h2, hcount2, hcused⟩ := takeMin_sim h1 hc
      simp only [hc, Option.some.injEq] at hd
      subst hd
      have hcount : d2.nodeCount = d.nodeCount := hcount2.trans hcount1
      have hlt2 : d2.nodeCount.toNat < Config.nodeCap := by rwa [hcount]
      rw [hcount1, ← hcount] at hcused
      rw [← hcount] at haused
      refine ⟨e2.addInternal a.1 c.1 (a.2 + c.2), by simp only [mergeOnce, hea, hec], ?_, ?_,
        lastInternal_addInternal hlt2 _ _ _⟩
      · rw [addInternal_eq_addEntry, addInternal_eq_addEntry]
        have hcap : d2.nodeCount.toNat < 511 := hlt2
        refine h2.addEntry hlt2 (setsEntry_internal _ _ _) fun n _ => ?_
        simp only [BitVec.toNat_ofNat]
        rw [Nat.mod_eq_of_lt (by omega), Nat.mod_eq_of_lt (by omega)]
        exact ⟨haused, hcused⟩
      · rw [addInternal_eq_addEntry, addEntry_nodeCount_toNat _ hlt2, hcount]

theorem mergeTimes_sim {n : Nat} {d e d' : Engine} (h : BuildAlike d e) (hfit : d.nodeCount.toNat + n ≤ Config.nodeCap)
    (hlast : n = 0 → LastInternal d) (hd : mergeTimes n d = some d') :
    ∃ e', mergeTimes n e = some e' ∧ BuildAlike d' e' ∧ d'.nodeCount.toNat = d.nodeCount.toNat + n ∧
      LastInternal d' := by
  induction n generalizing d e with
  | zero =>
    simp only [mergeTimes, Option.some.injEq] at hd
    subst hd
    exact ⟨e, rfl, h, rfl, hlast rfl⟩
  | succ n ih =>
    rw [mergeTimes] at hd
    cases hm : mergeOnce d with
    | none => simp [hm] at hd
    | some d1 =>
      obtain ⟨e1, he, h1, hcount, hlast1⟩ := mergeOnce_sim h (by omega) hm
      simp only [hm] at hd
      obtain ⟨e', he', h', hcount', hlast'⟩ := ih h1 (by omega) (fun _ => hlast1) hd
      exact ⟨e', by rw [mergeTimes, he]; exact he', h', by omega, hlast'⟩

/-! ### Leaves (R142 to R144) -/

theorem addLeaf_nodeCount_toNat {e : Engine} (h : e.nodeCount.toNat < Config.nodeCap) (v : Byte) (w : Word) :
    (e.addLeaf v w).nodeCount.toNat = e.nodeCount.toNat + 1 := by
  rw [addLeaf_eq_addEntry, addEntry_nodeCount_toNat _ h]

theorem addLeaves_sim {cs : List Word} {v : Nat} {d e : Engine} (h : BuildAlike d e)
    (hfit : d.nodeCount.toNat + cs.length ≤ Config.nodeCap) :
    BuildAlike (addLeaves cs v d) (addLeaves cs v e) ∧
      (addLeaves cs v d).nodeCount.toNat ≤ d.nodeCount.toNat + cs.length := by
  induction cs generalizing v d e with
  | nil => exact ⟨h, Nat.le_refl _⟩
  | cons c cs ih =>
    simp only [addLeaves]
    rw [List.length_cons] at hfit ⊢
    split
    · have hcount := addLeaf_nodeCount_toNat (e := d) (by omega) (BitVec.ofNat 8 v) c
      obtain ⟨h', hle⟩ := ih (v := v + 1) (h.addLeaf (by omega) (BitVec.ofNat 8 v) c) (by omega)
      exact ⟨h', by omega⟩
    · obtain ⟨h', hle⟩ := ih (v := v + 1) h (by omega)
      exact ⟨h', by omega⟩

theorem addDummies_sim {n : Nat} {d e : Engine} (h : BuildAlike d e) :
    BuildAlike (addDummies n d) (addDummies n e) ∧
      (addDummies n d).nodeCount.toNat ≤ max 2 d.nodeCount.toNat ∧
      min 2 (d.nodeCount.toNat + n) ≤ (addDummies n d).nodeCount.toNat := by
  induction n generalizing d e with
  | zero => exact ⟨h, Nat.le_max_right _ _, Nat.min_le_right _ _⟩
  | succ n ih =>
    simp only [addDummies, h.nodeCount]
    split
    · next hlt =>
      have hlt2 : d.nodeCount.toNat < 2 := hlt
      have hcap : d.nodeCount.toNat < Config.nodeCap := by rw [Config.nodeCap]; omega
      have hcount := addLeaf_nodeCount_toNat hcap 0 0
      obtain ⟨h', hle, hge⟩ := ih (h.addLeaf hcap 0 0)
      exact ⟨h', by omega, by omega⟩
    · next hge =>
      have hge2 : 2 ≤ d.nodeCount.toNat := Nat.le_of_not_lt hge
      exact ⟨h, by omega, by omega⟩

theorem buildLeaves_sim {d e : Engine} (hfreq : e.freq = d.freq) :
    BuildAlike (buildLeaves d) (buildLeaves e) ∧ 2 ≤ (buildLeaves d).nodeCount.toNat ∧
      (buildLeaves d).nodeCount.toNat ≤ Config.maxLeaves := by
  have hempty : BuildAlike { d with alive := .replicate 511 false, nodeCount := 0 }
      { e with alive := .replicate 511 false, nodeCount := 0 } := by
    refine ⟨Nat.zero_le _, rfl, rfl, fun i hi => ?_, fun i n hi => absurd hi (Nat.not_lt_zero i),
      fun i n hi => absurd hi (Nat.not_lt_zero i)⟩
    simp [Vector.getElem?_replicate] at hi
  have hlen : d.freq.toList.length = 256 := by simp
  obtain ⟨h1, hle1⟩ := addLeaves_sim (cs := d.freq.toList) (v := 0) hempty
    (by rw [hlen]; exact show 0 + 256 ≤ 511 by decide)
  obtain ⟨h2, hle2, hge2⟩ := addDummies_sim (n := 2) h1
  rw [hlen] at hle1
  replace hle1 : _ ≤ 0 + 256 := hle1
  have hright : buildLeaves e = addDummies 2 (addLeaves d.freq.toList 0
      { e with alive := .replicate 511 false, nodeCount := 0 }) := by
    rw [buildLeaves, ← hfreq]
  rw [hright, Config.maxLeaves]
  refine ⟨h2, ?_, ?_⟩
  · rw [buildLeaves]; omega
  · rw [buildLeaves]; omega

/-! ### The whole phase -/

theorem buildArena_sim {d e d' : Engine} (hfreq : e.freq = d.freq) (hd : buildArena d = some d') :
    ∃ e', buildArena e = some e' ∧ ArenaBuilt d' ∧ ArenaAlike d' e' := by
  obtain ⟨hleaves, hge, hle⟩ := buildLeaves_sim hfreq
  rw [Config.maxLeaves] at hle
  simp only [buildArena, hleaves.nodeCount] at hd ⊢
  cases hm : mergeTimes ((buildLeaves d).nodeCount.toNat - 1) (buildLeaves d) with
  | none => simp [hm] at hd
  | some d1 =>
    obtain ⟨e1, he, h1, hcount, n, hn, hk⟩ := mergeTimes_sim hleaves (by rw [Config.nodeCap]; omega) (by omega) hm
    simp only [hm, Option.some.injEq] at hd
    subst hd
    simp only [he]
    have hfits : d1.nodeCount.toNat ≤ 511 := h1.fits
    have hpos : 1 ≤ d1.nodeCount.toNat := by omega
    have hroot : ((d1.nodeCount - 1).setWidth 9).toNat = d1.nodeCount.toNat - 1 := by
      have hone : BitVec.toNat (1 : BitVec 10) = 1 := rfl
      rw [BitVec.toNat_setWidth, BitVec.toNat_sub_of_le (by rw [BitVec.le_def]; exact hpos), hone]
      omega
    have hbuilt : ArenaBuilt { d1 with root := (d1.nodeCount - 1).setWidth 9 } :=
      ⟨h1.fits, ⟨n, by rw [Engine.nodeAt, hroot]; exact hn, hk⟩,
        by rw [hroot]; exact Nat.sub_one_lt_of_le hpos (Nat.le_refl _), h1.childrenBelow⟩
    refine ⟨_, rfl, hbuilt, h1.nodeCount, by rw [h1.nodeCount], hbuilt.rootUsed, fun i n hi hn => ?_,
      hbuilt.alike.children⟩
    obtain ⟨m, hm, hnm, -⟩ := h1.entry i n hi hn
    exact ⟨m, hm, hnm⟩

end Sys2Proof.Machine

namespace Sys2Proof.Machine

/-! ## Family 10_state: phase D_TREE reads an arena, and of the internal state only the reader (R162, R163) -/

/-- What two runs of DesNode share: the reader, the writer, N, and how many entries are in use. -/
structure ReadAlike (d e : Engine) : Prop where
  w : e.w = d.w
  r : d.r.Alike e.r
  symCount : e.symCount = d.symCount
  nodeCount : e.nodeCount = d.nodeCount
  fits : d.nodeCount.toNat ≤ Config.nodeCap

/-- The reader has moved on in both runs, and no entry has been written. -/
structure ReadOn (a b d e : Engine) : Prop where
  alike : ReadAlike d e
  left : SameArena a d
  right : SameArena b e

theorem ReadOn.stable (a b : Engine) : ReaderStable (ReadOn a b) where
  same h := h.alike.r
  update hr h := ⟨⟨h.alike.w, hr, h.alike.symCount, h.alike.nodeCount, h.alike.fits⟩,
    h.left.setR _, h.right.setR _⟩

/-- Entry j is read alike in both arenas, and its children are above it and below `count`. -/
def EntryAbove (count : Nat) (d e : Engine) (j : Nat) : Prop :=
  ∃ n m, d.node[j]? = some n ∧ e.node[j]? = some m ∧ n.Alike m ∧
    (n.kind = .internal → j < n.left.toNat ∧ n.left.toNat < count ∧ j < n.right.toNat ∧ n.right.toNat < count)

theorem EntryAbove.of_same {count count' : Nat} {d e d' e' : Engine} {j : Nat} (h : EntryAbove count d e j)
    (hcount : count ≤ count') (hd : d'.node[j]? = d.node[j]?) (he : e'.node[j]? = e.node[j]?) :
    EntryAbove count' d' e' j := by
  obtain ⟨n, m, hn, hm, hnm, hchildren⟩ := h
  refine ⟨n, m, hd.trans hn, he.trans hm, hnm, fun hk => ?_⟩
  obtain ⟨h1, h2, h3, h4⟩ := hchildren hk
  omega

/-- What DesNode has done to two internal states `d` and `e` when it returns index `l`: it has written the entries from
`node_count` on, the first of them being `l`, and no others. -/
structure SubtreeRead (isRoot : Bool) (d e : Engine) (l : BitVec 9) (d' e' : Engine) : Prop where
  alike : ReadAlike d' e'
  index : l.toNat = d.nodeCount.toNat
  grows : d.nodeCount.toNat < d'.nodeCount.toNat
  keepsLeft : ∀ j < d.nodeCount.toNat, d'.node[j]? = d.node[j]?
  keepsRight : ∀ j < d.nodeCount.toNat, e'.node[j]? = e.node[j]?
  entries : ∀ j, d.nodeCount.toNat ≤ j → j < d'.nodeCount.toNat → EntryAbove d'.nodeCount.toNat d' e' j
  root : isRoot = true → ∃ n, d'.node[l.toNat]? = some n ∧ n.kind = .internal

theorem nodeCount_add_one_toNat {e : Engine} (h : e.nodeCount.toNat < Config.nodeCap) :
    (e.nodeCount + 1).toNat = e.nodeCount.toNat + 1 := by
  rw [Config.nodeCap] at h
  rw [BitVec.toNat_add, Nat.mod_eq_of_lt (by simp; omega)]
  rfl

theorem ReadAlike.updNode {d e : Engine} (h : ReadAlike d e) (i : Nat) (f : Node → Node) :
    ReadAlike (d.updNode i f) (e.updNode i f) := by
  rw [updNode_eq d, updNode_eq e]
  exact ⟨h.w, h.r, h.symCount, h.nodeCount, h.fits⟩

theorem updNode_nodeCount (e : Engine) (i : Nat) (f : Node → Node) : (e.updNode i f).nodeCount = e.nodeCount := by
  rw [updNode_eq]

/-- One more entry in use, nothing written to it. -/
theorem ReadAlike.alloc {d e : Engine} (h : ReadAlike d e) (hlt : d.nodeCount.toNat < Config.nodeCap) :
    ReadAlike { d with nodeCount := d.nodeCount + 1 } { e with nodeCount := e.nodeCount + 1 } :=
  ⟨h.w, h.r, h.symCount, congrArg (· + 1) h.nodeCount, by
    show (d.nodeCount + 1).toNat ≤ Config.nodeCap
    rw [nodeCount_add_one_toNat hlt]
    exact hlt⟩

/-- An update of an entry that gives both runs the same contents there. -/
theorem entryAbove_updNode {count i : Nat} {d e : Engine} {f : Node → Node} (hi : i < Config.nodeCap)
    (hf : ∀ n m, (f n).Alike (f m))
    (hchildren : ∀ n, (f n).kind = .internal →
      i < (f n).left.toNat ∧ (f n).left.toNat < count ∧ i < (f n).right.toNat ∧ (f n).right.toNat < count) :
    EntryAbove count (d.updNode i f) (e.updNode i f) i := by
  rw [Config.nodeCap] at hi
  refine ⟨f d.node[i], f e.node[i], ?_, ?_, hf _ _, hchildren _⟩
  all_goals rw [getElem?_updNode_node, if_pos rfl, Vector.getElem?_eq_getElem hi]; rfl

/-- A leaf read at index `node_count`: it is the whole subtree. -/
theorem subtreeRead_leaf {d e d' e' : Engine} (h : ReadAlike d' e') (hlt : d.nodeCount.toNat < Config.nodeCap)
    (hd : d'.node = d.node) (he : e'.node = e.node) (hcount : d'.nodeCount = d.nodeCount + 1) (v : Byte) :
    SubtreeRead false d e (BitVec.ofNat 9 d.nodeCount.toNat) (d'.setLeaf d.nodeCount.toNat v)
      (e'.setLeaf d.nodeCount.toNat v) := by
  have hcap : d.nodeCount.toNat < 511 := hlt
  have hnew : (d'.setLeaf d.nodeCount.toNat v).nodeCount.toNat = d.nodeCount.toNat + 1 := by
    rw [Engine.setLeaf, updNode_nodeCount, hcount, nodeCount_add_one_toNat hlt]
  constructor
  · exact h.updNode _ _
  · rw [BitVec.toNat_ofNat, Nat.mod_eq_of_lt (by omega)]
  · omega
  · intro j hj
    rw [Engine.setLeaf, getElem?_updNode_node, if_neg (by omega), hd]
  · intro j hj
    rw [Engine.setLeaf, getElem?_updNode_node, if_neg (by omega), he]
  · intro j hge hj
    obtain rfl : j = d.nodeCount.toNat := by omega
    exact entryAbove_updNode hlt (fun _ _ => ⟨rfl, fun _ => rfl, nofun, nofun⟩) nofun
  · nofun

/-- An internal node read at index `node_count`, after the subtrees of its children. -/
theorem subtreeRead_internal {isRoot : Bool} {a b d0 e0 d1 e1 d2 e2 : Engine} {l r : BitVec 9}
    (hlt : a.nodeCount.toNat < Config.nodeCap) (hd : d0.node = a.node) (he : e0.node = b.node)
    (hcount : d0.nodeCount = a.nodeCount + 1)
    (hl : SubtreeRead false d0 e0 l d1 e1) (hr : SubtreeRead false d1 e1 r d2 e2) :
    SubtreeRead isRoot a b (BitVec.ofNat 9 a.nodeCount.toNat) (d2.setInternal a.nodeCount.toNat l r)
      (e2.setInternal a.nodeCount.toNat l r) := by
  have hcap : a.nodeCount.toNat < 511 := hlt
  have h0 : d0.nodeCount.toNat = a.nodeCount.toNat + 1 := by rw [hcount, nodeCount_add_one_toNat hlt]
  have hindex : (BitVec.ofNat 9 a.nodeCount.toNat).toNat = a.nodeCount.toNat := by
    rw [BitVec.toNat_ofNat, Nat.mod_eq_of_lt (by omega)]
  have hnew : (d2.setInternal a.nodeCount.toNat l r).nodeCount.toNat = d2.nodeCount.toNat := by
    rw [Engine.setInternal, updNode_nodeCount]
  have hl1 := hl.index
  have hl2 := hl.grows
  have hr1 := hr.index
  have hr2 := hr.grows
  have hsame : ∀ (x : Engine) (j : Nat), a.nodeCount.toNat ≠ j →
      (x.setInternal a.nodeCount.toNat l r).node[j]? = x.node[j]? := fun x j hj => by
    rw [Engine.setInternal, getElem?_updNode_node, if_neg hj]
  constructor
  · exact hr.alike.updNode _ _
  · exact hindex
  · omega
  · intro j hj
    rw [hsame _ _ (by omega), hr.keepsLeft j (by omega), hl.keepsLeft j (by omega), hd]
  · intro j hj
    rw [hsame _ _ (by omega), hr.keepsRight j (by omega), hl.keepsRight j (by omega), he]
  · intro j hge hj
    rw [hnew] at hj ⊢
    rcases Nat.lt_or_ge j d1.nodeCount.toNat with hj1 | hj1
    · rcases Nat.eq_or_lt_of_le hge with rfl | hgt
      · exact entryAbove_updNode hlt (fun _ _ => ⟨rfl, nofun, fun _ => rfl, fun _ => rfl⟩) fun n _ => by
          dsimp only
          omega
      · exact (hl.entries j (by omega) hj1).of_same (by omega)
          ((hsame _ _ (by omega)).trans (hr.keepsLeft j hj1)) ((hsame _ _ (by omega)).trans (hr.keepsRight j hj1))
    · exact (hr.entries j hj1 hj).of_same (Nat.le_refl _) (hsame _ _ (by omega)) (hsame _ _ (by omega))
  · intro _
    rw [hindex, Engine.setInternal, getElem?_updNode_node, if_pos rfl, Vector.getElem?_eq_getElem hcap]
    exact ⟨_, rfl, rfl⟩

theorem desNode_sim (depth : Nat) (isRoot : Bool) {s : State} {e : Engine} (h : ReadAlike s.eng e) :
    Res.Sim (fun l u => SubtreeRead isRoot s.eng e l u.eng) (desNode depth isRoot s)
      (desNode depth isRoot (s.setEng e)) := by
  induction depth generalizing isRoot s e with
  | zero => exact .stuck
  | succ depth ih =>
    rw [desNode, desNode]
    refine (readBit_sim (ReadOn.stable s.eng e) ⟨h, .refl _, .refl _⟩).bind fun x u d hu => ?_
    cases x with
    | none => exact .raised (by decide) rfl
    | some x =>
      simp only [State.setEng_eng, hu.alike.nodeCount]
      split
      · exact .raised (by decide) rfl
      · next hroot =>
        split
        · exact .raised (by decide) rfl
        · next hne =>
          have hlt : u.eng.nodeCount.toNat < Config.nodeCap := Nat.lt_of_le_of_ne hu.alike.fits hne
          have hcount : s.eng.nodeCount = u.eng.nodeCount := hu.left.nodeCount.symm
          have halloc : ReadAlike (allocNode u).eng { d with nodeCount := d.nodeCount + 1 } := hu.alike.alloc hlt
          cases x with
          | true =>
            obtain rfl : isRoot = false := by simpa using hroot
            refine (readBits_sim (ReadOn.stable _ _) Config.symW ⟨halloc, .refl _, .refl _⟩).bind fun v w f hw => ?_
            cases v with
            | none => exact .raised (by decide) rfl
            | some v =>
              refine .ok rfl ?_
              rw [← hcount] at hlt ⊢
              exact subtreeRead_leaf hw.alike hlt (hw.left.node.trans hu.left.node) (hw.right.node.trans hu.right.node)
                (hw.left.nodeCount.trans (congrArg (· + 1) hcount.symm)) _
          | false =>
            refine (ih false halloc).bind fun l w f hl => (ih false hl.alike).bind fun r w' f' hr => .ok rfl ?_
            rw [← hcount] at hlt ⊢
            exact subtreeRead_internal (d0 := (allocNode u).eng) (e0 := { d with nodeCount := d.nodeCount + 1 }) hlt
              hu.left.node hu.right.node (congrArg (· + 1) hcount.symm) hl hr

/-- The whole of D_TREE: the arena is a deserialized tree's, and both runs read it alike (R163). -/
theorem SubtreeRead.arena {d e d' e' : Engine} {root : BitVec 9} (h0 : d.nodeCount = 0)
    (h : SubtreeRead true d e root d' e') :
    ArenaRead { d' with root := root } ∧ ArenaAlike { d' with root := root } { e' with root := root } := by
  have hzero : d.nodeCount.toNat = 0 := by rw [h0]; rfl
  have hgrows := h.grows
  have hindex := h.index
  have hread : ArenaRead { d' with root := root } := by
    refine ⟨h.alike.fits, h.root rfl, show root.toNat < d'.nodeCount.toNat by omega, fun i n hi hn hk => ?_⟩
    obtain ⟨n', _, hn', _, _, hchildren⟩ := h.entries i (by omega) hi
    obtain rfl : n' = n := Option.some.inj (hn'.symm.trans hn)
    exact hchildren hk
  refine ⟨hread, h.alike.nodeCount, rfl, hread.rootUsed, fun i n hi hn => ?_, hread.alike.children⟩
  obtain ⟨n', m, hn', hm, hnm, -⟩ := h.entries i (by omega) hi
  obtain rfl : n' = n := Option.some.inj (hn'.symm.trans hn)
  exact ⟨m, hm, hnm⟩

end Sys2Proof.Machine

namespace Sys2Proof.Machine

/-! ## Family 10_state: no outcome depends on the internal state a command starts from (spec/10_state.md R50) -/

/-- What a phase reads of the internal state, which the phases before it have made the same. -/
def PhaseAlike (p : Phase) (d e : Engine) : Prop :=
  match p with
  | .idle | .cCount | .dHeader | .xDump => True
  | .cBuild => e.freq = d.freq
  | .cHeader => ArenaBuilt d ∧ ArenaAlike d e
  | .cTree | .cDerive => e.w = d.w ∧ ArenaBuilt d ∧ ArenaAlike d e
  | .cEncode => e.w = d.w ∧ CodesAlike d e
  | .cFlush => e.w = d.w
  | .dTree => e.w = d.w ∧ d.r.Alike e.r ∧ e.symCount = d.symCount
  | .dDecode => e.w = d.w ∧ d.r.Alike e.r ∧ e.symCount = d.symCount ∧ ArenaRead d ∧ ArenaAlike d e

/-- After a phase: the next phase finds alike what it reads. -/
def NextAlike (_ : Unit) (u : State) (d : Engine) : Prop := PhaseAlike u.phase u.eng d

section Phases

variable {s : State} {e : Engine}

/-! ### The phases of COMPRESS -/

theorem cCount_sim : Res.Sim NextAlike (cCount s) (cCount (s.setEng e)) :=
  (countLoop_sim s.ctx.len.toNat (s := s.setEng { s.eng with freq := .replicate 256 0, k := 0 })
    (e := { e with freq := .replicate 256 0, k := 0 }) ⟨rfl, rfl⟩).bind fun _ _ _ hu => .ok rfl hu.freq

theorem cBuild_sim (h : e.freq = s.eng.freq) : Res.Sim NextAlike (cBuild s) (cBuild (s.setEng e)) := by
  unfold cBuild
  cases hd : buildArena s.eng with
  | none => exact .stuck
  | some d' =>
    obtain ⟨e', he, hbuilt, halike⟩ := buildArena_sim h hd
    rw [State.setEng_eng, he]
    exact .ok rfl ⟨hbuilt, halike⟩

/-- The writer is the same, and the arenas are those of `a` and `b`. -/
structure TreeAlike (a b d e : Engine) : Prop where
  w : e.w = d.w
  left : SameArena a d
  right : SameArena b e

theorem TreeAlike.stable (a b : Engine) : WriterStable (TreeAlike a b) where
  same h := h.w
  update w h := ⟨rfl, h.left.setW w, h.right.setW w⟩

/-- What phases C_TREE and C_DERIVE find, while the arenas are built ones. -/
theorem TreeAlike.phaseAlike {a b d e : Engine} (h : TreeAlike a b d e) (hbuilt : ArenaBuilt a) (hab : ArenaAlike a b) :
    e.w = d.w ∧ ArenaBuilt d ∧ ArenaAlike d e :=
  ⟨h.w, hbuilt.of_same h.left, hab.of_same h.left h.right⟩

theorem cHeader_sim (hbuilt : ArenaBuilt s.eng) (hab : ArenaAlike s.eng e) :
    Res.Sim NextAlike (cHeader s) (cHeader (s.setEng e)) :=
  (writeString_sim (TreeAlike.stable s.eng e) (s := wInit s) (e := { e with w := ⟨0, 0, 0⟩ })
    ⟨rfl, ⟨rfl, rfl, rfl⟩, ⟨rfl, rfl, rfl⟩⟩ _).bind fun _ _ _ hu => .ok rfl (hu.phaseAlike hbuilt hab)

theorem cTree_sim (hw : e.w = s.eng.w) (hbuilt : ArenaBuilt s.eng) (hab : ArenaAlike s.eng e) :
    Res.Sim NextAlike (cTree s) (cTree (s.setEng e)) := by
  unfold cTree
  rw [State.setEng_eng, hab.root]
  exact (serNode_sim hab (TreeAlike.stable s.eng e) (fun h => ⟨h.left, h.right⟩) Config.stackDepth hab.rootUsed
    ⟨hw, .refl _, .refl _⟩).bind fun _ _ _ hu => .ok rfl (hu.phaseAlike hbuilt hab)

theorem cDerive_sim (hw : e.w = s.eng.w) (hab : ArenaAlike s.eng e) :
    Res.Sim NextAlike (cDerive s) (cDerive (s.setEng e)) := by
  unfold cDerive
  rw [State.setEng_eng, hab.root]
  cases hd : derive Config.stackDepth s.eng.root [] s.eng.clearCodes with
  | none => exact .stuck
  | some d' =>
    obtain ⟨e', he, hde⟩ := derive_sim hab hab.rootUsed ⟨rfl, rfl, .clearCodes s.eng e⟩ hd
    rw [he]
    refine .ok rfl ⟨?_, hde.codes⟩
    show e'.w = d'.w
    rw [hde.left, hde.right, hw]

theorem cEncode_sim (hw : e.w = s.eng.w) (hc : CodesAlike s.eng e) :
    Res.Sim NextAlike (cEncode s) (cEncode (s.setEng e)) :=
  (encodeLoop_sim s.ctx.len.toNat (s := s.setK 0) (e := { e with k := 0 }) ⟨hw, rfl, hc⟩).bind
    fun _ _ _ hu => .ok rfl hu.w

/-- The writers are the same. -/
def SameWriter (d e : Engine) : Prop := e.w = d.w

theorem SameWriter.stable : WriterStable SameWriter := ⟨id, fun _ _ => rfl⟩

theorem cFlush_sim (hw : e.w = s.eng.w) : Res.Sim NextAlike (cFlush s) (cFlush (s.setEng e)) :=
  (flush_sim SameWriter.stable hw).bind fun _ u d hu => by
    rw [State.setEng_eng, show d.w = u.eng.w from hu]
    exact .ok rfl trivial

theorem compressPhase_sim (h : PhaseAlike s.phase s.eng e) :
    Res.Sim NextAlike (compressPhase s) (compressPhase (s.setEng e)) := by
  rw [compressPhase, compressPhase, State.setEng_phase]
  cases hp : s.phase <;> rw [hp] at h
  case cCount => exact cCount_sim
  case cBuild => exact cBuild_sim h
  case cHeader =>
    obtain ⟨hbuilt, hab⟩ := h
    exact cHeader_sim hbuilt hab
  case cTree =>
    obtain ⟨hw, hbuilt, hab⟩ := h
    exact cTree_sim hw hbuilt hab
  case cDerive =>
    obtain ⟨hw, -, hab⟩ := h
    exact cDerive_sim hw hab
  case cEncode =>
    obtain ⟨hw, hcodes⟩ := h
    exact cEncode_sim hw hcodes
  case cFlush => exact cFlush_sim h
  all_goals exact .stuck

/-! ### The phases of DECOMPRESS -/

/-- What the header's reads share: both cursors. -/
structure CursorsAlike (d e : Engine) : Prop where
  w : e.w = d.w
  r : d.r.Alike e.r

theorem CursorsAlike.stable : ReaderStable CursorsAlike := ⟨fun h => h.r, fun hr h => ⟨h.w, hr⟩⟩

theorem dHeader_sim : Res.Sim NextAlike (dHeader s) (dHeader (s.setEng e)) := by
  unfold dHeader
  dsimp only
  have hctx : (wInit (rInit (s.setEng e))).ctx = (wInit (rInit s)).ctx := rfl
  rw [hctx]
  split
  · exact .raised (by decide) rfl
  · refine (readBits_sim CursorsAlike.stable Config.hdrW (s := wInit (rInit s))
      (e := { e with w := ⟨0, 0, 0⟩, r := { e.r with cnt := 0, inPos := 0 } })
      ⟨rfl, rfl, rfl, fun h => absurd rfl h⟩).bind fun x u d hu => ?_
    cases x with
    | none => exact .stuck
    | some n => exact .ok rfl ⟨hu.w, hu.r, rfl⟩

theorem dTree_sim (hw : e.w = s.eng.w) (hr : s.eng.r.Alike e.r) (hn : e.symCount = s.eng.symCount) :
    Res.Sim NextAlike (dTree s) (dTree (s.setEng e)) :=
  (desNode_sim Config.stackDepth true (s := s.setEng { s.eng with nodeCount := 0 }) (e := { e with nodeCount := 0 })
    ⟨hw, hr, hn, rfl, Nat.zero_le _⟩).bind fun _ _ _ hu =>
      .ok rfl ⟨hu.alike.w, hu.alike.r, hu.alike.symCount, hu.arena rfl⟩

theorem dDecode_sim (hw : e.w = s.eng.w) (hr : s.eng.r.Alike e.r) (hn : e.symCount = s.eng.symCount)
    (hab : ArenaAlike s.eng e) : Res.Sim NextAlike (dDecode s) (dDecode (s.setEng e)) := by
  unfold dDecode
  rw [State.setEng_eng, hn]
  refine (decodeLoop_sim hab s.eng.symCount.toNat (s := s.setSym 0) (e := { e with sym := 0 })
    ⟨⟨rfl, rfl, rfl⟩, ⟨rfl, rfl, rfl⟩, hw, hr, hn, rfl⟩).bind fun _ u d hu => ?_
  rw [State.setEng_eng, hu.symCount]
  exact .ok rfl trivial

theorem decompressPhase_sim (h : PhaseAlike s.phase s.eng e) :
    Res.Sim NextAlike (decompressPhase s) (decompressPhase (s.setEng e)) := by
  rw [decompressPhase, decompressPhase, State.setEng_phase]
  cases hp : s.phase <;> rw [hp] at h
  case dHeader => exact dHeader_sim
  case dTree =>
    obtain ⟨hw, hr, hn⟩ := h
    exact dTree_sim hw hr hn
  case dDecode =>
    obtain ⟨hw, hr, hn, -, hab⟩ := h
    exact dDecode_sim hw hr hn hab
  all_goals exact .stuck

/-! ### DUMPBITS, and every command -/

theorem xDump_sim : Res.Sim NextAlike (xDump s) (xDump (s.setEng e)) :=
  (dumpLoop_sim s.ctx.len.toNat (s := (wInit s).setK 0) (e := { e with w := ⟨0, 0, 0⟩, k := 0 }) ⟨rfl, rfl⟩).bind
    fun _ u d hu => by
      rw [State.setEng_eng, hu.w]
      exact .ok rfl trivial

theorem dumpbitsPhase_sim : Res.Sim NextAlike (dumpbitsPhase s) (dumpbitsPhase (s.setEng e)) := by
  rw [dumpbitsPhase, dumpbitsPhase, State.setEng_phase]
  cases hp : s.phase
  case xDump => exact xDump_sim
  all_goals exact .stuck

/-- A phase run on two internal states alike in what it reads ends alike, the next phase finding alike what it reads. -/
theorem commandPhase_sim (i : Instr) (h : PhaseAlike s.phase s.eng e) :
    Res.Sim NextAlike (commandPhase i s) (commandPhase i (s.setEng e)) := by
  cases i with
  | compress => exact compressPhase_sim h
  | decompress => exact decompressPhase_sim h
  | dumpbits => exact dumpbitsPhase_sim

theorem finish_sim {i : Instr} {n : Nat} {t : State} (h : PhaseAlike s.phase s.eng e)
    (hs : finish (commandPhase i) n s = .next t) :
    ∃ e', finish (commandPhase i) n (s.setEng e) = .next (t.setEng e') := by
  induction n generalizing s e with
  | zero => simp [finish] at hs
  | succ n ih =>
    rw [finish] at hs ⊢
    have hsim := commandPhase_sim i h
    revert hs hsim
    generalize commandPhase i s = x, commandPhase i (s.setEng e) = y
    rintro hs (⟨hu, hnext⟩ | ⟨-, hu⟩ | _)
    · next u u' =>
      dsimp only at hs ⊢
      rw [hu, State.setEng_phase]
      split at hs
      · next hidle =>
        rw [if_pos hidle]
        exact ⟨u'.eng, by cases hs; rfl⟩
      · next hon =>
        rw [if_neg hon]
        exact ih hnext hs
    · next c v u u' =>
      rw [hu]
      cases hs
      exact ⟨u'.eng, rfl⟩
    · simp at hs

/-- An engine step that is the command's last ends it. -/
theorem exec_lastStep {i : Instr} (hb : s.regs.status.busy = true) (hl : s.env.latencyLeft = 1) :
    exec i s = finish (commandPhase i) mostPhases s := by
  rw [exec_busy hb, engineStep, if_pos (Nat.le_of_eq hl)]

end Phases

/-- In its first phase a command finds nothing it reads. -/
theorem phaseAlike_first (i : Instr) (d e : Engine) : PhaseAlike (Phase.first i) d e := by
  cases i <;> trivial

/-- Settles O29: the two runs of the last engine step end alike, by `finish_sim`. -/
theorem internalStateIsNeverObserved : Obligations.InternalStateIsNeverObserved := by
  unfold Obligations.InternalStateIsNeverObserved
  intro i s t e hrun _ hphase hlat hexec
  rw [exec_lastStep hrun.busy hlat] at hexec
  obtain ⟨e', he'⟩ := finish_sim (e := e) (by rw [hphase]; exact phaseAlike_first i s.eng e) hexec
  have htwin : exec i (s.setEng e) = .next (t.setEng e') := (exec_lastStep (s := s.setEng e) hrun.busy hlat).trans he'
  exact ⟨t.setEng e', htwin, rfl, rfl, rfl, rfl, rfl⟩

end Sys2Proof.Machine

namespace Sys2Proof.Machine

/-! ## Family 10_state: every step keeps the invariant -/

/-! ### What a phase touches (spec/20_memory.md R80, R81) -/

/-- What a phase of a running command keeps from `s` to `t`: everything but the phase, the internal state, the settled
answers and draws, and the bytes of the window. -/
structure Touched (s t : State) : Prop where
  regs : t.regs = s.regs
  ctx : t.ctx = s.ctx
  inputs : t.env.inputs = s.env.inputs
  resp : t.env.resp = s.env.resp
  latencyLeft : t.env.latencyLeft = s.env.latencyLeft
  memWf : t.mem.wf
  outside : SameOutside s.ctx.dst.toNat s.ctx.cap.toNat s.mem t.mem

namespace Touched

variable {s t : State}

theorem refl (h : s.mem.wf) : Touched s s := ⟨rfl, rfl, rfl, rfl, rfl, h, fun _ _ => rfl⟩

theorem trans {u : State} (h : Touched s t) (h' : Touched t u) : Touched s u where
  regs := h'.regs.trans h.regs
  ctx := h'.ctx.trans h.ctx
  inputs := h'.inputs.trans h.inputs
  resp := h'.resp.trans h.resp
  latencyLeft := h'.latencyLeft.trans h.latencyLeft
  memWf := h'.memWf
  outside a ha := (h'.outside a (by rwa [h.ctx])).trans (h.outside a ha)

theorem setEng (h : Touched s t) (e : Engine) : Touched s (t.setEng e) :=
  ⟨h.regs, h.ctx, h.inputs, h.resp, h.latencyLeft, h.memWf, h.outside⟩

theorem setPhase (h : Touched s t) (p : Phase) : Touched s (t.setPhase p) :=
  ⟨h.regs, h.ctx, h.inputs, h.resp, h.latencyLeft, h.memWf, h.outside⟩

theorem nextAnswer (h : Touched s t) : Touched s (nextAnswer t).2 :=
  ⟨by simp [h.regs], by simp [h.ctx], by simp [h.inputs], by simp [h.resp], by simp [h.latencyLeft],
    by rw [nextAnswer_mem]; exact h.memWf, by rw [nextAnswer_mem]; exact h.outside⟩

theorem getByte (h : Touched s t) (i : Word) : (getByte i t).All (Touched s) := by
  rw [getByte_eq]
  split <;> exact h.nextAnswer

theorem countLoop (h : Touched s t) (n : Nat) : (countLoop n t).All (Touched s) := by
  induction n generalizing t with
  | zero => exact h
  | succ n ih => exact Res.all_bind (h.getByte _) fun _ _ h' => ih (h'.setEng _)

/-- What the engine's operations keep (`Tracks`), from `s` with any internal state on. -/
theorem of_tracks {e : Engine} (h : Tracks (s.setEng e) t) : Touched s t :=
  ⟨h.regs, h.ctx, h.inputs, h.resp, h.latencyLeft, h.memWf, h.outside⟩

end Touched

theorem Tracks.writerOk {s t : State} (h : Tracks s t) : WriterOk t := by
  rw [WriterOk, h.ctx]
  exact h.writer

/-! ### The reader stays inside its buffer (spec/40_bitstream.md R127) -/

theorem readerOk_takeBit {s : State} (h : ReaderOk s) (hc : s.eng.r.cnt ≠ 0) : (takeBit s).All ReaderOk := by
  obtain ⟨hpos, hcnt⟩ := h
  refine ⟨hpos, ?_⟩
  have hone : (1#4).toNat = 1 := rfl
  have hne : s.eng.r.cnt.toNat ≠ 0 := fun h0 => hc (BitVec.eq_of_toNat_eq h0)
  show (s.eng.r.cnt - 1#4).toNat ≤ 8
  rw [BitVec.toNat_sub_of_le (by rw [BitVec.le_def]; omega), hone]
  omega

theorem readerOk_readBit {s : State} (h : ReaderOk s) : (readBit s).All ReaderOk := by
  unfold readBit
  split
  · split
    · exact h
    · next hne =>
      rw [memRead_eq]
      by_cases hok : (nextAnswer s).1 = .ok
      · simp only [hok, if_true, nextAnswer_eng]
        refine readerOk_takeBit ⟨?_, Nat.le_refl 8⟩ (show 8#4 ≠ 0 by decide)
        have hlt : s.eng.r.inPos.toNat < s.ctx.len.toNat :=
          Nat.lt_of_le_of_ne h.1 fun heq => hne (BitVec.eq_of_toNat_eq heq)
        have hlen := s.ctx.len.isLt
        simp only [State.setReader_eng, State.setReader_ctx, nextAnswer_ctx, BitVec.toNat_add]
        rw [Nat.mod_eq_of_lt (by simp; omega)]
        exact hlt
      · simp only [hok, if_false]
        simpa [ReaderOk] using h
  · next hne => exact readerOk_takeBit h hne

theorem readerOk_readBits {s : State} (h : ReaderOk s) (n : Nat) : (readBits n s).All ReaderOk := by
  have from_value : ∀ (n : Nat) (v : Word) {s : State}, ReaderOk s → (readBitsFrom n v s).All ReaderOk := by
    intro n
    induction n with
    | zero => exact fun v s h => h
    | succ n ih =>
      intro v s h
      refine Res.all_bind (readerOk_readBit h) fun b u hu => ?_
      cases b with
      | none => exact hu
      | some b => exact ih _ hu
  exact from_value n 0 h

theorem readerOk_updNode {s : State} (h : ReaderOk s) (i : Nat) (f : Node → Node) :
    ReaderOk (s.setEng (s.eng.updNode i f)) := by
  rw [updNode_eq]
  exact h

theorem readerOk_desNode {s : State} (h : ReaderOk s) (n : Nat) (b : Bool) : (desNode n b s).All ReaderOk := by
  induction n generalizing b s with
  | zero => trivial
  | succ n ih =>
    rw [desNode]
    refine Res.all_bind (readerOk_readBit h) fun x u hu => ?_
    cases x with
    | none => exact hu
    | some x =>
      dsimp only
      split
      · exact hu
      · split
        · exact hu
        · have halloc : ReaderOk (allocNode u) := hu
          split
          · refine Res.all_bind (readerOk_readBits halloc _) fun v w hw => ?_
            cases v with
            | none => exact hw
            | some v => exact readerOk_updNode hw _ _
          · refine Res.all_bind (ih halloc _) fun l w hw => Res.all_bind (ih hw _) fun r w' hw' => ?_
            exact readerOk_updNode hw' _ _

/-! ### How a phase ends -/

/-- The part of `PhaseOk` that bounds the cursors (spec/10_state.md R47, R48). -/
def CursorsOk (s : State) : Prop :=
  match s.phase with
  | .idle | .cCount | .cBuild | .cHeader | .dHeader | .xDump => True
  | .cTree | .cDerive | .cEncode | .cFlush => WriterOk s
  | .dTree | .dDecode => ReaderOk s ∧ WriterOk s

theorem Reader.Alike.refl (r : Reader) : r.Alike r := ⟨rfl, rfl, fun _ => rfl⟩

/-- What a phase finds is bounded cursors, and an internal state that reads like itself. -/
theorem phaseOk_iff (s : State) : PhaseOk s ↔ CursorsOk s ∧ PhaseAlike s.phase s.eng s.eng := by
  unfold PhaseOk CursorsOk PhaseAlike
  have hbuilt : ArenaBuilt s.eng ↔ ArenaBuilt s.eng ∧ ArenaAlike s.eng s.eng :=
    ⟨fun h => ⟨h, h.alike⟩, fun h => h.1⟩
  have hread : ArenaRead s.eng ↔ ArenaRead s.eng ∧ ArenaAlike s.eng s.eng := ⟨fun h => ⟨h, h.alike⟩, fun h => h.1⟩
  have hcodes : CodesAlike s.eng s.eng := fun _ => ⟨rfl, fun _ => rfl⟩
  have hr := Reader.Alike.refl s.eng.r
  cases s.phase <;> dsimp only <;> tauto

/-- How a phase of command `i` can end from `s`, the registers and everything outside the window being kept. -/
inductive PhaseEnd (i : Instr) (s : State) : Res Unit → Prop where
  /-- In a later phase of the command. -/
  | onward {t : State} (ht : Touched s t) (hp : t.phase.command = some i) (hc : CursorsOk t) : PhaseEnd i s (.ok () t)
  /-- In completion (spec/45_commands.md R224). -/
  | completed {u : State} (n : Word) (hu : Touched s u) : PhaseEnd i s (.ok () (complete n u))
  /-- In an error. -/
  | raised {c : ErrCode} {v : Word} {u : State} (hu : Touched s u) : PhaseEnd i s (.raised c v u)
  | stuck {f : Fault} : PhaseEnd i s (.stuck f)

/-- A phase whose first part keeps to `P` ends as its last statement does. -/
theorem PhaseEnd.bind {α : Type} {i : Instr} {s : State} {P : State → Prop} {x : Res α} {f : α → State → Res Unit}
    (hx : x.All P) (hP : ∀ u, P u → Touched s u) (hf : ∀ a u, P u → PhaseEnd i s (f a u)) :
    PhaseEnd i s (x.bind f) := by
  cases x with
  | ok a u => exact hf a u hx
  | raised c v u => exact .raised (hP u hx)
  | stuck f => exact .stuck

theorem Res.all_and {α : Type} {P Q : State → Prop} {x : Res α} (hp : x.All P) (hq : x.All Q) :
    x.All fun u => P u ∧ Q u := by
  cases x with
  | ok a u => exact ⟨hp, hq⟩
  | raised c v u => exact ⟨hp, hq⟩
  | stuck f => trivial

section Phases

variable {s : State} (hw : s.ctx.dst.toNat + s.ctx.cap.toNat ≤ 2 ^ 32) (hm : s.mem.wf)
include hw hm

/-- A phase starts tracking when its internal state has the writer inside the window. -/
theorem tracks_setEng {e : Engine} (he : e.w.outPos.toNat ≤ s.ctx.cap.toNat) :
    Tracks (s.setEng e) (s.setEng e) := .start hw he hm

theorem compressPhase_end (h : PhaseOk s) : PhaseEnd .compress s (compressPhase s) := by
  unfold PhaseOk at h
  rw [compressPhase]
  cases hp : s.phase <;> rw [hp] at h
  case cCount =>
    exact .bind (((Touched.refl hm).setEng _).countLoop _) (fun _ => id)
      fun _ u hu => .onward (hu.setPhase _) rfl trivial
  case cBuild =>
    dsimp only
    unfold cBuild
    cases buildArena s.eng with
    | none => exact .stuck
    | some e => exact .onward (((Touched.refl hm).setEng e).setPhase _) rfl trivial
  case cHeader =>
    exact .bind ((tracks_setEng hw hm (e := (wInit s).eng) (Nat.zero_le _)).writeBits _ _) (fun _ => .of_tracks)
      fun _ u hu => .onward ((Touched.of_tracks hu).setPhase _) rfl hu.writerOk
  case cTree =>
    exact .bind ((tracks_setEng hw hm (e := s.eng) h.2).serNode _ _) (fun _ => .of_tracks)
      fun _ u hu => .onward ((Touched.of_tracks hu).setPhase _) rfl hu.writerOk
  case cDerive =>
    obtain ⟨hbuilt, hwr⟩ := h
    dsimp only
    unfold cDerive
    cases hd : derive Config.stackDepth s.eng.root [] s.eng.clearCodes with
    | none => exact .stuck
    | some e =>
      obtain ⟨_, -, hde⟩ := derive_sim hbuilt.alike hbuilt.rootUsed ⟨rfl, rfl, .clearCodes s.eng s.eng⟩ hd
      refine .onward (((Touched.refl hm).setEng e).setPhase _) rfl ?_
      show e.w.outPos.toNat ≤ s.ctx.cap.toNat
      rw [hde.left]
      exact hwr
  case cEncode =>
    exact .bind ((tracks_setEng hw hm (e := (s.setK 0).eng) h).encodeLoop _) (fun _ => .of_tracks)
      fun _ u hu => .onward ((Touched.of_tracks hu).setPhase _) rfl hu.writerOk
  case cFlush =>
    exact .bind (tracks_setEng hw hm (e := s.eng) h).flush (fun _ => .of_tracks)
      fun _ u hu => .completed _ (.of_tracks hu)
  all_goals exact .stuck

theorem decompressPhase_end (h : PhaseOk s) : PhaseEnd .decompress s (decompressPhase s) := by
  unfold PhaseOk at h
  rw [decompressPhase]
  cases hp : s.phase <;> rw [hp] at h
  case dHeader =>
    have hstart : Tracks (s.setEng (wInit (rInit s)).eng) (wInit (rInit s)) := tracks_setEng hw hm (Nat.zero_le _)
    dsimp only
    unfold dHeader
    dsimp only
    split
    · exact .raised (.of_tracks hstart)
    · refine .bind (Res.all_and (hstart.readBits Config.hdrW)
        (readerOk_readBits (s := wInit (rInit s)) ⟨Nat.zero_le _, Nat.zero_le _⟩ Config.hdrW))
        (fun _ hu => .of_tracks hu.1) fun x u hu => ?_
      cases x with
      | none => exact .stuck
      | some n => exact .onward ((Touched.of_tracks (hu.1.setSymCount n)).setPhase _) rfl ⟨hu.2, hu.1.writerOk⟩
  case dTree =>
    obtain ⟨hr, hwr⟩ := h
    exact .bind (Res.all_and ((tracks_setEng hw hm (e := { s.eng with nodeCount := 0 }) hwr).desNode _ _)
      (readerOk_desNode (s := s.setEng { s.eng with nodeCount := 0 }) hr _ _)) (fun _ hu => .of_tracks hu.1)
      fun _ u hu => .onward (((Touched.of_tracks hu.1).setEng _).setPhase _) rfl ⟨hu.2, hu.1.writerOk⟩
  case dDecode =>
    exact .bind ((tracks_setEng hw hm (e := (s.setSym 0).eng) h.2.1).decodeLoop _) (fun _ => .of_tracks)
      fun _ u hu => .completed _ (.of_tracks hu)
  all_goals exact .stuck

theorem dumpbitsPhase_end : PhaseEnd .dumpbits s (dumpbitsPhase s) := by
  rw [dumpbitsPhase]
  cases hp : s.phase
  case xDump =>
    exact .bind ((tracks_setEng hw hm (e := ((wInit s).setK 0).eng) (Nat.zero_le _)).dumpLoop _)
      (fun _ => .of_tracks) fun _ u hu => .completed _ (.of_tracks hu)
  all_goals exact .stuck

theorem commandPhase_end (i : Instr) (h : PhaseOk s) : PhaseEnd i s (commandPhase i s) := by
  cases i with
  | compress => exact compressPhase_end hw hm h
  | decompress => exact decompressPhase_end hw hm h
  | dumpbits => exact dumpbitsPhase_end hw hm

end Phases

end Sys2Proof.Machine

namespace Sys2Proof.Machine

/-! ### The registers' part (spec/10_state.md R29, R36) -/

namespace RegFile.Ok

variable {r : RegFile} (h : r.Ok)
include h

theorem completed (hb : r.status.busy = true) (n : Word) :
    RegFile.Ok { r with resultLen := n, status := r.status.completed } := by
  obtain ⟨_, herr, hcode, _, _⟩ := h.whileBusy hb
  exact ⟨nofun, fun hde => by simp [herr] at hde, fun _ => hcode, h.noCodeNoInfo⟩

theorem overrun : RegFile.Ok { r with status := r.status.overrun } :=
  ⟨h.whileBusy, h.notDoneAndErr, h.doneNoCode, h.noCodeNoInfo⟩

/-- A STATUS write only clears flags, and no other write touches what R29 and R36 speak of. -/
theorem write (off : BitVec 6) (v : Word) : (r.write off v).Ok := by
  have hargs : ∀ a b c d : Word, RegFile.Ok { r with srcAddr := a, srcLen := b, dstAddr := c, dstCap := d } :=
    fun _ _ _ _ => ⟨h.whileBusy, h.notDoneAndErr, h.doneNoCode, h.noCodeNoInfo⟩
  have hstatus : RegFile.Ok { r with status := r.status.w1c v } := by
    refine ⟨fun hb => ?_, fun hde => h.notDoneAndErr ?_, fun hd => h.doneNoCode ?_, h.noCodeNoInfo⟩
    · obtain ⟨hdone, herr, hrest⟩ := h.whileBusy hb
      exact ⟨by simp [hdone], by simp [herr], hrest⟩
    · simp only [Status.w1c_done, Status.w1c_err, Bool.and_eq_true] at hde
      exact ⟨hde.1.1, hde.2.1⟩
    · simp only [Status.w1c_done, Bool.and_eq_true] at hd
      exact hd.1
  rcases r.write_cases off v with ⟨_, hr⟩ | ⟨_, hr⟩ | ⟨_, hr⟩ | ⟨_, hr⟩ | ⟨_, hr⟩ | ⟨_, hr⟩ <;> rw [hr]
  · exact hstatus
  · exact hargs v r.srcLen r.dstAddr r.dstCap
  · exact hargs r.srcAddr v r.dstAddr r.dstCap
  · exact hargs r.srcAddr r.srcLen v r.dstCap
  · exact hargs r.srcAddr r.srcLen r.dstAddr v
  · exact h

end RegFile.Ok

theorem RegFile.Ok.errored (r : RegFile) {c : ErrCode} (hc : c ≠ .none) (v : Word) :
    RegFile.Ok { r with errCode := c, errInfo := v, resultLen := 0, status := r.status.errored } :=
  ⟨nofun, nofun, nofun, fun h => absurd h hc⟩

theorem RegFile.Ok.accepted (r : RegFile) (h : r.status.done = false) :
    RegFile.Ok { r with errCode := .none, errInfo := 0, resultLen := 0, status := r.status.accepted } :=
  ⟨fun _ => ⟨h, rfl, rfl, rfl, rfl⟩, fun hde => by simp at hde, fun _ => rfl, fun _ => rfl⟩

theorem RegFile.Ok.reset : RegFile.reset.Ok := ⟨nofun, by decide, nofun, fun _ => rfl⟩

/-! ### The invariant under the moves of host and reset -/

namespace State.Inv

variable {s t : State}

/-- An idle block needs its memory and its registers in order, and no more. -/
theorem of_idle (hm : s.mem.wf) (hr : s.regs.Ok) (hp : s.phase = .idle) (hb : s.regs.status.busy = false) : s.Inv where
  memWf := hm
  regsOk := hr
  idleIff := by simp [hp, hb]
  running h := by simp [hb] at h
  phaseOk := by simp [PhaseOk, hp]

theorem of_sameBlock (h : s.Inv) (hs : SameBlock s t) : t.Inv where
  memWf := hs.memWf h.memWf
  regsOk := by rw [hs.regs]; exact h.regsOk
  idleIff := by rw [hs.phase, hs.regs]; exact h.idleIff
  running hb := by
    rw [hs.regs] at hb
    obtain ⟨i, hi, hrun⟩ := h.running hb
    refine ⟨i, by rw [hs.phase, hi], by rw [hs.regs, hb], by rw [hs.ctx, hrun.op], by rw [hs.ctx, hrun.args], ?_⟩
    rw [hs.latencyLeft]
    exact hrun.steps
  phaseOk := by
    have hp := h.phaseOk
    simpa only [PhaseOk, WriterOk, ReaderOk, hs.phase, hs.eng, hs.ctx] using hp

/-- Other registers, in order and with the same BUSY. -/
theorem setRegs (h : s.Inv) {r : RegFile} (hr : r.Ok) (hb : r.status.busy = s.regs.status.busy) :
    (s.setRegs r).Inv where
  memWf := h.memWf
  regsOk := hr
  idleIff := by rw [setRegs_phase, setRegs_regs, hb]; exact h.idleIff
  running hbusy := by
    rw [setRegs_regs, hb] at hbusy
    obtain ⟨i, hi, hrun⟩ := h.running hbusy
    exact ⟨i, hi, hb.trans hbusy, hrun.op, hrun.args, hrun.steps⟩
  phaseOk := h.phaseOk

/-- An accepted command starts in its first phase, on arguments that passed every check (R223). -/
theorem accept (hm : s.mem.wf) (i : Instr) (ha : s.regs.args.wf = true) :
    (accept i.op (Phase.first i) (issued s)).Inv where
  memWf := hm
  regsOk := .accepted _ rfl
  idleIff := by cases i <;> simp [Phase.first]
  running _ := ⟨i, by cases i <;> rfl, rfl, rfl, ha, Nat.le_max_left 1 _⟩
  phaseOk := by cases i <;> trivial

theorem cmdWrite {w : Word} (h : s.Inv) (ht : cmdWrite w s = .next t) : t.Inv := by
  rcases cmdWrite_next ht with ⟨_, rfl⟩ | ⟨_, c, v, hc, rfl⟩ | ⟨_, i, _, ha, rfl⟩
  · exact h.setRegs h.regsOk.overrun rfl
  · exact of_idle h.memWf (.errored _ hc v) rfl rfl
  · exact accept h.memWf i ha

theorem resetBlock (h : s.Inv) : (resetBlock s).Inv := by
  refine of_idle ?_ .reset rfl rfl
  unfold Machine.resetBlock
  dsimp only
  split
  · exact Memory.forget_wf h.memWf _ _ _
  · exact h.memWf

/-- The command a busy block's `ctx` names is the one that runs. -/
theorem running_of_decodeOp (h : s.Inv) (hb : s.regs.status.busy = true) {i : Instr}
    (hop : decodeOp s.ctx.op = some i) : s.phase.command = some i ∧ Running i s := by
  obtain ⟨j, hj, hrun⟩ := h.running hb
  rw [hrun.op, decodeOp_op, Option.some.injEq] at hop
  exact hop ▸ ⟨hj, hrun⟩

end State.Inv

/-! ### The invariant under the engine's steps -/

/-- A state that a running command's phases have reached from `s`, the command not having ended. -/
structure OnTheWay (i : Instr) (s u : State) : Prop where
  inv : u.Inv
  command : u.phase.command = some i
  touched : Touched s u

theorem OnTheWay.running {i : Instr} {s u : State} (h : OnTheWay i s u) (hrun : Running i s) : Running i u :=
  ⟨by rw [h.touched.regs, hrun.busy], by rw [h.touched.ctx, hrun.op], by rw [h.touched.ctx, hrun.args],
    by rw [h.touched.latencyLeft]; exact hrun.steps⟩

theorem OnTheWay.start {i : Instr} {s : State} (h : s.Inv) (hc : s.phase.command = some i) : OnTheWay i s s :=
  ⟨h, hc, .refl h.memWf⟩

theorem phase_command_ne_idle {p : Phase} {i : Instr} (h : p.command = some i) : p ≠ .idle := by
  rintro rfl
  simp [Phase.command] at h

section EngineStep

variable {i : Instr} {s u t : State} (hrun : Running i s) (h : OnTheWay i s u)
include hrun h

/-- How the phase of a state on the way ends. -/
theorem OnTheWay.phaseEnd : PhaseEnd i u (commandPhase i u) := by
  have hwindow := CmdArgs.wf_dst (h.running hrun).args
  exact commandPhase_end hwindow h.inv.memWf i h.inv.phaseOk

omit hrun in
/-- The phase of a state on the way, run twice, reads alike. -/
theorem OnTheWay.phaseSim : Res.Sim NextAlike (commandPhase i u) (commandPhase i u) :=
  commandPhase_sim (e := u.eng) i ((phaseOk_iff u).1 h.inv.phaseOk).2

/-- A phase that does not end the command leads on. -/
theorem OnTheWay.step (ht : commandPhase i u = .ok () t) (hidle : t.phase ≠ .idle) : OnTheWay i s t := by
  have hend := h.phaseEnd hrun
  have hsim := h.phaseSim
  rw [ht] at hend hsim
  cases hend with
  | onward htouched hcommand hcursors =>
    obtain ⟨-, hnext⟩ := hsim
    have hbusy : t.regs.status.busy = true := by rw [htouched.regs, (h.running hrun).busy]
    have hon := h.touched.trans htouched
    refine ⟨⟨htouched.memWf, by rw [htouched.regs]; exact h.inv.regsOk, by simp [hidle, hbusy],
      fun _ => ⟨i, hcommand, hbusy, ?_, ?_, ?_⟩, (phaseOk_iff t).2 ⟨hcursors, hnext⟩⟩, hcommand, hon⟩
    · rw [hon.ctx, hrun.op]
    · rw [hon.ctx, hrun.args]
    · rw [hon.latencyLeft]; exact hrun.steps
  | completed n hu => exact absurd rfl hidle

/-- A phase that ends the command completes it. -/
theorem OnTheWay.completes (ht : commandPhase i u = .ok () t) (hidle : t.phase = .idle) :
    ∃ n v, Touched s v ∧ t = complete n v := by
  have hend := h.phaseEnd hrun
  rw [ht] at hend
  cases hend with
  | onward _ hcommand _ => exact absurd hidle (phase_command_ne_idle hcommand)
  | @completed v n hv => exact ⟨n, v, h.touched.trans hv, rfl⟩

/-- A phase that raises an error raises one of the block's. -/
theorem OnTheWay.raises {c : ErrCode} {v : Word} (ht : commandPhase i u = .raised c v t) :
    c ≠ .none ∧ Touched s t := by
  have hend := h.phaseEnd hrun
  have hsim := h.phaseSim
  rw [ht] at hend hsim
  cases hend with
  | raised hu =>
    cases hsim with
    | raised hc _ => exact ⟨hc, h.touched.trans hu⟩

end EngineStep

/-- What one engine step of a running command does: it leads on with a step of `latency` spent, or it is the last and
completes the command or ends it in an error. -/
inductive EngineStepEnd (i : Instr) (s : State) : State → Prop where
  | onward {u : State} (hl : 1 < s.env.latencyLeft) (hu : OnTheWay i s u) : EngineStepEnd i s (spend u)
  | completed {u : State} (hl : s.env.latencyLeft = 1) (n : Word) (hu : Touched s u) : EngineStepEnd i s (complete n u)
  | failed {u : State} (hl : s.env.latencyLeft = 1) {c : ErrCode} (hc : c ≠ .none) (v : Word) (hu : Touched s u) :
      EngineStepEnd i s (commandError c v u)

theorem exec_running {i : Instr} {s t : State} (h : s.Inv) (hrun : Running i s) (hc : s.phase.command = some i)
    (ht : exec i s = .next t) : EngineStepEnd i s t := by
  rw [exec_busy hrun.busy] at ht
  have hstart : OnTheWay i s s := .start h hc
  rcases engineStep_next ht with ⟨hl, u, hreach, hend⟩ | ⟨hl, rfl | ⟨u, hu, hidle, rfl⟩⟩
  · have hu : OnTheWay i s u := hreach.preserves (fun _ _ hv hphase hidle => hv.step hrun hphase hidle) hstart
    have hlast : s.env.latencyLeft = 1 := Nat.le_antisymm hl hrun.steps
    rcases hend with ⟨hphase, hidle⟩ | ⟨c, v, w, hphase, rfl⟩
    · obtain ⟨n, w, hw, rfl⟩ := hu.completes hrun hphase hidle
      exact .completed hlast n hw
    · obtain ⟨hcode, hw⟩ := hu.raises hrun hphase
      exact .failed hlast hcode v hw
  · exact .onward hl hstart
  · exact .onward hl (hstart.step hrun hu hidle)

/-- A step of `latency` can be spent while one more is left. -/
theorem OnTheWay.spend_inv {i : Instr} {s u : State} (h : OnTheWay i s u) (hrun : Running i s)
    (hl : 1 < s.env.latencyLeft) : (spend u).Inv where
  memWf := h.inv.memWf
  regsOk := h.inv.regsOk
  idleIff := h.inv.idleIff
  running _ := by
    refine ⟨i, h.command, (h.running hrun).busy, (h.running hrun).op, (h.running hrun).args, ?_⟩
    have hlat := h.touched.latencyLeft
    show 1 ≤ u.env.latencyLeft - 1
    omega
  phaseOk := h.inv.phaseOk

theorem EngineStepEnd.inv {i : Instr} {s t : State} (h : s.Inv) (hrun : Running i s) (ht : EngineStepEnd i s t) :
    t.Inv := by
  cases ht with
  | onward hl hu => exact hu.spend_inv hrun hl
  | completed _ n hu =>
    refine .of_idle hu.memWf ?_ rfl rfl
    rw [complete_regs, hu.regs]
    exact h.regsOk.completed hrun.busy n
  | failed _ hc v hu => exact .of_idle (Memory.forget_wf hu.memWf _ _ _) (.errored _ hc v) rfl rfl

/-- The engine's move in a step from a state of the invariant. -/
theorem StepCase.engine_end {s u t : State} {i : Instr} (h : s.Inv) (hb : s.regs.status.busy = true)
    (hu : SameBlock s u) (hop : decodeOp s.ctx.op = some i) (ht : exec i u = .next t) :
    u.Inv ∧ Running i u ∧ EngineStepEnd i u t := by
  have hinv := h.of_sameBlock hu
  obtain ⟨hc, hrun⟩ := hinv.running_of_decodeOp (by rw [hu.regs, hb]) (by rw [hu.ctx, hop])
  exact ⟨hinv, hrun, exec_running hinv hrun hc ht⟩

/-- Settles O19, by the cases of a step and, for the engine's, by how its step ends. -/
theorem stepKeepsInvariant : Obligations.StepKeepsInvariant := by
  unfold Obligations.StepKeepsInvariant
  intro s t h ht
  have hinputs : ∀ rest, (s.setInputs rest).Inv := fun rest => h.of_sameBlock (.setInputs s rest)
  cases step_cases ht with
  | silent hs => exact h.of_sameBlock hs
  | reg m rest off v hi hm hreg =>
    have hset : ((s.setInputs rest).setRegs (s.regs.write off v)).Inv :=
      (hinputs rest).setRegs (h.regsOk.write off v) (RegFile.write_busy s.regs off v)
    rw [hreg]
    exact hset.of_sameBlock (SameBlock.respond ⟨rfl, rfl, rfl, rfl, rfl, id⟩ .ok)
  | cmd m rest w hi hm hw => exact (h.of_sameBlock ((SameBlock.setInputs s rest).respond .ok)).cmdWrite hw
  | rst rest hi hr => exact hr ▸ (hinputs rest).resetBlock
  | engine u i hb hi hu hop hexec =>
    obtain ⟨hinv, hrun, hend⟩ := StepCase.engine_end h hb hu hop hexec
    exact hend.inv hinv hrun

/-- Settles O18: an idle block with nothing listed in memory. -/
theorem resetSatisfiesInvariant : Obligations.ResetSatisfiesInvariant := by
  unfold Obligations.ResetSatisfiesInvariant
  exact .of_idle Memory.reset_wf .reset rfl rfl

/-! ### What a step changes in the flags, the context and the arguments -/

/-- Settles O8: the drop of R27, and of the moves of `step_cases` only reset and a STATUS write clear OVR. -/
theorem busyCommandWriteIsDropped : Obligations.BusyCommandWriteIsDropped := by
  unfold Obligations.BusyCommandWriteIsDropped
  refine ⟨fun s m rest w hb hi hm => ?_, fun s t h ht hs hclear => ?_⟩
  · have hbusy : ((s.setInputs rest).respond .ok).regs.status.busy = true := hb
    rw [step_of_writesCmd hi hm, cmdWrite, if_pos hbusy]
    rfl
  · cases step_cases ht with
    | silent hk => simp [hk.regs, hs] at hclear
    | reg m rest off v hi hm hreg =>
      rw [hreg, State.respond_regs, State.setRegs_regs] at hclear
      rcases s.regs.write_cases off v with ⟨rfl, hr⟩ | ⟨_, hr⟩ | ⟨_, hr⟩ | ⟨_, hr⟩ | ⟨_, hr⟩ | ⟨_, hr⟩
      · rw [hr, Status.w1c_ovr, hs, Bool.true_and, Bool.not_eq_false'] at hclear
        exact ⟨m, rest, hi, .inr ⟨v, hm, hclear⟩⟩
      all_goals simp [hr, hs] at hclear
    | cmd m rest w hi hm hw =>
      rcases cmdWrite_next hw with ⟨_, rfl⟩ | ⟨_, c, v, _, rfl⟩ | ⟨_, i, _, _, rfl⟩
      all_goals simp [hs] at hclear
    | rst rest hi hr => exact ⟨.rst, rest, hi, .inl rfl⟩
    | engine u i hb hi hu hop hexec =>
      obtain ⟨-, -, hend⟩ := StepCase.engine_end h hb hu hop hexec
      cases hend with
      | onward _ hw => simp [hw.touched.regs, hu.regs, hs] at hclear
      | completed _ n hw => simp [hw.regs, hu.regs, hs] at hclear
      | failed _ _ v hw => simp [hw.regs, hu.regs, hs] at hclear

/-- Settles O26: a busy block becomes idle by reset or by the two ends of `EngineStepEnd`. -/
theorem busyFallsOnlyByEndOrReset : Obligations.BusyFallsOnlyByEndOrReset := by
  unfold Obligations.BusyFallsOnlyByEndOrReset
  intro s t h ht hs hfall
  cases step_cases ht with
  | silent hk => simp [hk.regs, hs] at hfall
  | reg m rest off v hi hm hreg => simp [hreg, RegFile.write_busy, hs] at hfall
  | cmd m rest w hi hm hw =>
    rcases cmdWrite_next hw with ⟨_, rfl⟩ | ⟨hb, _⟩ | ⟨hb, _⟩
    · simp [hs] at hfall
    all_goals simp [hs] at hb
  | rst rest hi hr => exact .inl ⟨rest, hi⟩
  | engine u i hb hi hu hop hexec =>
    obtain ⟨-, -, hend⟩ := StepCase.engine_end h hb hu hop hexec
    cases hend with
    | onward _ hw => simp [hw.touched.regs, hu.regs, hs] at hfall
    | completed hl n hw => exact .inr ⟨hu.latencyLeft ▸ hl, .inl rfl, hi⟩
    | failed hl _ v hw => exact .inr ⟨hu.latencyLeft ▸ hl, .inr rfl, hi⟩

/-- Settles O27: only acceptance, which needs an idle block, and reset write `ctx`. -/
theorem contextConstantWhileBusy : Obligations.ContextConstantWhileBusy := by
  unfold Obligations.ContextConstantWhileBusy
  intro s t h ht hs hstill
  cases step_cases ht with
  | silent hk => exact hk.ctx
  | reg m rest off v hi hm hreg => rw [hreg]; rfl
  | cmd m rest w hi hm hw =>
    rcases cmdWrite_next hw with ⟨_, rfl⟩ | ⟨hb, _⟩ | ⟨hb, _⟩
    · rfl
    all_goals simp [hs] at hb
  | rst rest hi hr => simp [hr, RegFile.reset, Status.reset] at hstill
  | engine u i hb hi hu hop hexec =>
    obtain ⟨-, -, hend⟩ := StepCase.engine_end h hb hu hop hexec
    cases hend with
    | onward _ hw => rw [spend_ctx, hw.touched.ctx, hu.ctx]
    | completed _ n hw => simp at hstill
    | failed _ _ v hw => simp at hstill

/-- The argument registers change by reset or by a register write, and by no other move. -/
theorem step_args {s t : State} (h : s.Inv) (ht : step s = .next t) :
    t.regs.args = s.regs.args ∨ (∃ rest, s.env.inputs = .rst :: rest) ∨
      ∃ m rest off v, s.env.inputs = m :: rest ∧ m.writesReg off v ∧ t.regs = s.regs.write off v := by
  cases step_cases ht with
  | silent hk => exact .inl (by rw [hk.regs])
  | reg m rest off v hi hm hreg => exact .inr (.inr ⟨m, rest, off, v, hi, hm, by rw [hreg]; rfl⟩)
  | cmd m rest w hi hm hw =>
    rcases cmdWrite_next hw with ⟨_, rfl⟩ | ⟨_, c, v, _, rfl⟩ | ⟨_, i, _, _, rfl⟩
    all_goals exact .inl rfl
  | rst rest hi hr => exact .inr (.inl ⟨rest, hi⟩)
  | engine u i hb hi hu hop hexec =>
    obtain ⟨-, -, hend⟩ := StepCase.engine_end h hb hu hop hexec
    refine .inl ?_
    rw [← hu.regs]
    cases hend with
    | onward _ hw => rw [spend_regs, hw.touched.regs]
    | completed _ n hw => rw [← hw.regs]; rfl
    | failed _ _ v hw => rw [← hw.regs]; rfl

/-- Settles O28, by `step_args` and what a register write does. -/
theorem argumentsChangeOnlyByHost : Obligations.ArgumentsChangeOnlyByHost := by
  unfold Obligations.ArgumentsChangeOnlyByHost
  intro s t h ht
  dsimp only
  rcases step_args h ht with hsame | ⟨rest, hi⟩ | ⟨m, rest, off, v, hi, hm, hr⟩
  · simp only [RegFile.args, CmdArgs.mk.injEq] at hsame
    obtain ⟨h1, h2, h3, h4⟩ := hsame
    exact ⟨fun hne => absurd h1 hne, fun hne => absurd h2 hne, fun hne => absurd h3 hne, fun hne => absurd h4 hne⟩
  · have hrst : ∀ off v, ∃ m rest, s.env.inputs = m :: rest ∧ (m = .rst ∨ Input.writesReg off v m) :=
      fun _ _ => ⟨.rst, rest, hi, .inl rfl⟩
    exact ⟨fun _ => hrst _ _, fun _ => hrst _ _, fun _ => hrst _ _, fun _ => hrst _ _⟩
  · have hwrite : ∃ m rest, s.env.inputs = m :: rest ∧ (m = .rst ∨ Input.writesReg off v m) :=
      ⟨m, rest, hi, .inr hm⟩
    have kept : ∀ {x : Word} {P : Prop}, x ≠ x → P := fun hne => absurd rfl hne
    rcases s.regs.write_cases off v with ⟨_, hw⟩ | ⟨rfl, hw⟩ | ⟨rfl, hw⟩ | ⟨rfl, hw⟩ | ⟨rfl, hw⟩ | ⟨_, hw⟩
    all_goals rw [hr, hw]
    · exact ⟨kept, kept, kept, kept⟩
    · exact ⟨fun _ => hwrite, kept, kept, kept⟩
    · exact ⟨kept, fun _ => hwrite, kept, kept⟩
    · exact ⟨kept, kept, fun _ => hwrite, kept⟩
    · exact ⟨kept, kept, kept, fun _ => hwrite⟩
    · exact ⟨kept, kept, kept, kept⟩

end Sys2Proof.Machine

namespace Sys2Proof.Machine

/-! ## Family 20_memory: the host's accesses of memory, and the window after an error -/

theorem inWindow_iff {base len a : Nat} : inWindow base len a = true ↔ base ≤ a ∧ a < base + len := by
  simp [inWindow]

/-- One byte stored leaves every other byte. -/
theorem sameOutside_write (m : Memory) (a : Nat) (b : Byte) : SameOutside a 1 m (m.write a b) :=
  fun x hx => Memory.read_write_ne m b (by omega)

/-- Settles O14, by the two cases of `hostMemWrite` and of `hostMemRead`. -/
theorem hostMemoryAccess : Obligations.HostMemoryAccess := by
  unfold Obligations.HostMemoryAccess
  intro s rest a b
  dsimp only
  simp only [← inWindow_iff, ← Bool.or_eq_true, ← Bool.and_eq_true]
  refine ⟨fun hi => ?_, fun hi => ?_⟩
  · have hstep : step s = hostMemWrite a b (s.setInputs rest) := by simp only [step, hi]
    rw [hstep]
    exact ⟨fun h => if_pos h, fun h =>
      ⟨s.mem.write a.toNat b, Memory.read_write_same _ _ _, sameOutside_write _ _ _, if_neg h⟩⟩
  · have hstep : step s = .next (hostMemRead a (s.setInputs rest)) := by simp only [step, hi]
    rw [hstep]
    exact ⟨fun h => congrArg _ (if_neg h), fun h => ⟨Config.busyByte s.env.draws, congrArg _ (if_pos h)⟩⟩

/-- After error entry every byte of the window is the free value of that moment (R80(c), R256). -/
theorem read_commandError {u : State} (c : ErrCode) (v : Word) {a : Nat} (h1 : u.ctx.dst.toNat ≤ a)
    (h2 : a < u.ctx.dst.toNat + u.ctx.cap.toNat) :
    (commandError c v u).mem.read a = Config.unspecByte (u.env.draws + 1) a := by
  rw [commandError_mem, Memory.read_forget, if_pos (inWindow_iff.2 ⟨h1, h2⟩)]

/-- Settles O15: of the ends of an engine step only an error sets ERR, and it forgets the window. -/
theorem errorLeavesWindowUnspecified : Obligations.ErrorLeavesWindowUnspecified := by
  unfold Obligations.ErrorLeavesWindowUnspecified
  intro i s t h hrun hc ht herr
  obtain ⟨-, hnoErr, -⟩ := h.regsOk.whileBusy hrun.busy
  cases exec_running h hrun hc ht with
  | onward _ hu => simp [hu.touched.regs, hnoErr] at herr
  | completed _ n hu => simp [hu.regs, hnoErr] at herr
  | @failed u _ c _ v hu =>
    refine ⟨u.env.draws + 1, fun a h1 h2 => read_commandError c v ?_ ?_⟩ <;> rw [hu.ctx] <;> assumption

end Sys2Proof.Machine

namespace Sys2Proof.Machine

/-! ## Family 20_memory: no phase of a running command is stuck -/

/-- A computation that ends, in a value or in a `raise`. -/
def Res.Ends {α : Type} (x : Res α) : Prop := ∀ f, x ≠ .stuck f

namespace Res

variable {α β : Type}

@[simp] theorem ends_ok (a : α) (s : State) : (Res.ok a s).Ends := nofun

@[simp] theorem ends_raised (c : ErrCode) (v : Word) (s : State) : (Res.raised c v s : Res α).Ends := nofun

theorem Ends.bind {x : Res α} {f : α → State → Res β} (hx : x.Ends) (hf : ∀ a s, x = .ok a s → (f a s).Ends) :
    (x.bind f).Ends := by
  intro e he
  rcases bind_eq_stuck.1 he with h | ⟨a, s, ha, h⟩
  · exact hx e h
  · exact hf a s ha e h

/-- What a computation keeps holds of the state its value comes with. -/
theorem All.of_ok {P : State → Prop} {x : Res α} {a : α} {t : State} (h : x.All P) (hx : x = .ok a t) : P t := by
  rw [hx] at h
  exact h

/-- What a computation's comparison with itself says of its value. -/
theorem Sim.of_ok {P : α → State → Engine → Prop} {x : Res α} {a : α} {t : State} (h : Sim P x x) (hx : x = .ok a t) :
    P a t t.eng := by
  subst hx
  cases h with
  | ok _ h => exact h

end Res

/-! ### Operations that always end -/

theorem getByte_ends (i : Word) (s : State) : (getByte i s).Ends := by
  rw [getByte_eq]
  split
  · exact Res.ends_ok _ _
  · exact Res.ends_raised _ _ _

theorem putByte_ends (v : Byte) (s : State) : (putByte v s).Ends := by
  rw [putByte_eq]
  split
  · exact Res.ends_raised _ _ _
  · split
    · exact Res.ends_ok _ _
    · exact Res.ends_raised _ _ _

theorem putAcc_ends (s : State) : (putAcc s).Ends := (putByte_ends _ s).bind fun _ _ _ => Res.ends_ok _ _

theorem writeBit_ends (b : Bool) (s : State) : (writeBit b s).Ends := by
  unfold writeBit
  split
  · exact putAcc_ends _
  · exact Res.ends_ok _ _

theorem writeString_ends (bs : Bits) (s : State) : (writeString bs s).Ends := by
  induction bs generalizing s with
  | nil => exact Res.ends_ok _ _
  | cons b bs ih => exact (writeBit_ends b s).bind fun _ u _ => ih u

theorem flush_ends (s : State) : (flush s).Ends := by
  unfold flush
  split
  · exact Res.ends_ok _ _
  · exact putAcc_ends s

theorem readBit_ends (s : State) : (readBit s).Ends := by
  unfold readBit
  split
  · split
    · exact Res.ends_ok _ _
    · rw [memRead_eq]
      by_cases hok : (nextAnswer s).1 = .ok
      · simp only [hok, if_true]
        exact Res.ends_ok _ _
      · simp only [hok, if_false]
        exact Res.ends_raised _ _ _
  · exact Res.ends_ok _ _

theorem readBitsFrom_ends (n : Nat) (v : Word) (s : State) : (readBitsFrom n v s).Ends := by
  induction n generalizing v s with
  | zero => exact Res.ends_ok _ _
  | succ n ih =>
    refine (readBit_ends s).bind fun b u _ => ?_
    cases b with
    | none => exact Res.ends_ok _ _
    | some b => exact ih _ u

theorem countLoop_ends (n : Nat) (s : State) : (countLoop n s).Ends := by
  induction n generalizing s with
  | zero => exact Res.ends_ok _ _
  | succ n ih => exact (getByte_ends _ s).bind fun _ u _ => ih _

theorem encodeLoop_ends (n : Nat) (s : State) : (encodeLoop n s).Ends := by
  induction n generalizing s with
  | zero => exact Res.ends_ok _ _
  | succ n ih =>
    refine (getByte_ends _ s).bind fun b u _ => ?_
    split
    · exact (writeString_ends _ u).bind fun _ _ _ => ih _
    · exact Res.ends_raised _ _ _

theorem dumpText_ends (bs : Bits) (s : State) : (dumpText bs s).Ends := by
  induction bs generalizing s with
  | nil => exact Res.ends_ok _ _
  | cons b bs ih => exact (putByte_ends _ s).bind fun _ u _ => ih u

theorem dumpLoop_ends (n : Nat) (s : State) : (dumpLoop n s).Ends := by
  induction n generalizing s with
  | zero => exact Res.ends_ok _ _
  | succ n ih => exact (getByte_ends _ s).bind fun _ u _ => (dumpText_ends _ u).bind fun _ _ _ => ih _

/-! ### C_BUILD finds an alive entry at every merge (R145, R147) -/

/-- How many entries are in the working set. -/
def Engine.aliveCount (e : Engine) : Nat := e.alive.toList.count true

theorem aliveCount_setAlive {e : Engine} {i : Nat} {a b : Bool} (h : e.alive[i]? = some a) :
    (e.setAlive i b).aliveCount = e.aliveCount - a.toNat + b.toNat := by
  rw [← Vector.getElem?_toList, List.getElem?_eq_some_iff] at h
  obtain ⟨hi, ha⟩ := h
  rw [Engine.aliveCount, Engine.setAlive, Vector.toList_setIfInBounds, List.count_set hi, ha, Engine.aliveCount]
  cases a <;> cases b <;> rfl

theorem aliveCount_pos {e : Engine} {i : Nat} (h : e.alive[i]? = some true) : 0 < e.aliveCount := by
  rw [← Vector.getElem?_toList] at h
  exact List.count_pos_iff.2 (List.mem_of_getElem? h)

/-- The scan finds an entry when one is alive. -/
theorem scanMin_isSome {l : List (Bool × Node)} {i : Nat} {best : Option (Nat × Word)}
    (h : best.isSome = true ∨ ∃ n, (true, n) ∈ l) : (scanMin l i best).isSome = true := by
  induction l generalizing i best with
  | nil => simpa [scanMin] using h
  | cons p l ih =>
    obtain ⟨alive, n⟩ := p
    simp only [scanMin]
    refine ih ?_
    cases best with
    | some b => exact .inl (by dsimp only; split <;> rfl)
    | none =>
      cases alive with
      | true => exact .inl rfl
      | false => simpa using h

theorem takeMin_of_alive {e : Engine} (h : 0 < e.aliveCount) :
    ∃ m e', e.takeMin = some (m, e') ∧ e'.aliveCount = e.aliveCount - 1 := by
  have halive : ∃ n, (true, n) ∈ e.alive.toList.zip e.node.toList := by
    obtain ⟨i, hi, hval⟩ := List.getElem_of_mem (List.count_pos_iff.1 h)
    have hi' : i < (e.alive.toList.zip e.node.toList).length := by simpa using hi
    exact ⟨_, List.mem_of_getElem (h := hi') (by rw [List.getElem_zip, hval])⟩
  obtain ⟨m, hm⟩ := Option.isSome_iff_exists.1 (scanMin_isSome (i := 0) (best := none) (.inr halive))
  refine ⟨m, e.setAlive m.1 false, ?_, aliveCount_setAlive (minAlive_alive hm)⟩
  rw [Engine.takeMin, Engine.minAlive, hm]

/-- A new entry joins the working set: its slot was past the entries in use. -/
theorem aliveCount_addEntry {e : Engine} (h : BuildAlike e e) (hlt : e.nodeCount.toNat < Config.nodeCap)
    (f : Node → Node) : (e.addEntry f).aliveCount = e.aliveCount + 1 := by
  have hlt' : e.nodeCount.toNat < 511 := hlt
  have hdead : e.alive[e.nodeCount.toNat]? = some false := by
    rw [Vector.getElem?_eq_getElem hlt', Option.some.injEq, ← Bool.not_eq_true]
    intro halive
    have := h.aliveUsed _ (by rw [Vector.getElem?_eq_getElem hlt', halive])
    omega
  have hset := aliveCount_setAlive (b := true) hdead
  rw [Engine.aliveCount, Engine.setAlive] at hset
  rw [Engine.aliveCount, addEntry_alive, hset]
  rfl

theorem mergeOnce_of_alive {e : Engine} (h : BuildAlike e e) (hlt : e.nodeCount.toNat < Config.nodeCap)
    (halive : 2 ≤ e.aliveCount) : ∃ e', mergeOnce e = some e' ∧ e'.aliveCount = e.aliveCount - 1 := by
  obtain ⟨a, e1, ha, hcount1⟩ := takeMin_of_alive (e := e) (by omega)
  obtain ⟨_, ha', h1, hnode1, -⟩ := takeMin_sim h ha
  obtain ⟨c, e2, hc, hcount2⟩ := takeMin_of_alive (e := e1) (by omega)
  rw [ha] at ha'
  cases ha'
  obtain ⟨_, hc', h2, hnode2, -⟩ := takeMin_sim h1 hc
  rw [hc] at hc'
  cases hc'
  refine ⟨e2.addInternal a.1 c.1 (a.2 + c.2), by simp only [mergeOnce, ha, hc], ?_⟩
  rw [addInternal_eq_addEntry, aliveCount_addEntry h2 (by rwa [hnode2, hnode1])]
  omega

theorem mergeTimes_of_alive {n : Nat} {e : Engine} (h : BuildAlike e e) (hfit : e.nodeCount.toNat + n ≤ Config.nodeCap)
    (halive : n < e.aliveCount) : ∃ e', mergeTimes n e = some e' := by
  induction n generalizing e with
  | zero => exact ⟨e, rfl⟩
  | succ n ih =>
    obtain ⟨e1, he, hcount⟩ := mergeOnce_of_alive h (by omega) (by omega)
    obtain ⟨_, he', h1, hnode, -⟩ := mergeOnce_sim h (by omega) he
    rw [he] at he'
    cases he'
    rw [mergeTimes, he]
    exact ih h1 (by omega) (by omega)

theorem aliveCount_addLeaf {e : Engine} (h : BuildAlike e e) (hlt : e.nodeCount.toNat < Config.nodeCap) (v : Byte)
    (w : Word) (halive : e.aliveCount = e.nodeCount.toNat) :
    (e.addLeaf v w).aliveCount = (e.addLeaf v w).nodeCount.toNat := by
  rw [addLeaf_nodeCount_toNat hlt, addLeaf_eq_addEntry, aliveCount_addEntry h hlt, halive]

theorem aliveCount_addLeaves {cs : List Word} {v : Nat} {e : Engine} (h : BuildAlike e e)
    (hfit : e.nodeCount.toNat + cs.length ≤ Config.nodeCap) (halive : e.aliveCount = e.nodeCount.toNat) :
    (addLeaves cs v e).aliveCount = (addLeaves cs v e).nodeCount.toNat := by
  induction cs generalizing v e with
  | nil => exact halive
  | cons c cs ih =>
    rw [List.length_cons] at hfit
    rw [addLeaves]
    split
    · have hlt : e.nodeCount.toNat < Config.nodeCap := by omega
      refine ih (h.addLeaf hlt _ c) ?_ (aliveCount_addLeaf h hlt _ c halive)
      rw [addLeaf_nodeCount_toNat hlt]
      omega
    · exact ih h (by omega) halive

theorem aliveCount_addDummies {n : Nat} {e : Engine} (h : BuildAlike e e) (halive : e.aliveCount = e.nodeCount.toNat) :
    (addDummies n e).aliveCount = (addDummies n e).nodeCount.toNat := by
  induction n generalizing e with
  | zero => exact halive
  | succ n ih =>
    rw [addDummies]
    split
    · next hfew =>
      have hfew' : e.nodeCount.toNat < 2 := hfew
      have hlt : e.nodeCount.toNat < Config.nodeCap := by rw [Config.nodeCap]; omega
      exact ih (h.addLeaf hlt 0 0) (aliveCount_addLeaf h hlt 0 0 halive)
    · exact halive

theorem buildAlike_empty (d e : Engine) : BuildAlike { d with alive := .replicate 511 false, nodeCount := 0 }
    { e with alive := .replicate 511 false, nodeCount := 0 } := by
  refine ⟨Nat.zero_le _, rfl, rfl, fun i hi => ?_, fun i n hi => absurd hi (Nat.not_lt_zero i),
    fun i n hi => absurd hi (Nat.not_lt_zero i)⟩
  simp [Vector.getElem?_replicate] at hi

/-- All leaves are in the working set (R142, R143). -/
theorem aliveCount_buildLeaves (e : Engine) : (buildLeaves e).aliveCount = (buildLeaves e).nodeCount.toNat := by
  have hempty := buildAlike_empty e e
  have hfit : 0 + e.freq.toList.length ≤ Config.nodeCap := by simp [Config.nodeCap]
  refine aliveCount_addDummies (addLeaves_sim hempty hfit).1 (aliveCount_addLeaves hempty hfit ?_)
  show (Vector.replicate 511 false).toList.count true = 0
  rw [Vector.toList_replicate, List.count_replicate]
  rfl

theorem buildArena_isSome (e : Engine) : ∃ e', buildArena e = some e' := by
  obtain ⟨hleaves, hge, hle⟩ := buildLeaves_sim (d := e) (e := e) rfl
  rw [Config.maxLeaves] at hle
  have halive := aliveCount_buildLeaves e
  obtain ⟨e', he⟩ := mergeTimes_of_alive (n := (buildLeaves e).nodeCount.toNat - 1) hleaves
    (by rw [Config.nodeCap]; omega) (by omega)
  exact ⟨{ e' with root := (e'.nodeCount - 1).setWidth 9 }, by simp only [buildArena, he]⟩

/-! ### Walks down a built arena (R149, R167) -/

theorem nodeAt_of_lt (e : Engine) {i : BitVec 9} {n : Nat} (hn : n ≤ Config.nodeCap) (hi : i.toNat < n) :
    ∃ m, e.nodeAt i = some m := by
  have h511 : i.toNat < 511 := Nat.lt_of_lt_of_le hi hn
  exact ⟨e.node[i.toNat], by rw [Engine.nodeAt, Vector.getElem?_eq_getElem h511]⟩

section Built

variable {a : Engine} (ha : ArenaBuilt a)
include ha

theorem serNode_ends (depth : Nat) {i : BitVec 9} (hi : i.toNat < a.nodeCount.toNat) (hd : i.toNat < depth) {s : State}
    (hs : SameArena a s.eng) : (serNode depth i s).Ends := by
  induction depth generalizing i s with
  | zero => omega
  | succ depth ih =>
    obtain ⟨n, hn⟩ := nodeAt_of_lt s.eng ha.fits hi
    simp only [serNode, hn]
    cases hk : n.kind with
    | leaf => exact (writeBit_ends true s).bind fun _ u _ => writeString_ends _ u
    | internal =>
      obtain ⟨hl, hr⟩ := ha.childrenBelow _ n hi (by rwa [Engine.nodeAt, hs.node] at hn) hk
      have hbit : ∀ v u, writeBit false s = .ok v u → SameArena a u.eng := fun v u hu =>
        ((writeBit_sim (TreeAlike.stable a a) (e := s.eng) ⟨rfl, hs, hs⟩ false).of_ok hu).left
      have hsub : ∀ v u w, SameArena a u.eng → serNode depth n.left u = .ok v w → SameArena a w.eng :=
        fun v u w hu hw =>
          ((serNode_sim ha.alike (TreeAlike.stable a a) (fun h => ⟨h.left, h.right⟩) depth (by omega)
            (e := u.eng) ⟨rfl, hu, hu⟩).of_ok hw).left
      refine ((writeBit_ends false s).bind fun v u hu => ?_).bind fun v w hw => ?_
      · exact ih (by omega) (by omega) (hbit v u hu)
      · obtain ⟨v', u, hu, hw⟩ := Res.bind_eq_ok.1 hw
        exact ih (by omega) (by omega) (hsub v u w (hbit v' u hu) hw)

theorem derive_isSome (depth : Nat) {i : BitVec 9} (hi : i.toNat < a.nodeCount.toNat) (hd : i.toNat < depth)
    (path : Bits) {d : Engine} (hs : Deriving a a d d) : ∃ d', derive depth i path d = some d' := by
  induction depth generalizing i path d with
  | zero => omega
  | succ depth ih =>
    obtain ⟨n, hn⟩ := nodeAt_of_lt d ha.fits hi
    simp only [derive, hn]
    cases hk : n.kind with
    | leaf => exact ⟨_, rfl⟩
    | internal =>
      obtain ⟨hl, hr⟩ := ha.childrenBelow _ n hi (by rwa [Engine.nodeAt, hs.arenas.1.node] at hn) hk
      obtain ⟨d1, hd1⟩ := ih (i := n.left) (by omega) (by omega) (path ++ [false]) hs
      obtain ⟨_, hd1', h1⟩ := derive_sim ha.alike (by omega) hs hd1
      rw [hd1] at hd1'
      cases hd1'
      obtain ⟨d2, hd2⟩ := ih (i := n.right) (by omega) (by omega) (path ++ [true]) h1
      simp only [hd1, hd2]
      exact ⟨_, rfl⟩

end Built

/-! ### The reader runs out of bits (R127, R128, R201) -/

/-- How many bits the reader can still return. -/
def bitsLeft (s : State) : Nat := s.eng.r.cnt.toNat + 8 * (s.ctx.len.toNat - s.eng.r.inPos.toNat)

theorem bitsLeft_lt_bitBound {s : State} (h : ReaderOk s) : bitsLeft s < bitBound s := by
  have hcnt := h.2
  rw [bitsLeft, bitBound]
  omega

theorem takeBit_bitsLeft {s t : State} {x : Option Bool} (hc : s.eng.r.cnt ≠ 0) (h : takeBit s = .ok x t) :
    x.isSome = true ∧ bitsLeft t + 1 = bitsLeft s := by
  simp only [takeBit, Res.ok.injEq] at h
  obtain ⟨rfl, rfl⟩ := h
  have hone : (1#4).toNat = 1 := rfl
  have hne : s.eng.r.cnt.toNat ≠ 0 := fun h0 => hc (BitVec.eq_of_toNat_eq h0)
  refine ⟨rfl, ?_⟩
  show (s.eng.r.cnt - 1#4).toNat + _ + 1 = _
  rw [BitVec.toNat_sub_of_le (by rw [BitVec.le_def]; omega), hone, bitsLeft]
  dsimp only [State.setReader_eng, State.setReader_ctx]
  omega

/-- ReadBit returns EOS when no bit is left, and otherwise takes one. -/
theorem readBit_bitsLeft {s t : State} {x : Option Bool} (hr : ReaderOk s) (h : readBit s = .ok x t) :
    (x = none ∧ bitsLeft s = 0) ∨ (x.isSome = true ∧ bitsLeft t + 1 = bitsLeft s) := by
  unfold readBit at h
  split at h
  · next hcnt =>
    split at h
    · next heq =>
      simp only [Res.ok.injEq] at h
      exact .inl ⟨h.1.symm, by simp [bitsLeft, hcnt, heq]⟩
    · next hne =>
      have hlt : s.eng.r.inPos.toNat < s.ctx.len.toNat :=
        Nat.lt_of_le_of_ne hr.1 fun heq => hne (BitVec.eq_of_toNat_eq heq)
      have hlen := s.ctx.len.isLt
      rw [memRead_eq] at h
      by_cases hok : (nextAnswer s).1 = .ok
      · simp only [hok, if_true, nextAnswer_eng] at h
        obtain ⟨hx, ht⟩ := takeBit_bitsLeft (show 8#4 ≠ 0 by decide) h
        refine .inr ⟨hx, ht.trans ?_⟩
        simp only [bitsLeft, State.setReader_eng, State.setReader_ctx, nextAnswer_ctx, BitVec.toNat_add, hcnt]
        rw [Nat.mod_eq_of_lt (by simp; omega)]
        simp
        omega
      · simp [hok] at h
  · next hcnt => exact .inr (takeBit_bitsLeft hcnt h)

/-- ReadBits returns a value when as many bits are left. -/
theorem readBitsFrom_some {n : Nat} {v : Word} {s t : State} {x : Option Word} (hr : ReaderOk s) (hn : n ≤ bitsLeft s)
    (h : readBitsFrom n v s = .ok x t) : x.isSome = true := by
  induction n generalizing v s with
  | zero =>
    simp only [readBitsFrom, Res.ok.injEq] at h
    rw [← h.1]
    rfl
  | succ n ih =>
    obtain ⟨b, u, hb, h⟩ := Res.bind_eq_ok.1 h
    rcases readBit_bitsLeft hr hb with ⟨-, hzero⟩ | ⟨hsome, hleft⟩
    · omega
    · obtain ⟨b, rfl⟩ := Option.isSome_iff_exists.1 hsome
      exact ih ((readerOk_readBit hr).of_ok hb) (by omega) h

theorem dHeader_ends (s : State) : (dHeader s).Ends := by
  unfold dHeader
  dsimp only
  split
  · exact Res.ends_raised _ _ _
  · next hlen =>
    have hlen' : 4 ≤ s.ctx.len.toNat := Nat.le_of_not_lt hlen
    refine (readBitsFrom_ends _ _ _).bind fun x u hx => ?_
    have hsome := readBitsFrom_some (s := wInit (rInit s)) ⟨Nat.zero_le _, Nat.zero_le _⟩
      (show 32 ≤ bitsLeft (wInit (rInit s)) by simp [bitsLeft]; omega) hx
    obtain ⟨n, rfl⟩ := Option.isSome_iff_exists.1 hsome
    exact Res.ends_ok _ _

/-- DesNode ends: each level of its recursion allocates one of the 511 entries (R162, R167). -/
theorem desNode_ends (depth : Nat) (isRoot : Bool) {s : State} (hfits : s.eng.nodeCount.toNat ≤ Config.nodeCap)
    (hd : Config.nodeCap < depth + s.eng.nodeCount.toNat) : (desNode depth isRoot s).Ends := by
  induction depth generalizing isRoot s with
  | zero => omega
  | succ depth ih =>
    rw [desNode]
    refine (readBit_ends s).bind fun x u hu => ?_
    have hread : ReadAlike s.eng s.eng := ⟨rfl, .refl _, rfl, rfl, hfits⟩
    have hu' := (readBit_sim (ReadOn.stable s.eng s.eng) ⟨hread, .refl _, .refl _⟩).of_ok hu
    cases x with
    | none => exact Res.ends_raised _ _ _
    | some x =>
      dsimp only
      split
      · exact Res.ends_raised _ _ _
      · split
        · exact Res.ends_raised _ _ _
        · next hne =>
          have hlt : u.eng.nodeCount.toNat < Config.nodeCap := Nat.lt_of_le_of_ne hu'.alike.fits hne
          have halloc : ReadAlike (allocNode u).eng (allocNode u).eng := hu'.alike.alloc hlt
          have hcount : (allocNode u).eng.nodeCount.toNat = s.eng.nodeCount.toNat + 1 := by
            rw [← hu'.left.nodeCount]
            exact nodeCount_add_one_toNat hlt
          split
          · refine (readBitsFrom_ends _ _ _).bind fun v w _ => ?_
            cases v with
            | none => exact Res.ends_raised _ _ _
            | some v => exact Res.ends_ok _ _
          · refine (ih false halloc.fits (by omega)).bind fun l w hw => ?_
            have hl := (desNode_sim depth false halloc).of_ok hw
            have hgrows := hl.grows
            exact (ih false hl.alike.fits (by omega)).bind fun r w' _ => Res.ends_ok _ _

/-- A walk ends while it may take more steps than bits are left (R201). -/
theorem walkArena_ends {a : Engine} (ha : ArenaRead a) (steps : Nat) {i : BitVec 9} (hi : i.toNat < a.nodeCount.toNat)
    {s : State} (hs : DecodeAlike a a s.eng s.eng) (hr : ReaderOk s) (hd : bitsLeft s < steps) :
    (walkArena steps i s).Ends := by
  induction steps generalizing i s with
  | zero => omega
  | succ steps ih =>
    obtain ⟨n, hn⟩ := nodeAt_of_lt s.eng ha.fits hi
    simp only [walkArena, hn]
    cases hk : n.kind with
    | leaf => exact Res.ends_ok _ _
    | internal =>
      obtain ⟨-, hl, -, hright⟩ := ha.childrenAbove _ n hi (by rwa [Engine.nodeAt, hs.left.node] at hn) hk
      refine (readBit_ends s).bind fun x u hu => ?_
      rcases readBit_bitsLeft hr hu with ⟨rfl, -⟩ | ⟨hsome, hleft⟩
      · exact Res.ends_ok _ _
      · obtain ⟨b, rfl⟩ := Option.isSome_iff_exists.1 hsome
        exact ih (by cases b <;> assumption) ((readBit_sim (DecodeAlike.readerStable a a) hs).of_ok hu)
          ((readerOk_readBit hr).of_ok hu) (by omega)

theorem readerOk_walkArena {s : State} (h : ReaderOk s) (steps : Nat) (i : BitVec 9) :
    (walkArena steps i s).All ReaderOk := by
  induction steps generalizing i s with
  | zero => trivial
  | succ steps ih =>
    unfold walkArena
    split
    · trivial
    · split
      · exact h
      · refine Res.all_bind (readerOk_readBit h) fun b u hu => ?_
        cases b with
        | none => exact hu
        | some b => exact ih hu _

theorem readerOk_putByte {s : State} (h : ReaderOk s) (v : Byte) : (putByte v s).All ReaderOk := by
  rw [putByte_eq]
  split
  · exact h
  · split <;> simpa [ReaderOk] using h

theorem decodeLoop_ends {a : Engine} (ha : ArenaRead a) (n : Nat) {s : State} (hs : DecodeAlike a a s.eng s.eng)
    (hr : ReaderOk s) : (decodeLoop n s).Ends := by
  induction n generalizing s with
  | zero => exact Res.ends_ok _ _
  | succ n ih =>
    rw [decodeLoop]
    have hroot : s.eng.root.toNat < a.nodeCount.toNat := by rw [hs.left.root]; exact ha.rootUsed
    refine (walkArena_ends ha _ hroot hs hr (bitsLeft_lt_bitBound hr)).bind fun x u hu => ?_
    have hu' := (walkArena_sim ha.alike (DecodeAlike.readerStable a a) (fun h => ⟨h.left, h.right⟩) _ hroot hs).of_ok hu
    cases x with
    | none => exact Res.ends_raised _ _ _
    | some v =>
      refine (putByte_ends v u).bind fun _ w hw => ?_
      have hw' := (putByte_sim (DecodeAlike.writerStable a a) hu' v).of_ok hw
      have hreader : ReaderOk w := (readerOk_putByte ((readerOk_walkArena hr _ _).of_ok hu) v).of_ok hw
      exact ih (s := w.setSym _) ⟨hw'.left.setSym _, hw'.right.setSym _, rfl, hw'.r, rfl, rfl⟩ hreader

end Sys2Proof.Machine

namespace Sys2Proof.Machine

/-! ## Family 20_memory: a step faults in no state of the invariant -/

/-! ### Phases end, and each leads to a later one (R225, R228, R231) -/

/-- How many phases a command has left, the one it is in included. -/
def Phase.left : Phase → Nat
  | .idle => 0
  | .cFlush | .dDecode | .xDump => 1
  | .cEncode | .dTree => 2
  | .cDerive | .dHeader => 3
  | .cTree => 4
  | .cHeader => 5
  | .cBuild => 6
  | .cCount => 7

/-- The state that comes with a value has the property. -/
def Res.OnOk {α : Type} (P : State → Prop) (x : Res α) : Prop := ∀ a t, x = .ok a t → P t

theorem Res.OnOk.ok {α : Type} {P : State → Prop} {a : α} {s : State} (h : P s) : (Res.ok a s).OnOk P := by
  intro a' t ht
  cases ht
  exact h

theorem Res.OnOk.raised {α : Type} {P : State → Prop} {c : ErrCode} {v : Word} {s : State} :
    (Res.raised c v s : Res α).OnOk P := fun _ _ h => by cases h

theorem Res.OnOk.stuck {α : Type} {P : State → Prop} {f : Fault} : (Res.stuck f : Res α).OnOk P :=
  fun _ _ h => by cases h

theorem Res.OnOk.bind {α β : Type} {P : State → Prop} (x : Res α) {f : α → State → Res β}
    (hf : ∀ a s, (f a s).OnOk P) : (x.bind f).OnOk P := by
  intro b t ht
  obtain ⟨a, s, -, h⟩ := Res.bind_eq_ok.1 ht
  exact hf a s b t h

theorem compressPhase_left (s : State) : (compressPhase s).OnOk fun t => t.phase.left < s.phase.left := by
  unfold compressPhase
  cases s.phase <;> dsimp only
  case cCount => exact .bind _ fun _ _ => .ok (by decide : 6 < 7)
  case cBuild =>
    unfold cBuild
    cases buildArena s.eng with
    | none => exact .stuck
    | some e => exact .ok (by decide : 5 < 6)
  case cHeader => exact .bind _ fun _ _ => .ok (by decide : 4 < 5)
  case cTree => exact .bind _ fun _ _ => .ok (by decide : 3 < 4)
  case cDerive =>
    unfold cDerive
    cases derive Config.stackDepth s.eng.root [] s.eng.clearCodes with
    | none => exact .stuck
    | some e => exact .ok (by decide : 2 < 3)
  case cEncode => exact .bind _ fun _ _ => .ok (by decide : 1 < 2)
  case cFlush => exact .bind _ fun _ _ => .ok (by decide : 0 < 1)
  all_goals exact .stuck

theorem decompressPhase_left (s : State) : (decompressPhase s).OnOk fun t => t.phase.left < s.phase.left := by
  unfold decompressPhase
  cases s.phase <;> dsimp only
  case dHeader =>
    unfold dHeader
    dsimp only
    split
    · exact .raised
    · refine .bind _ fun x _ => ?_
      cases x with
      | none => exact .stuck
      | some n => exact .ok (by decide : 2 < 3)
  case dTree => exact .bind _ fun _ _ => .ok (by decide : 1 < 2)
  case dDecode => exact .bind _ fun _ _ => .ok (by decide : 0 < 1)
  all_goals exact .stuck

theorem dumpbitsPhase_left (s : State) : (dumpbitsPhase s).OnOk fun t => t.phase.left < s.phase.left := by
  unfold dumpbitsPhase
  cases s.phase <;> dsimp only
  case xDump => exact .bind _ fun _ _ => .ok (by decide : 0 < 1)
  all_goals exact .stuck

theorem commandPhase_left {i : Instr} {s t : State} (h : commandPhase i s = .ok () t) :
    t.phase.left < s.phase.left := by
  cases i with
  | compress => exact compressPhase_left s _ _ h
  | decompress => exact decompressPhase_left s _ _ h
  | dumpbits => exact dumpbitsPhase_left s _ _ h

theorem compressPhase_ends {s : State} (hc : s.phase.command = some .compress) (h : PhaseOk s) :
    (compressPhase s).Ends := by
  unfold PhaseOk at h
  unfold compressPhase
  have hdepth : ∀ i : BitVec 9, i.toNat < Config.stackDepth := fun i => i.isLt
  cases hp : s.phase <;> rw [hp] at h hc <;> dsimp only
  case cCount => exact (countLoop_ends _ _).bind fun _ _ _ => Res.ends_ok _ _
  case cBuild =>
    obtain ⟨e, he⟩ := buildArena_isSome s.eng
    rw [cBuild, he]
    exact Res.ends_ok _ _
  case cHeader => exact (writeString_ends _ _).bind fun _ _ _ => Res.ends_ok _ _
  case cTree =>
    exact (serNode_ends h.1 _ h.1.rootUsed (hdepth _) (.refl _)).bind fun _ _ _ => Res.ends_ok _ _
  case cDerive =>
    obtain ⟨e, he⟩ := derive_isSome h.1 Config.stackDepth h.1.rootUsed (hdepth _) []
      (d := s.eng.clearCodes) ⟨rfl, rfl, .clearCodes _ _⟩
    rw [cDerive, he]
    exact Res.ends_ok _ _
  case cEncode => exact (encodeLoop_ends _ _).bind fun _ _ _ => Res.ends_ok _ _
  case cFlush => exact (flush_ends _).bind fun _ _ _ => Res.ends_ok _ _
  all_goals simp [Phase.command] at hc

theorem decompressPhase_ends {s : State} (hc : s.phase.command = some .decompress) (h : PhaseOk s) :
    (decompressPhase s).Ends := by
  unfold PhaseOk at h
  unfold decompressPhase
  cases hp : s.phase <;> rw [hp] at h hc <;> dsimp only
  case dHeader => exact dHeader_ends s
  case dTree => exact (desNode_ends _ _ (Nat.zero_le _) (by decide : 511 < 512)).bind fun _ _ _ => Res.ends_ok _ _
  case dDecode =>
    obtain ⟨hr, -, harena⟩ := h
    exact (decodeLoop_ends harena _ (s := s.setSym 0)
      ⟨⟨rfl, rfl, rfl⟩, ⟨rfl, rfl, rfl⟩, rfl, .refl _, rfl, rfl⟩ hr).bind fun _ _ _ => Res.ends_ok _ _
  all_goals simp [Phase.command] at hc

theorem dumpbitsPhase_ends {s : State} (hc : s.phase.command = some .dumpbits) : (dumpbitsPhase s).Ends := by
  unfold dumpbitsPhase
  cases hp : s.phase <;> rw [hp] at hc <;> dsimp only
  case xDump => exact (dumpLoop_ends _ _).bind fun _ _ _ => Res.ends_ok _ _
  all_goals simp [Phase.command] at hc

/-- A phase of a running command that finds what it expects is not stuck. -/
theorem commandPhase_ends {i : Instr} {s : State} (hc : s.phase.command = some i) (h : PhaseOk s) :
    (commandPhase i s).Ends := by
  cases i with
  | compress => exact compressPhase_ends hc h
  | decompress => exact decompressPhase_ends hc h
  | dumpbits => exact dumpbitsPhase_ends hc

/-! ### Engine steps and moves have a next state -/

theorem finish_isNext {i : Instr} {s u : State} {n : Nat} (hrun : Running i s) (h : OnTheWay i s u)
    (hn : u.phase.left ≤ n) : ∃ t, finish (commandPhase i) n u = .next t := by
  induction n generalizing u with
  | zero =>
    have hidle := phase_command_ne_idle h.command
    cases hp : u.phase <;> simp [hp, Phase.left] at hn hidle
  | succ n ih =>
    rw [finish]
    have hends := commandPhase_ends h.command h.inv.phaseOk
    split
    · next v hv =>
      split
      · exact ⟨v, rfl⟩
      · next hidle =>
        have hleft := commandPhase_left hv
        exact ih (h.step hrun hv hidle) (by omega)
    · exact ⟨_, rfl⟩
    · next f hf => exact absurd hf (hends f)

theorem proceed_isNext {phase : State → Res Unit} {s : State} (h : (phase s).Ends) :
    ∃ t, proceed phase s = .next t := by
  unfold proceed
  split
  · split <;> exact ⟨_, rfl⟩
  · exact ⟨_, rfl⟩
  · next f hf => exact absurd hf (h f)

/-- An engine step of a running command answers a next state (R220, R289). -/
theorem exec_isNext {i : Instr} {s : State} (h : s.Inv) (hrun : Running i s) (hc : s.phase.command = some i) :
    ∃ t, exec i s = .next t := by
  rw [exec_busy hrun.busy, engineStep]
  split
  · refine finish_isNext hrun (.start h hc) ?_
    cases s.phase <;> decide
  · exact proceed_isNext (commandPhase_ends hc h.phaseOk)

theorem engineMove_isNext {s : State} (h : s.Inv) : ∃ t, engineMove s = .next t := by
  cases hb : s.regs.status.busy with
  | false => exact ⟨s, engineMove_idle hb⟩
  | true =>
    obtain ⟨i, hc, hrun⟩ := h.running hb
    rw [engineMove_busy hb (by rw [hrun.op, decodeOp_op])]
    exact exec_isNext h hrun hc

theorem cmdWrite_isNext (w : Word) (s : State) : ∃ t, cmdWrite w s = .next t := by
  rcases cmdWrite_cases w s with ⟨_, h⟩ | ⟨_, i, _, h⟩ | ⟨_, e, _, h⟩
  all_goals exact ⟨_, h⟩

theorem hostRegWrite_isNext (off : BitVec 6) (width : Nat) (v : Word) (s : State) :
    ∃ t, hostRegWrite off width v s = .next t := by
  unfold hostRegWrite
  split
  · split
    · exact cmdWrite_isNext v _
    · exact ⟨_, rfl⟩
  · exact ⟨_, rfl⟩

theorem hostBusWrite_isNext (addr : Word) (width : Nat) (v : Word) (s : State) :
    ∃ t, hostBusWrite addr width v s = .next t := by
  unfold hostBusWrite
  split
  · exact hostRegWrite_isNext _ width v s
  · exact ⟨_, rfl⟩

/-- Settles O20: the engine's moves have a next state, and of the others only a host store can be without one. -/
theorem invariantNeverFaults : Obligations.InvariantNeverFaults := by
  unfold Obligations.InvariantNeverFaults
  intro s h
  unfold step
  split
  · exact .inl (engineMove_isNext h)
  · next m rest hi =>
    have hrest : (s.setInputs rest).Inv := h.of_sameBlock (.setInputs s rest)
    cases m with
    | regRead off width => exact .inl ⟨_, rfl⟩
    | regWrite off width v => exact .inl (hostRegWrite_isNext off width v _)
    | busRead addr width => exact .inl ⟨_, rfl⟩
    | busWrite addr width v => exact .inl (hostBusWrite_isNext addr width v _)
    | memRead a => exact .inl ⟨_, rfl⟩
    | memWrite a b =>
      dsimp only [hostMemWrite]
      split
      · next hbuffer =>
        simp only [Bool.and_eq_true, Bool.or_eq_true, Ctx.inSrc, Ctx.inDst, inWindow_iff] at hbuffer
        obtain ⟨hb, hin⟩ := hbuffer
        exact .inr ⟨rfl, hb, a, b, rest, hi, hin⟩
      · exact .inl ⟨_, rfl⟩
    | wait =>
      dsimp only
      split
      · exact .inl (engineMove_isNext (h.of_sameBlock (SameBlock.hostRegRead ⟨rfl, rfl, rfl, rfl, rfl, id⟩ _ _)))
      · exact .inl ⟨_, rfl⟩
    | rst => exact .inl ⟨_, rfl⟩
    | engine => exact .inl (engineMove_isNext hrest)

end Sys2Proof.Machine

namespace Sys2Proof.Machine

/-! ## Family 20_memory: the accesses a computation makes, in program order

Between two points of a running command the engine's accesses are a list of `Access`es. With `k` answers `Ok` to come
and then a `BusErr`, access `k` of the list is the one that fails (R62, R63, R255), unless the list is shorter. -/

/-- What a command running in `s` keeps up to `t`: the registers, the context, the moves to come and the latest
response, and every byte outside the window (spec/20_memory.md R80, R81). -/
structure Kept (s t : State) : Prop where
  regs : t.regs = s.regs
  ctx : t.ctx = s.ctx
  inputs : t.env.inputs = s.env.inputs
  resp : t.env.resp = s.env.resp
  outside : SameOutside s.ctx.dst.toNat s.ctx.cap.toNat s.mem t.mem

/-- A state of the command running in `s`, before the access that fails: `k` more are answered `Ok`. -/
structure BeforeError (s : State) (k : Nat) (more : List BusAnswer) (t : State) : Prop where
  kept : Kept s t
  answers : t.env.answers = List.replicate k .ok ++ .busErr :: more

/-- A state of the command running in `s`, after the access that failed. -/
structure AfterError (s : State) (more : List BusAnswer) (t : State) : Prop where
  kept : Kept s t
  answers : t.env.answers = more

namespace BeforeError

variable {s t : State} {k : Nat} {more : List BusAnswer}

theorem start (h : s.env.answers = List.replicate k .ok ++ .busErr :: more) : BeforeError s k more s :=
  ⟨⟨rfl, rfl, rfl, rfl, fun _ _ => rfl⟩, h⟩

theorem setEng (h : BeforeError s k more t) (e : Engine) : BeforeError s k more (t.setEng e) :=
  ⟨⟨h.kept.regs, h.kept.ctx, h.kept.inputs, h.kept.resp, h.kept.outside⟩, h.answers⟩

theorem setPhase (h : BeforeError s k more t) (p : Phase) : BeforeError s k more (t.setPhase p) :=
  ⟨⟨h.kept.regs, h.kept.ctx, h.kept.inputs, h.kept.resp, h.kept.outside⟩, h.answers⟩

/-- The next access is answered `Ok`. -/
theorem next_ok (h : BeforeError s (k + 1) more t) :
    ∃ u, nextAnswer t = (.ok, u) ∧ BeforeError s k more u ∧ u.eng = t.eng ∧ u.mem = t.mem :=
  ⟨_, nextAnswer_cons h.answers,
    ⟨⟨h.kept.regs, h.kept.ctx, h.kept.inputs, h.kept.resp, h.kept.outside⟩, rfl⟩, rfl, rfl⟩

/-- The next access is answered `BusErr`. -/
theorem next_busErr (h : BeforeError s 0 more t) :
    ∃ u, nextAnswer t = (.busErr, u) ∧ AfterError s more u ∧ u.eng = t.eng ∧ u.mem = t.mem :=
  ⟨_, nextAnswer_cons h.answers,
    ⟨⟨h.kept.regs, h.kept.ctx, h.kept.inputs, h.kept.resp, h.kept.outside⟩, rfl⟩, rfl, rfl⟩

end BeforeError

/-- A store inside the window. -/
theorem BeforeError.setMem_write {s t : State} {k : Nat} {more : List BusAnswer} (h : BeforeError s k more t) {a : Nat}
    (v : Byte) (ha : s.ctx.dst.toNat ≤ a ∧ a < s.ctx.dst.toNat + s.ctx.cap.toNat) :
    BeforeError s k more (t.setMem (t.mem.write a v)) :=
  ⟨⟨h.kept.regs, h.kept.ctx, h.kept.inputs, h.kept.resp, fun x hx => by
    rw [State.setMem_mem, Memory.read_write_ne _ _ (by rintro rfl; exact hx ha)]
    exact h.kept.outside x hx⟩, h.answers⟩

/-- A stretch inside the window becomes unspecified. -/
theorem AfterError.forgetBytes {s t : State} {more : List BusAnswer} (h : AfterError s more t) (base len : Word)
    (hb : s.ctx.dst.toNat ≤ base.toNat)
    (hl : base.toNat + len.toNat ≤ s.ctx.dst.toNat + s.ctx.cap.toNat) : AfterError s more (forgetBytes base len t) :=
  ⟨⟨h.kept.regs, h.kept.ctx, h.kept.inputs, h.kept.resp, fun x hx => by
    rw [forgetBytes_mem, Memory.read_forget_outside _ (by omega)]
    exact h.kept.outside x hx⟩, h.answers⟩

/-! ### Lists of accesses -/

/-- All these accesses are inside the window of the command that runs in `s`. -/
def Fit (s : State) (l : List Access) : Prop := ∀ b ∈ l, b.fits s.ctx.cap = true

namespace Fit

variable {s : State} {l l' : List Access}

theorem append (h : Fit s l) (h' : Fit s l') : Fit s (l ++ l') := fun b hb =>
  (List.mem_append.1 hb).elim (h b) (h' b)

theorem cons {a : Access} (ha : a.fits s.ctx.cap = true) (h : Fit s l) : Fit s (a :: l) := fun b hb => by
  rcases List.mem_cons.1 hb with rfl | hb
  · exact ha
  · exact h b hb

theorem writesBetween {p q : Nat} (h : q ≤ s.ctx.cap.toNat) : Fit s (writesBetween p q) := fun b hb => by
  obtain ⟨j, -, hj, rfl⟩ := mem_writesBetween.1 hb
  exact (Access.fits_write _ _).2 (by omega)

theorem reads (l : List Nat) : Fit s (l.map .read) := fun b hb => by
  obtain ⟨i, -, rfl⟩ := List.mem_map.1 hb
  rfl

end Fit

/-- If access `k` of the list is made, it raises its error, and no access is made after it. -/
def Fails {α : Type} (s : State) (k : Nat) (more : List BusAnswer) (l : List Access) (x : Res α) : Prop :=
  ∀ a, l[k]? = some a → Fit s (l.take (k + 1)) →
    ∃ t, x = .raised a.busError.1 a.busError.2 t ∧ AfterError s more t

/-- If the list has at most `k` accesses, all are made, and the value and the state after them are as `Q` says. -/
def Passes {α : Type} (s : State) (k : Nat) (more : List BusAnswer) (l : List Access) (x : Res α)
    (Q : α → State → Prop) : Prop :=
  l.length ≤ k → Fit s l → ∃ a t, x = .ok a t ∧ BeforeError s (k - l.length) more t ∧ Q a t

/-- A computation whose accesses are those of the list, ending as `Q` says when none of them fails. -/
structure Makes {α : Type} (s : State) (k : Nat) (more : List BusAnswer) (l : List Access) (x : Res α)
    (Q : α → State → Prop) : Prop where
  fails : Fails s k more l x
  passes : Passes s k more l x Q

section Accesses

variable {α β : Type} {s t : State} {k : Nat} {more : List BusAnswer} {l l' : List Access} {x : Res α}
  {Q : α → State → Prop} {f : α → State → Res β} {R : β → State → Prop}

theorem Fails.nil : Fails s k more [] x := fun a ha => by simp at ha

theorem Fails.bind (h : Fails s k more l x) : Fails s k more l (x.bind f) := fun a ha hfit => by
  obtain ⟨t, rfl, ht⟩ := h a ha hfit
  exact ⟨t, rfl, ht⟩

theorem Makes.ok {a : α} (h : BeforeError s k more t) (hQ : Q a t) : Makes s k more [] (.ok a t) Q :=
  ⟨.nil, fun _ _ => ⟨a, t, rfl, h, hQ⟩⟩

theorem Makes.bind_fails (hx : Makes s k more l x Q)
    (hf : ∀ a t, BeforeError s (k - l.length) more t → Q a t → Fails s (k - l.length) more l' (f a t)) :
    Fails s k more (l ++ l') (x.bind f) := by
  intro a ha hfit
  rcases Nat.lt_or_ge k l.length with hk | hk
  · rw [List.getElem?_append_left hk] at ha
    rw [List.take_append_of_le_length hk] at hfit
    exact hx.fails.bind a ha hfit
  · rw [List.getElem?_append_right hk] at ha
    rw [List.take_append, List.take_of_length_le (Nat.le_succ_of_le hk), Nat.succ_sub hk] at hfit
    obtain ⟨b, t, rfl, ht, hQ⟩ := hx.passes hk fun c hc => hfit c (List.mem_append_left _ hc)
    exact hf b t ht hQ a ha fun c hc => hfit c (List.mem_append_right _ hc)

theorem Makes.bind (hx : Makes s k more l x Q)
    (hf : ∀ a t, BeforeError s (k - l.length) more t → Q a t → Makes s (k - l.length) more l' (f a t) R) :
    Makes s k more (l ++ l') (x.bind f) R where
  fails := hx.bind_fails fun a t ht hQ => (hf a t ht hQ).fails
  passes hlen hfit := by
    rw [List.length_append] at hlen ⊢
    obtain ⟨a, t, rfl, ht, hQ⟩ := hx.passes (by omega) fun c hc => hfit c (List.mem_append_left _ hc)
    obtain ⟨b, u, hu, hBefore, hR⟩ := (hf a t ht hQ).passes (by omega) fun c hc => hfit c (List.mem_append_right _ hc)
    exact ⟨b, u, hu, by rwa [← Nat.sub_sub], hR⟩

/-- Nothing but a change of value and state after the accesses. -/
theorem Makes.map (hx : Makes s k more l x Q)
    (hf : ∀ a t k', BeforeError s k' more t → Q a t → Makes s k' more [] (f a t) R) :
    Makes s k more l (x.bind f) R := by
  rw [← List.append_nil l]
  exact hx.bind fun a t ht hQ => hf a t _ ht hQ

theorem Makes.mono {Q' : α → State → Prop} (hx : Makes s k more l x Q) (h : ∀ a t, Q a t → Q' a t) :
    Makes s k more l x Q' where
  fails := hx.fails
  passes hlen hfit := by
    obtain ⟨a, t, hx, ht, hQ⟩ := hx.passes hlen hfit
    exact ⟨a, t, hx, ht, h a t hQ⟩

/-- A computation of one access. -/
theorem Makes.single {a : Access}
    (hok : ∀ k', k = k' + 1 → a.fits s.ctx.cap = true → ∃ v t, x = .ok v t ∧ BeforeError s k' more t ∧ Q v t)
    (herr : k = 0 → a.fits s.ctx.cap = true → ∃ t, x = .raised a.busError.1 a.busError.2 t ∧ AfterError s more t) :
    Makes s k more [a] x Q where
  fails b hb hfit := by
    cases k with
    | zero =>
      obtain rfl : a = b := by simpa using hb
      exact herr rfl (hfit a (by simp))
    | succ k => simp at hb
  passes hlen hfit := by
    obtain ⟨k, rfl⟩ : ∃ k', k = k' + 1 := ⟨k - 1, by simp at hlen; omega⟩
    exact hok k rfl (hfit a (by simp))

end Accesses

/-! ### One access: GetByte and PutByte -/

theorem toNat_add_one_of_lt {v n : Word} (h : v.toNat < n.toNat) : (v + 1).toNat = v.toNat + 1 :=
  BitVec.toNat_add_of_lt (Nat.lt_of_le_of_lt h n.isLt)

theorem srcBytes_length (c : Ctx) (m : Memory) : (c.srcBytes m).length = c.len.toNat := by
  simp [Ctx.srcBytes, readBytes]

section Operations

variable {s t : State} {k : Nat} {more : List BusAnswer} (hargs : s.ctx.args.wf = true)
include hargs

/-- A source byte is as it was when the command began: the buffers share no byte (R222 check 5). -/
theorem Kept.srcByte (h : Kept s t) {i : Word} (hi : i.toNat < s.ctx.len.toNat) :
    (s.ctx.srcBytes s.mem)[i.toNat]? = some (t.mem.read (t.ctx.src + i).toNat) := by
  have hsrc := CmdArgs.wf_src hargs
  have hlen := s.ctx.len.isLt
  simp only [Ctx.args] at hsrc
  have haddr : (s.ctx.src + i).toNat = s.ctx.src.toNat + i.toNat := by
    rw [BitVec.toNat_add, Nat.mod_eq_of_lt (by omega)]
  have hread := h.outside (s.ctx.src.toNat + i.toNat) fun hd =>
    CmdArgs.wf_disjoint hargs (x := s.ctx.src.toNat + i.toNat) ⟨Nat.le_add_right _ _, Nat.add_lt_add_left hi _⟩ hd
  rw [h.ctx, haddr, hread, Ctx.srcBytes, readBytes, List.getElem?_map, List.getElem?_range hi]
  rfl

theorem makes_getByte (h : BeforeError s k more t) {i : Word} (hi : i.toNat < s.ctx.len.toNat) :
    Makes s k more [.read i.toNat] (getByte i t)
      (fun b u => (s.ctx.srcBytes s.mem)[i.toNat]? = some b ∧ u.eng = t.eng) := by
  rw [getByte_eq]
  refine .single (fun k' hk _ => ?_) (fun hk _ => ?_) <;> subst hk
  · obtain ⟨u, hu, hbefore, heng, -⟩ := h.next_ok
    rw [hu]
    exact ⟨_, u, rfl, hbefore, h.kept.srcByte hargs hi, heng⟩
  · obtain ⟨u, hu, hafter, -⟩ := h.next_busErr
    rw [hu]
    exact ⟨u, by simp, hafter⟩

theorem makes_putByte (h : BeforeError s k more t) {j : Nat} (hj : t.eng.w.outPos.toNat = j) (v : Byte) :
    Makes s k more [.write j] (putByte v t) (fun _ u =>
      u.eng = { t.eng with w := { t.eng.w with outPos := t.eng.w.outPos + 1 } } ∧ u.eng.w.outPos.toNat = j + 1) := by
  have hdst := CmdArgs.wf_dst hargs
  have hcap := s.ctx.cap.isLt
  simp only [Ctx.args] at hdst
  have hctx := h.kept.ctx
  have haddr : j < s.ctx.cap.toNat → (t.ctx.dst + t.eng.w.outPos).toNat = s.ctx.dst.toNat + j := fun hlt => by
    rw [hctx, BitVec.toNat_add, hj, Nat.mod_eq_of_lt (by omega)]
  have hroom : j < s.ctx.cap.toNat → t.eng.w.outPos ≠ t.ctx.cap := fun hlt heq => by
    rw [heq, hctx] at hj
    omega
  rw [putByte_eq]
  refine .single (fun k' hk hfit => ?_) (fun hk hfit => ?_) <;> subst hk <;> rw [Access.fits_write] at hfit <;>
    rw [if_neg (hroom hfit)]
  · obtain ⟨u, hu, hbefore, heng, hmem⟩ := h.next_ok
    have hstore := hbefore.setMem_write v (a := (t.ctx.dst + t.eng.w.outPos).toNat) (by rw [haddr hfit]; omega)
    rw [hu, if_pos rfl, ← hmem]
    refine ⟨(), _, rfl, hstore.setEng _, by rw [State.setWriter_eng, State.setMem_eng, heng], ?_⟩
    show (t.eng.w.outPos + 1).toNat = j + 1
    rw [toNat_add_one_of_lt (hj.trans_lt hfit), hj]
  · obtain ⟨u, hu, hafter, -⟩ := h.next_busErr
    rw [hu, if_neg (show BusAnswer.busErr ≠ .ok by decide)]
    refine ⟨_, ?_, hafter.forgetBytes (t.ctx.dst + t.eng.w.outPos) 1 ?_ ?_⟩
    · rw [Access.busError_write, ← hj, BitVec.ofNat_toNat, BitVec.setWidth_eq]
    · rw [haddr hfit]
      omega
    · rw [haddr hfit]
      simp
      omega

end Operations

/-! ### The end of a command by a bus error -/

/-- The error entry of a command that runs in `s` ends it as the closed statements say (R256, R257). -/
theorem AfterError.endsWith {s t : State} {more : List BusAnswer} (h : AfterError s more t) (c : ErrCode) (v : Word) :
    SameBeyond s (commandError c v t) ∧ EndsWith s (commandError c v t) (.error (c, v)) ∧
      (commandError c v t).env.answers = more := by
  obtain ⟨⟨hregs, hctx, hinputs, hresp, houtside⟩, hanswers⟩ := h
  refine ⟨⟨hinputs, hresp, hctx⟩, ⟨rfl, by rw [commandError_regs, hregs]; rfl, fun a ha => ?_⟩, hanswers⟩
  rw [commandError_mem, hctx, Memory.read_forget_outside _ ha]
  exact houtside a ha

/-- If access `k` of the list is made, the command that runs in `s` ends with its error. -/
def EndsInError (s : State) (k : Nat) (more : List BusAnswer) (l : List Access)
    (o : Host.Outcome State Fault Refusal) : Prop :=
  ∀ a, l[k]? = some a → Fit s (l.take (k + 1)) →
    ∃ t, o = .next t ∧ SameBeyond s t ∧ EndsWith s t (.error a.busError) ∧ t.env.answers = more

/-- The access after the first `k` is the one that fails. -/
theorem EndsInError.at {s : State} {k : Nat} {more : List BusAnswer} {l l' : List Access} {a : Access}
    {o : Host.Outcome State Fault Refusal} (h : EndsInError s k more (l ++ a :: l') o) (hk : k = l.length)
    (hl : Fit s l) (ha : a.fits s.ctx.cap = true) :
    ∃ t, o = .next t ∧ SameBeyond s t ∧ EndsWith s t (.error a.busError) ∧ t.env.answers = more := by
  subst hk
  refine h a (by simp) ?_
  rw [List.take_length_add_append]
  exact hl.append (.cons ha nofun)

/-- The phases left of a command as one computation, so many at most: what `finish` runs. -/
def runPhases (phase : State → Res Unit) : Nat → State → Res Unit
  | 0, _ => .stuck .phaseOutOfOrder
  | n + 1, s => (phase s).bind fun _ s => if s.phase = .idle then .ok () s else runPhases phase n s

/-- How the last engine step of a command ends when its phases end so. -/
def Res.outcome : Res Unit → Host.Outcome State Fault Refusal
  | .ok _ s => .next s
  | .raised code info s => .next (commandError code info s)
  | .stuck f => .fault f

theorem finish_eq (phase : State → Res Unit) (n : Nat) (s : State) :
    finish phase n s = (runPhases phase n s).outcome := by
  induction n generalizing s with
  | zero => rfl
  | succ n ih =>
    rw [finish, runPhases]
    cases phase s with
    | ok a t =>
      rw [Res.bind_ok]
      dsimp only
      split
      · rfl
      · exact ih t
    | raised c v t => rfl
    | stuck f => rfl

/-- After a phase that leads to another the next phases run. -/
theorem runPhases_setPhase {phase : State → Res Unit} {n : Nat} {s : State} {p : Phase} (hp : p ≠ .idle) :
    (if (s.setPhase p).phase = .idle then .ok () (s.setPhase p) else runPhases phase n (s.setPhase p)) =
      runPhases phase n (s.setPhase p) := if_neg hp

theorem Fails.endsInError {s : State} {k : Nat} {more : List BusAnswer} {l : List Access} {x : Res Unit}
    (h : Fails s k more l x) : EndsInError s k more l x.outcome := by
  intro a ha hfit
  obtain ⟨t, rfl, ht⟩ := h a ha hfit
  exact ⟨_, rfl, ht.endsWith _ _⟩

/-! ### DUMPBITS (R231) -/

/-- The accesses of phase X_DUMP for so many source bytes from byte `i` on: each byte is read, and the text of its bits
is written. -/
def dumpAccesses (i n : Nat) : List Access :=
  (List.range' i n).flatMap fun i => .read i :: writesBetween (8 * i) (8 * i + 8)

theorem dumpAccesses_succ (i n : Nat) :
    dumpAccesses i (n + 1) = [.read i] ++ (writesBetween (8 * i) (8 * i + 8) ++ dumpAccesses (i + 1) n) := by
  simp [dumpAccesses, List.range'_succ]

theorem dumpAccesses_append (i m n : Nat) :
    dumpAccesses i (m + n) = dumpAccesses i m ++ dumpAccesses (i + m) n := by
  rw [dumpAccesses, ← List.range'_append_1, List.flatMap_append]
  rfl

theorem length_dumpAccesses (i n : Nat) : (dumpAccesses i n).length = 9 * n := by
  induction n generalizing i with
  | zero => rfl
  | succ n ih =>
    rw [dumpAccesses_succ]
    simp [ih]
    omega

/-- The writes before byte `n` are of output bytes below `8 n`. -/
theorem fit_dumpAccesses {s : State} {n : Nat} (h : 8 * n ≤ s.ctx.cap.toNat) : Fit s (dumpAccesses 0 n) := by
  intro b hb
  simp only [dumpAccesses, List.mem_flatMap, List.mem_range'_1, List.mem_cons, mem_writesBetween] at hb
  obtain ⟨i, hi, rfl | ⟨j, hj1, hj2, rfl⟩⟩ := hb
  · rfl
  · rw [Access.fits_write]
    omega

theorem writesBetween_succ {p q : Nat} (h : p < q) : writesBetween p q = .write p :: writesBetween (p + 1) q := by
  rw [writesBetween, writesBetween, show q - p = q - (p + 1) + 1 by omega, List.range'_succ]
  rfl

theorem writesBetween_split {p j q : Nat} (hp : p ≤ j) (hq : j < q) :
    writesBetween p q = writesBetween p j ++ .write j :: writesBetween (j + 1) q := by
  rw [← writesBetween_append hp (Nat.le_of_lt hq), writesBetween_succ hq]

section Dump

variable {s t : State} {k : Nat} {more : List BusAnswer} (hargs : s.ctx.args.wf = true)
include hargs

theorem makes_dumpText (h : BeforeError s k more t) {j : Nat} (hj : t.eng.w.outPos.toNat = j) (bs : Bits) :
    Makes s k more (writesBetween j (j + bs.length)) (dumpText bs t)
      (fun _ u => u.eng.k = t.eng.k ∧ u.eng.w.outPos.toNat = j + bs.length) := by
  induction bs generalizing t k j with
  | nil =>
    rw [List.length_nil, Nat.add_zero, writesBetween_self]
    exact .ok h ⟨rfl, hj⟩
  | cons b bs ih =>
    rw [List.length_cons, writesBetween_succ (by omega), ← List.singleton_append]
    refine (makes_putByte hargs h hj (bitText b)).bind fun _ u hu hQ => ?_
    obtain ⟨heng, hpos⟩ := hQ
    have hrest := ih hu hpos
    rw [Nat.add_right_comm] at hrest
    exact hrest.mono fun _ v hv => ⟨by rw [hv.1, heng], hv.2⟩

theorem makes_dumpLoop (n : Nat) (h : BeforeError s k more t) (hn : t.eng.k.toNat + n = s.ctx.len.toNat)
    (hj : t.eng.w.outPos.toNat = 8 * t.eng.k.toNat) :
    Makes s k more (dumpAccesses t.eng.k.toNat n) (dumpLoop n t) (fun _ _ => True) := by
  induction n generalizing t k with
  | zero => exact .ok h trivial
  | succ n ih =>
    have hnext := toNat_add_one_of_lt (v := t.eng.k) (n := s.ctx.len) (by omega)
    rw [dumpAccesses_succ, dumpLoop]
    refine (makes_getByte hargs h (by omega)).bind fun b u hu hQ => ?_
    obtain ⟨-, heng⟩ := hQ
    have htext := makes_dumpText hargs hu (j := 8 * t.eng.k.toNat) (by rw [heng, hj]) (bitsOf 8 b.toNat)
    rw [bitsOf_length] at htext
    refine htext.bind fun _ v hv hQ => ?_
    obtain ⟨hk, hpos⟩ := hQ
    have hk' : (v.setK (v.eng.k + 1)).eng.k = t.eng.k + 1 := by rw [State.setK_eng, hk, heng]
    have hloop := ih (t := v.setK (v.eng.k + 1)) (hv.setEng _) (by rw [hk', hnext]; omega) (by
      rw [hk', hnext]
      exact hpos)
    rwa [hk', hnext] at hloop

/-- The accesses of DUMPBITS. -/
theorem dumpbits_endsInError (h : BeforeError s k more s) (hp : s.phase = .xDump) :
    EndsInError s k more (dumpAccesses 0 s.ctx.len.toNat) (finish dumpbitsPhase mostPhases s) := by
  rw [finish_eq, mostPhases, runPhases, dumpbitsPhase, hp]
  refine (Fails.bind (Fails.bind ?_)).endsInError
  exact (makes_dumpLoop hargs s.ctx.len.toNat (t := (wInit s).setK 0) (h.setEng _) (Nat.zero_add _) rfl).fails

end Dump

/-- Settles O37: the read of byte k is access 9 k of DUMPBITS, and the write of output byte 8 k + j is access
9 k + 1 + j. -/
theorem dumpbitsFirstBusError : Obligations.DumpbitsFirstBusError := by
  unfold Obligations.DumpbitsFirstBusError
  intro s k j more hrun hphase hlat hk
  have hexec : exec .dumpbits s = finish dumpbitsPhase mostPhases s := exec_lastStep hrun.busy hlat
  have hread : dumpAccesses 0 s.ctx.len.toNat =
      dumpAccesses 0 k ++ .read k :: (writesBetween (8 * k) (8 * k + 8) ++
        dumpAccesses (k + 1) (s.ctx.len.toNat - (k + 1))) := by
    have hsum : s.ctx.len.toNat = k + (s.ctx.len.toNat - (k + 1) + 1) := by omega
    conv_lhs => rw [hsum, dumpAccesses_append, Nat.zero_add, dumpAccesses_succ]
    rfl
  have hlen := length_dumpAccesses 0 k
  rw [hexec]
  refine ⟨fun hanswers hcap => ?_, fun hanswers hj hcap => ?_⟩
  · have hend := dumpbits_endsInError hrun.args (.start hanswers) hphase
    rw [hread] at hend
    obtain ⟨t, ht, hsame, hends, -⟩ := hend.at hlen.symm (fit_dumpAccesses hcap) rfl
    exact ⟨t, ht, hsame, hends⟩
  · have hwrite : dumpAccesses 0 s.ctx.len.toNat =
        (dumpAccesses 0 k ++ .read k :: writesBetween (8 * k) (8 * k + j)) ++ .write (8 * k + j) ::
          (writesBetween (8 * k + j + 1) (8 * k + 8) ++ dumpAccesses (k + 1) (s.ctx.len.toNat - (k + 1))) := by
      rw [hread, writesBetween_split (Nat.le_add_right (8 * k) j) (by omega)]
      simp
    have hend := dumpbits_endsInError hrun.args (.start hanswers) hphase
    rw [hwrite] at hend
    obtain ⟨t, ht, hsame, hends, -⟩ := hend.at (by simp [hlen]; omega)
      ((fit_dumpAccesses (by omega)).append (.cons rfl (.writesBetween (by omega)))) ((Access.fits_write _ _).2 hcap)
    exact ⟨t, ht, hsame, hends⟩

end Sys2Proof.Machine

namespace Sys2Proof.Machine

/-! ## Family 20_memory: DECOMPRESS as a script of bits asked for and symbols put

What DECOMPRESS does next depends on nothing but the bits it has read. A script says so without a state: run on the bits
of the container's first bytes it tells whether a further bit is wanted and how many symbols are out, and from the whole
container it gives the accesses of the memory port. -/

/-- What is done next, as the bits read so far decide. -/
inductive Script where
  | stop
  | ask (next : Bool → Script)
  | put (next : Script)

namespace Script

/-- Whether the script wants a bit more than these, and how many symbols it has put. -/
def run : Script → Bits → Bool × Nat
  | stop, _ => (false, 0)
  | ask _, [] => (true, 0)
  | ask next, b :: s => (next b).run s
  | put next, s => ((next.run s).1, (next.run s).2 + 1)

/-- The accesses of the script from bit `n` of the source bits on, symbol `j` being the next: a byte is read for its
first bit (spec/40_bitstream.md R127). -/
def accesses (s : Bits) : Script → Nat → Nat → List Access
  | stop, _, _ => []
  | ask next, n, j =>
    match s[n]? with
    | none => []
    | some b => (if n % 8 = 0 then [.read (n / 8)] else []) ++ (next b).accesses s (n + 1) j
  | put next, n, j => .write j :: next.accesses s n (j + 1)

end Script

/-! ### The scripts of the phases (R162, R201, R228) -/

/-- ReadBits(n), the number read so far being `v` (R128). -/
def bitsScript : Nat → Nat → (Nat → Script) → Script
  | 0, v, next => next v
  | n + 1, v, next => .ask fun b => bitsScript n (2 * v + b.toNat) next

/-- DesNode, `used` entries being in use (R162). -/
def desScript : Nat → Bool → Nat → (HuffTree → Nat → Script) → Script
  | 0, _, _, _ => .stop
  | depth + 1, isRoot, used, next => .ask fun b =>
    if isRoot && b then .stop
    else if used = Config.nodeCap then .stop
    else if b then bitsScript Config.symW 0 fun v => next (.leaf (BitVec.ofNat 8 v)) (used + 1)
    else desScript depth false (used + 1) fun l used => desScript depth false used fun r used => next (.node l r) used

/-- A walk to a leaf (R200). -/
def walkScript : HuffTree → (Byte → Script) → Script
  | .leaf v, next => next v
  | .node l r, next => .ask fun b => if b then walkScript r next else walkScript l next

/-- The decode loop, with so many symbols to come (R201). -/
def decodeScript (t : HuffTree) : Nat → Script
  | 0 => .stop
  | n + 1 => walkScript t fun _ => .put (decodeScript t n)

/-- The phases of DECOMPRESS (R228). -/
def decompressScript : Script :=
  bitsScript Config.hdrW 0 fun n => desScript Config.stackDepth true 0 fun t _ => decodeScript t n

/-! ### The script agrees with the closed form of DECOMPRESS -/

/-- The number that more bits after `v` write. -/
def natFrom (v : Nat) (s : Bits) : Nat := s.foldl (fun v b => 2 * v + b.toNat) v

theorem natFrom_lt (v : Nat) (s : Bits) : natFrom v s < (v + 1) * 2 ^ s.length := by
  induction s generalizing v with
  | nil => simp [natFrom]
  | cons b s ih =>
    have hb := Bool.toNat_lt b
    calc natFrom v (b :: s) = natFrom (2 * v + b.toNat) s := rfl
      _ < (2 * v + b.toNat + 1) * 2 ^ s.length := ih _
      _ ≤ (2 * (v + 1)) * 2 ^ s.length := Nat.mul_le_mul_right _ (by omega)
      _ = (v + 1) * 2 ^ (b :: s).length := by rw [List.length_cons, Nat.pow_succ]; ring

theorem natOfBE_lt (s : Bits) : natOfBE s < 2 ^ s.length := by
  have h := natFrom_lt 0 s
  rwa [Nat.zero_add, Nat.one_mul] at h

theorem run_bitsScript (n v : Nat) (next : Nat → Script) (s : Bits) :
    (bitsScript n v next).run s =
      if s.length < n then (true, 0) else (next (natFrom v (s.take n))).run (s.drop n) := by
  induction n generalizing v s with
  | zero => rfl
  | succ n ih =>
    cases s with
    | nil => rfl
    | cons b s =>
      rw [bitsScript, Script.run, ih]
      simp only [List.length_cons, Nat.succ_lt_succ_iff]
      rfl

/-- What a tree read leaves: more entries in use, at most 511, and fewer bits. -/
theorem desTree_ok_bounds {n : Nat} {isRoot : Bool} {used used' : Nat} {s rest : Bits} {t : HuffTree}
    (hused : used ≤ Config.nodeCap) (h : desTree n isRoot used s = .ok (t, used', rest)) :
    used < used' ∧ used' ≤ Config.nodeCap ∧ rest.length < s.length := by
  induction n generalizing isRoot used used' s rest t with
  | zero => simp [desTree] at h
  | succ n ih =>
    cases s with
    | nil => simp [desTree] at h
    | cons b s =>
      rw [desTree] at h
      split at h
      · simp at h
      · split at h
        · simp at h
        · have hlt : used < Config.nodeCap := by omega
          split at h
          · split at h
            · simp at h
            · simp only [Except.ok.injEq, Prod.mk.injEq] at h
              obtain ⟨-, rfl, rfl⟩ := h
              simp only [List.length_drop, List.length_cons]
              omega
          · split at h
            · simp at h
            · next l used1 s1 hl =>
              have hleft := ih (by omega) hl
              split at h
              · simp at h
              · next r used2 s2 hr =>
                have hright := ih (by omega) hr
                simp only [Except.ok.injEq, Prod.mk.injEq] at h
                obtain ⟨-, rfl, rfl⟩ := h
                rw [List.length_cons]
                omega

/-- The errors of a container that a further byte could mend (R228, R230). -/
def ErrCode.isCutShort (code : ErrCode) : Bool := code == .fmtHeader || code == .fmtTreeEos || code == .fmtPayloadEos

theorem run_desScript {n depth used : Nat} {isRoot : Bool} {s : Bits} (next : HuffTree → Nat → Script)
    (hn : s.length ≤ n) (hused : used ≤ Config.nodeCap) (hdepth : Config.nodeCap < depth + used) :
    (desScript depth isRoot used next).run s =
      match desTree n isRoot used s with
      | .error (code, _) => (code.isCutShort, 0)
      | .ok (t, used, rest) => (next t used).run rest := by
  induction depth generalizing n used isRoot s next with
  | zero => omega
  | succ depth ih =>
    cases s with
    | nil => cases n <;> rfl
    | cons b s =>
      obtain ⟨n, rfl⟩ : ∃ m, n = m + 1 := ⟨n - 1, by simp at hn; omega⟩
      rw [List.length_cons] at hn
      rw [desScript, Script.run, desTree]
      split
      · rfl
      · split
        · rfl
        · split
          · rw [run_bitsScript, Config.symW]
            split <;> rfl
          · rw [ih (n := n) _ (by omega) (by omega) (by omega)]
            cases hl : desTree n false (used + 1) s with
            | error e => rfl
            | ok p =>
              obtain ⟨l, used1, s1⟩ := p
              have hleft := desTree_ok_bounds (by omega) hl
              dsimp only
              rw [ih (n := n) _ (by omega) (by omega) (by omega)]
              cases desTree n false used1 s1 <;> rfl

theorem run_walkScript (t : HuffTree) (next : Byte → Script) (s : Bits) :
    (walkScript t next).run s =
      match t.walk s with
      | none => (true, 0)
      | some (v, rest) => (next v).run rest := by
  induction t generalizing s with
  | leaf v => rfl
  | node l r ihl ihr =>
    cases s with
    | nil => rfl
    | cons b s =>
      cases b with
      | false => exact ihl s
      | true => exact ihr s

theorem run_decodeScript (t : HuffTree) (n : Nat) (s : Bits) :
    (decodeScript t n).run s = (decide ((t.walkSymbols n s).length < n), (t.walkSymbols n s).length) := by
  induction n generalizing s with
  | zero => rfl
  | succ n ih =>
    rw [decodeScript, run_walkScript, HuffTree.walkSymbols]
    cases t.walk s with
    | none => simp
    | some p => simp [Script.run, ih]

theorem length_walkSymbols_le (t : HuffTree) (n : Nat) (s : Bits) : (t.walkSymbols n s).length ≤ n := by
  induction n generalizing s with
  | zero => exact Nat.le_refl 0
  | succ n ih =>
    rw [HuffTree.walkSymbols]
    cases t.walk s with
    | none => exact Nat.zero_le _
    | some p => exact Nat.succ_le_succ (ih p.2)

theorem take_bitsOfBytes (c : List Byte) (i : Nat) : (bitsOfBytes c).take (8 * i) = bitsOfBytes (c.take i) := by
  have h := bitsOfBytes_append (c.take i) (c.drop i)
  rw [List.take_append_drop] at h
  rcases Nat.le_total i c.length with hi | hi
  · rw [h, List.take_left' (by rw [bitsOfBytes_length, List.length_take, Nat.min_eq_left hi])]
  · rw [List.take_of_length_le (l := c) hi, List.take_of_length_le (by rw [bitsOfBytes_length]; omega)]

theorem drop_bitsOfBytes (c : List Byte) (i : Nat) : (bitsOfBytes c).drop (8 * i) = bitsOfBytes (c.drop i) := by
  have h := bitsOfBytes_append (c.take i) (c.drop i)
  rw [List.take_append_drop, ← take_bitsOfBytes] at h
  exact List.append_cancel_left ((List.take_append_drop _ _).trans h)

/-- A container cut short of its header wants more and holds no symbol. -/
theorem wantsMore_short {c : List Byte} (h : c.length < 4) : wantsMore c = true ∧ symbolsHeld c = 0 := by
  constructor
  · rw [wantsMore, decompressOutcome, if_pos h]
    rfl
  · rw [symbolsHeld, List.drop_of_length_le (by omega)]
    rfl

/-- The script run on a container: whether it wants more, and how many symbols it holds. -/
theorem run_decompressScript (c : List Byte) :
    decompressScript.run (bitsOfBytes c) = (wantsMore c, symbolsHeld c) := by
  rw [decompressScript, run_bitsScript, bitsOfBytes_length]
  rcases Nat.lt_or_ge c.length 4 with hshort | hlong
  · obtain ⟨hwants, hheld⟩ := wantsMore_short hshort
    rw [if_pos (show 8 * c.length < Config.hdrW by rw [Config.hdrW]; omega), hwants, hheld]
  · have htake : (bitsOfBytes c).take Config.hdrW = bitsOfBytes (c.take 4) := take_bitsOfBytes c 4
    have hdrop : (bitsOfBytes c).drop Config.hdrW = bitsOfBytes (c.drop 4) := drop_bitsOfBytes c 4
    have hcount : natFrom 0 (bitsOfBytes (c.take 4)) = natOfBE (bitsOfBytes (c.take 4)) := rfl
    have hlt := natOfBE_lt (bitsOfBytes (c.take 4))
    rw [bitsOfBytes_length, List.length_take, Nat.min_eq_left hlong] at hlt
    rw [if_neg (show ¬8 * c.length < Config.hdrW by rw [Config.hdrW]; omega), htake, hdrop, hcount,
      run_desScript _ (Nat.le_refl _) (Nat.zero_le _) (show Config.nodeCap < Config.stackDepth + 0 by decide),
      wantsMore, symbolsHeld,
      decompressOutcome, if_neg (Nat.not_lt.2 hlong), deserialize]
    dsimp only
    cases hdes : desTree (bitsOfBytes (c.drop 4)).length true 0 (bitsOfBytes (c.drop 4)) with
    | error e =>
      rfl
    | ok p =>
      obtain ⟨t, used, rest⟩ := p
      have hle := length_walkSymbols_le t (natOfBE (bitsOfBytes (c.take 4))) rest
      dsimp only
      rw [run_decodeScript, if_neg (show ¬(BitVec.allOnes 32).toNat < _ by simp; omega)]
      by_cases hfew : (t.walkSymbols (natOfBE (bitsOfBytes (c.take 4))) rest).length < natOfBE (bitsOfBytes (c.take 4))
      · rw [if_pos hfew, decide_eq_true hfew]
        rfl
      · rw [if_neg hfew, decide_eq_false hfew]

/-! ### The script gives the accesses of DECOMPRESS -/

/-- The accesses of DECOMPRESS before, at and after the read of container byte `i`. -/
def readAccesses (c : List Byte) (i : Nat) : List Access :=
  if wantsMore (c.take i) then .read i :: writesBetween (symbolsHeld (c.take i)) (symbolsHeld (c.take (i + 1))) else []

/-- The accesses of DECOMPRESS when `i` container bytes have been read and `j` symbols written. -/
def accessesFrom (c : List Byte) (i j : Nat) : List Access :=
  writesBetween j (symbolsHeld (c.take i)) ++ (List.range' i (c.length - i)).flatMap (readAccesses c)

theorem accessesFrom_read {c : List Byte} {i j : Nat} (hi : i < c.length) (hw : wantsMore (c.take i) = true)
    (hj : symbolsHeld (c.take i) = j) : accessesFrom c i j = .read i :: accessesFrom c (i + 1) j := by
  rw [accessesFrom, accessesFrom, hj, writesBetween_self, show c.length - i = c.length - (i + 1) + 1 by omega,
    List.range'_succ, List.flatMap_cons, readAccesses, if_pos hw, hj]
  rfl

theorem accessesFrom_write {c : List Byte} {i j : Nat} (hj : j < symbolsHeld (c.take i)) :
    accessesFrom c i j = .write j :: accessesFrom c i (j + 1) := by
  rw [accessesFrom, accessesFrom, writesBetween_succ hj]
  rfl

theorem accessesFrom_end {c : List Byte} {i j : Nat} (hj : symbolsHeld (c.take i) = j)
    (hw : ∀ i', i ≤ i' → i' < c.length → wantsMore (c.take i') = false) : accessesFrom c i j = [] := by
  rw [accessesFrom, hj, writesBetween_self, List.nil_append, List.flatMap_eq_nil_iff]
  intro i' hi'
  rw [List.mem_range'_1] at hi'
  rw [readAccesses, hw i' (by omega) (by omega)]
  rfl

/-- From bit `n` and symbol `j` on the script says of every longer beginning of the container whether it wants more and how
many symbols it holds. -/
def Script.Tells (p : Script) (c : List Byte) (n j : Nat) : Prop :=
  ∀ i, (n + 7) / 8 ≤ i → i ≤ c.length →
    wantsMore (c.take i) = (p.run ((bitsOfBytes (c.take i)).drop n)).1 ∧
    symbolsHeld (c.take i) = j + (p.run ((bitsOfBytes (c.take i)).drop n)).2

theorem Script.Tells.put {p : Script} {c : List Byte} {n j : Nat} (h : (Script.put p).Tells c n j) :
    p.Tells c n (j + 1) := fun i h1 h2 => by
  obtain ⟨hw, hs⟩ := h i h1 h2
  exact ⟨hw, by rw [hs, Script.run]; omega⟩

theorem Script.Tells.ask {next : Bool → Script} {c : List Byte} {n j : Nat} {b : Bool}
    (h : (Script.ask next).Tells c n j) (hb : (bitsOfBytes c)[n]? = some b) :
    (next b).Tells c (n + 1) j := fun i h1 h2 => by
  obtain ⟨hw, hs⟩ := h i (by omega) h2
  have hn : n < 8 * i := by omega
  have hcons : (bitsOfBytes (c.take i)).drop n = b :: (bitsOfBytes (c.take i)).drop (n + 1) := by
    rw [← take_bitsOfBytes, List.drop_eq_getElem?_toList_append, List.getElem?_take_of_lt hn, hb]
    rfl
  rw [hcons, Script.run] at hw hs
  exact ⟨hw, hs⟩

theorem Script.accesses_eq {p : Script} {c : List Byte} {n j : Nat} (hn : n ≤ 8 * c.length) (h : p.Tells c n j) :
    p.accesses (bitsOfBytes c) n j = accessesFrom c ((n + 7) / 8) j := by
  induction p generalizing n j with
  | stop => exact (accessesFrom_end (h _ (Nat.le_refl _) (by omega)).2 fun i h1 h2 => (h i h1 (by omega)).1).symm
  | put p ih =>
    have hj := (h _ (Nat.le_refl _) (by omega)).2
    rw [Script.accesses, ih hn h.put, ← accessesFrom_write]
    rw [hj, Script.run]
    omega
  | ask next ih =>
    rw [Script.accesses]
    split
    · next hb =>
      rw [List.getElem?_eq_none_iff, bitsOfBytes_length] at hb
      obtain ⟨-, hj⟩ := h c.length (by omega) (Nat.le_refl _)
      rw [List.drop_of_length_le (by rw [bitsOfBytes_length, List.length_take]; omega)] at hj
      rw [show (n + 7) / 8 = c.length by omega]
      exact (accessesFrom_end hj fun i' h1 h2 => by omega).symm
    · next b hb =>
      have hlt : n < 8 * c.length := by
        rw [← bitsOfBytes_length]
        exact (List.getElem?_eq_some_iff.1 hb).1
      rw [ih b (by omega) (h.ask hb)]
      split
      · next hbyte =>
        obtain ⟨hw, hj⟩ := h (n / 8) (by omega) (by omega)
        rw [List.drop_of_length_le (by rw [bitsOfBytes_length, List.length_take]; omega)] at hw hj
        rw [show (n + 7) / 8 = n / 8 by omega, accessesFrom_read (j := j) (by omega) hw hj,
          show (n + 1 + 7) / 8 = n / 8 + 1 by omega]
        rfl
      · rw [show (n + 1 + 7) / 8 = (n + 7) / 8 by omega]
        rfl

/-- The accesses of DECOMPRESS are those of its script. -/
theorem decompressAccesses_eq (c : List Byte) :
    decompressAccesses c = decompressScript.accesses (bitsOfBytes c) 0 0 := by
  have htells : decompressScript.Tells c 0 0 := fun i _ _ => by
    rw [List.drop_zero, run_decompressScript, Nat.zero_add]
    exact ⟨rfl, rfl⟩
  rw [Script.accesses_eq (Nat.zero_le _) htells, accessesFrom, decompressAccesses, List.range_eq_range']
  have hnone : symbolsHeld (c.take 0) = 0 := (wantsMore_short (by simp)).2
  rw [show (0 + 7) / 8 = 0 from rfl, hnone, writesBetween_self]
  rfl

end Sys2Proof.Machine

namespace Sys2Proof.Machine

/-! ## Family 20_memory: the tree that an arena holds

`Engine.Holds` says that an arena index stands for a tree without a bound on its depth, and in which stretch of the
arena its entries are. -/

/-- The arena holds the tree at index `i`, in entries from `lo` on and below `hi` (spec/00_scope.md R9). -/
def Engine.Holds (e : Engine) (lo hi : Nat) : HuffTree → BitVec 9 → Prop
  | .leaf v, i => (lo ≤ i.toNat ∧ i.toNat < hi) ∧ ∃ n, e.nodeAt i = some n ∧ n.kind = .leaf ∧ n.value = v
  | .node l r, i => (lo ≤ i.toNat ∧ i.toNat < hi) ∧
    ∃ n, e.nodeAt i = some n ∧ n.kind = .internal ∧ e.Holds lo hi l n.left ∧ e.Holds lo hi r n.right

/-- An arena with the same entries in the stretch holds the tree too, and a longer stretch will do. -/
theorem Engine.Holds.of_same {d e : Engine} {lo hi lo' hi' : Nat} {t : HuffTree} {i : BitVec 9} (h : d.Holds lo hi t i)
    (hlo : lo' ≤ lo) (hhi : hi ≤ hi') (hnode : ∀ j, lo ≤ j → j < hi → e.node[j]? = d.node[j]?) :
    e.Holds lo' hi' t i := by
  induction t generalizing i with
  | leaf v =>
    obtain ⟨⟨h1, h2⟩, n, hn, hrest⟩ := h
    exact ⟨⟨by omega, by omega⟩, n, (hnode _ h1 h2).trans hn, hrest⟩
  | node l r ihl ihr =>
    obtain ⟨⟨h1, h2⟩, n, hn, hk, hl, hr⟩ := h
    exact ⟨⟨by omega, by omega⟩, n, (hnode _ h1 h2).trans hn, hk, ihl hl, ihr hr⟩

/-- A change elsewhere in the internal state. -/
theorem Engine.Holds.of_node {d e : Engine} {lo hi : Nat} {t : HuffTree} {i : BitVec 9} (h : d.Holds lo hi t i)
    (hnode : e.node = d.node) : e.Holds lo hi t i :=
  h.of_same (Nat.le_refl _) (Nat.le_refl _) fun j _ _ => by rw [hnode]

/-- The tree held is the one the index stands for. -/
theorem Engine.Holds.treeAt {e : Engine} {lo hi depth : Nat} {t : HuffTree} {i : BitVec 9} (h : e.Holds lo hi t i)
    (hdepth : t.depth < depth) : Engine.treeAt depth e i = some t := by
  induction t generalizing i depth with
  | leaf v =>
    obtain ⟨-, n, hn, hk, rfl⟩ := h
    obtain ⟨depth, rfl⟩ : ∃ d, depth = d + 1 := ⟨depth - 1, by omega⟩
    simp only [Engine.treeAt, hn, hk]
  | node l r ihl ihr =>
    obtain ⟨-, n, hn, hk, hl, hr⟩ := h
    simp only [HuffTree.depth] at hdepth
    obtain ⟨depth, rfl⟩ : ∃ d, depth = d + 1 := ⟨depth - 1, by omega⟩
    simp only [Engine.treeAt, hn, hk, ihl hl (by omega : l.depth < depth), ihr hr (by omega : r.depth < depth)]

/-! ## Family 20_memory: DECOMPRESS follows its script -/

/-! ### The reader inside the source (R126, R127) -/

/-- The reader after `n` bits of the source bytes `x`. -/
structure ReaderAt (x : List Byte) (n : Nat) (r : Reader) : Prop where
  within : n ≤ 8 * x.length
  inPos : r.inPos.toNat = (n + 7) / 8
  cnt : r.cnt.toNat = 8 * ((n + 7) / 8) - n
  byte : n % 8 ≠ 0 → x[n / 8]? = some r.byte

/-- Only the reader differs. -/
def OnlyReader (d e : Engine) : Prop := e = { d with r := e.r }

theorem OnlyReader.refl (d : Engine) : OnlyReader d d := rfl

theorem OnlyReader.trans {a b c : Engine} (h : OnlyReader a b) (h' : OnlyReader b c) : OnlyReader a c := by
  rw [OnlyReader, h', h]

/-- Bit `n` of the source bytes is bit `7 - n % 8` of byte `n / 8`. -/
theorem getElem?_bitsOfBytes {x : List Byte} {n : Nat} {b : Byte} (h : x[n / 8]? = some b) :
    (bitsOfBytes x)[n]? = some (b.getLsbD (7 - n % 8)) := by
  induction x generalizing n with
  | nil => simp at h
  | cons c x ih =>
    rw [bitsOfBytes_cons]
    rcases Nat.lt_or_ge n 8 with hn | hn
    · obtain rfl : c = b := by simpa [Nat.div_eq_of_lt hn] using h
      rw [List.getElem?_append_left (by rwa [bitsOf_length]), List.getElem?_eq_getElem (by rwa [bitsOf_length]),
        bitsOf_getElem, Nat.mod_eq_of_lt hn]
      rfl
    · rw [List.getElem?_append_right (by rwa [bitsOf_length]), bitsOf_length]
      rw [show n / 8 = (n - 8) / 8 + 1 by omega, List.getElem?_cons_succ] at h
      rw [ih h, show (n - 8) % 8 = n % 8 by omega]

theorem takeBit_readerAt {x : List Byte} {n : Nat} {t : State} (hn : n < 8 * x.length)
    (hpos : t.eng.r.inPos.toNat = n / 8 + 1)
    (hcnt : t.eng.r.cnt.toNat = 8 - n % 8) (hbyte : x[n / 8]? = some t.eng.r.byte) :
    ∃ b r, takeBit t = .ok (some b) (t.setReader r) ∧ (bitsOfBytes x)[n]? = some b ∧ ReaderAt x (n + 1) r := by
  have hone : (1#4).toNat = 1 := rfl
  refine ⟨_, _, rfl, ?_, hn, ?_, ?_, fun hne => ?_⟩
  · rw [getElem?_bitsOfBytes hbyte, hcnt, show 8 - n % 8 - 1 = 7 - n % 8 by omega]
  · show t.eng.r.inPos.toNat = _
    omega
  · show (t.eng.r.cnt - 1#4).toNat = _
    rw [BitVec.toNat_sub_of_le (by rw [BitVec.le_def]; omega), hone]
    omega
  · rw [show (n + 1) / 8 = n / 8 by omega]
    exact hbyte

/-- A state of a running command before its failing access, its reader after `n` source bits. -/
structure Reading (s : State) (k : Nat) (more : List BusAnswer) (n : Nat) (t : State) : Prop where
  before : BeforeError s k more t
  reader : ReaderAt (s.ctx.srcBytes s.mem) n t.eng.r

/-- The bits of the source buffer. -/
def sourceBits (s : State) : Bits := bitsOfBytes (s.ctx.srcBytes s.mem)

theorem length_sourceBits (s : State) : (sourceBits s).length = 8 * s.ctx.len.toNat := by
  rw [sourceBits, bitsOfBytes_length, srcBytes_length]

/-- One bit more, as ReadBits appends it (R128). -/
theorem shiftLeft_or_ofBool (v : Nat) (b : Bool) :
    (BitVec.ofNat 32 v <<< 1 ||| (BitVec.ofBool b).setWidth 32 : Word) = BitVec.ofNat 32 (2 * v + b.toNat) := by
  have hdisjoint : (BitVec.ofNat 32 v <<< 1 &&& (BitVec.ofBool b).setWidth 32 : Word) = 0#32 := by
    ext i hi
    cases i <;> simp
  rw [← BitVec.add_eq_or_of_and_eq_zero _ _ hdisjoint]
  apply BitVec.eq_of_toNat_eq
  cases b <;> simp [Nat.shiftLeft_eq, Nat.mul_comm]

section Reading

variable {β : Type} {s t : State} {k n j : Nat} {more : List BusAnswer} (hargs : s.ctx.args.wf = true)
include hargs

theorem makes_readBit (h : Reading s k more n t) (hn : n < 8 * s.ctx.len.toNat) :
    Makes s k more (if n % 8 = 0 then [.read (n / 8)] else []) (readBit t) (fun x u =>
      ∃ b, x = some b ∧ (sourceBits s)[n]? = some b ∧ ReaderAt (s.ctx.srcBytes s.mem) (n + 1) u.eng.r ∧
        OnlyReader t.eng u.eng) := by
  obtain ⟨hbefore, -, hpos, hcnt, hbyte⟩ := h
  have hn' : n < 8 * (s.ctx.srcBytes s.mem).length := by rwa [srcBytes_length]
  have hctx := hbefore.kept.ctx
  have hlen := s.ctx.len.isLt
  rw [readBit]
  split
  · next hfresh =>
    have hzero : t.eng.r.cnt = 0#4 := BitVec.eq_of_toNat_eq (by rw [hcnt]; simp; omega)
    have hin : t.eng.r.inPos.toNat = n / 8 := by omega
    have hread := hbefore.kept.srcByte hargs (i := t.eng.r.inPos) (by omega)
    have hmore : t.eng.r.inPos ≠ t.ctx.len := fun heq => by
      rw [heq, hctx] at hin
      omega
    rw [if_pos hzero, if_neg hmore, memRead_eq]
    refine .single (fun k' hk _ => ?_) (fun hk _ => ?_) <;> subst hk
    · obtain ⟨u, hu, hbefore', heng, hmem⟩ := hbefore.next_ok
      have hnext : (t.eng.r.inPos + 1).toNat = n / 8 + 1 := by
        rw [toNat_add_one_of_lt (n := s.ctx.len) (by omega), hin]
      obtain ⟨b, r, hb, hbit, hr⟩ := takeBit_readerAt (x := s.ctx.srcBytes s.mem) (n := n)
        (t := u.setReader ⟨t.mem.read (t.ctx.src + t.eng.r.inPos).toNat, 8, u.eng.r.inPos + 1⟩)
        hn' (by rw [heng]; exact hnext) (by rw [hfresh]; rfl) (by rw [← hin]; exact hread)
      rw [hu]
      exact ⟨some b, _, hb, (hbefore'.setEng _).setEng _, b, rfl, hbit, hr, by rw [OnlyReader]; simp [heng]⟩
    · obtain ⟨u, hu, hafter, heng, -⟩ := hbefore.next_busErr
      rw [hu]
      refine ⟨u, ?_, hafter⟩
      rw [Access.busError_read, ← hin, BitVec.ofNat_toNat, BitVec.setWidth_eq]
      simp [heng]
  · next hfresh =>
    have hsome : t.eng.r.cnt ≠ 0#4 := fun h0 => by
      rw [h0] at hcnt
      simp at hcnt
      omega
    obtain ⟨b, r, hb, hbit, hr⟩ := takeBit_readerAt (x := s.ctx.srcBytes s.mem) (n := n) (t := t) hn' (by omega)
      (by omega) (hbyte hfresh)
    rw [if_neg hsome, hb]
    exact .ok (hbefore.setEng _) ⟨b, rfl, hbit, hr, rfl⟩

/-- ReadBit follows a script that asks for a bit. -/
theorem readBit_follows (h : Reading s k more n t) {next : Bool → Script} {f : Option Bool → State → Res β}
    (hf : ∀ b k' u, Reading s k' more (n + 1) u → OnlyReader t.eng u.eng →
      Fails s k' more ((next b).accesses (sourceBits s) (n + 1) j) (f (some b) u)) :
    Fails s k more ((Script.ask next).accesses (sourceBits s) n j) ((readBit t).bind f) := by
  rw [Script.accesses]
  split
  · exact .nil
  · next b hb =>
    have hn : n < 8 * s.ctx.len.toNat := by
      rw [← length_sourceBits]
      exact (List.getElem?_eq_some_iff.1 hb).1
    refine (makes_readBit hargs h hn).bind_fails fun x u hu hQ => ?_
    obtain ⟨b', rfl, hb', hr, honly⟩ := hQ
    obtain rfl : b' = b := Option.some.inj (hb'.symm.trans hb)
    exact hf b' _ u ⟨hu, hr⟩ honly

/-- ReadBits follows a script that asks for so many bits. -/
theorem readBits_follows (m : Nat) {v : Nat} (h : Reading s k more n t) {next : Nat → Script}
    {f : Option Word → State → Res β}
    (hf : ∀ v' k' n' u, v' < (v + 1) * 2 ^ m → Reading s k' more n' u → OnlyReader t.eng u.eng →
      Fails s k' more ((next v').accesses (sourceBits s) n' j) (f (some (BitVec.ofNat 32 v')) u)) :
    Fails s k more ((bitsScript m v next).accesses (sourceBits s) n j)
      ((readBitsFrom m (BitVec.ofNat 32 v) t).bind f) := by
  induction m generalizing k n v t with
  | zero => exact hf v k n t (by simp) h (.refl _)
  | succ m ih =>
    rw [readBitsFrom, Res.bind_assoc]
    refine readBit_follows hargs h fun b k' u hu honly => ?_
    dsimp only
    rw [shiftLeft_or_ofBool]
    refine ih hu fun v' k'' n' w hv hw honly' => hf v' k'' n' w ?_ hw (honly.trans honly')
    have hb := Bool.toNat_lt b
    calc v' < (2 * v + b.toNat + 1) * 2 ^ m := hv
      _ ≤ (2 * (v + 1)) * 2 ^ m := Nat.mul_le_mul_right _ (by omega)
      _ = (v + 1) * 2 ^ (m + 1) := by rw [Nat.pow_succ]; ring

end Reading

end Sys2Proof.Machine

namespace Sys2Proof.Machine

/-! ## Family 20_memory: the phases of DECOMPRESS and their script -/

/-- What DesNode has done to the internal state `d` when it returns index `i`: the tree is in the entries from `node_count`
on, and of the rest only the reader has changed (R162). -/
structure TreeRead (d : Engine) (t : HuffTree) (used : Nat) (i : BitVec 9) (e : Engine) : Prop where
  w : e.w = d.w
  symCount : e.symCount = d.symCount
  index : i.toNat = d.nodeCount.toNat
  nodeCount : e.nodeCount.toNat = used
  grows : d.nodeCount.toNat < used
  fits : used ≤ Config.nodeCap
  keeps : ∀ j < d.nodeCount.toNat, e.node[j]? = d.node[j]?
  holds : e.Holds d.nodeCount.toNat used t i

theorem updNode_symCount (e : Engine) (i : Nat) (f : Node → Node) : (e.updNode i f).symCount = e.symCount := by
  rw [updNode_eq]

theorem updNode_reader (e : Engine) (i : Nat) (f : Node → Node) : (e.updNode i f).r = e.r := by
  rw [updNode_eq]

section Entries

variable {d e : Engine} (hlt : d.nodeCount.toNat < Config.nodeCap) (hw : e.w = d.w) (hsym : e.symCount = d.symCount)
  (hcount : e.nodeCount = d.nodeCount + 1) (hnode : e.node = d.node)
include hlt hw hsym hcount hnode

/-- A leaf in the entry that `allocNode` took. -/
theorem treeRead_leaf (v : Byte) :
    TreeRead d (.leaf v) (d.nodeCount.toNat + 1) (BitVec.ofNat 9 d.nodeCount.toNat)
      (e.setLeaf d.nodeCount.toNat v) := by
  have hcap : d.nodeCount.toNat < 511 := hlt
  have hindex : (BitVec.ofNat 9 d.nodeCount.toNat).toNat = d.nodeCount.toNat := by
    rw [BitVec.toNat_ofNat, Nat.mod_eq_of_lt (by omega)]
  constructor
  · rw [Engine.setLeaf, Tracks.updNode_w, hw]
  · rw [Engine.setLeaf, updNode_symCount, hsym]
  · exact hindex
  · rw [Engine.setLeaf, updNode_nodeCount, hcount, nodeCount_add_one_toNat hlt]
  · omega
  · exact hlt
  · intro j hj
    rw [Engine.setLeaf, getElem?_updNode_node, if_neg (by omega), hnode]
  · refine ⟨by omega, { d.node[d.nodeCount.toNat] with kind := .leaf, value := v }, ?_, rfl, rfl⟩
    rw [Engine.nodeAt, hindex, Engine.setLeaf, getElem?_updNode_node, if_pos rfl, hnode,
      Vector.getElem?_eq_getElem hcap]
    rfl

/-- An internal node in the entry that `allocNode` took, its children in the entries after it. -/
theorem treeRead_node {l r : HuffTree} {used used' : Nat} {i j : BitVec 9} {d1 d2 : Engine}
    (hl : TreeRead e l used i d1) (hr : TreeRead d1 r used' j d2) :
    TreeRead d (.node l r) used' (BitVec.ofNat 9 d.nodeCount.toNat) (d2.setInternal d.nodeCount.toNat i j) := by
  have hcap : d.nodeCount.toNat < 511 := hlt
  have hindex : (BitVec.ofNat 9 d.nodeCount.toNat).toNat = d.nodeCount.toNat := by
    rw [BitVec.toNat_ofNat, Nat.mod_eq_of_lt (by omega)]
  have hcount' : e.nodeCount.toNat = d.nodeCount.toNat + 1 := by rw [hcount, nodeCount_add_one_toNat hlt]
  have hlgrows := hl.grows
  have hrgrows := hr.grows
  have hlcount := hl.nodeCount
  have hsame : ∀ m, d.nodeCount.toNat ≠ m → (d2.setInternal d.nodeCount.toNat i j).node[m]? = d2.node[m]? :=
    fun m hm => by rw [Engine.setInternal, getElem?_updNode_node, if_neg hm]
  constructor
  · rw [Engine.setInternal, Tracks.updNode_w, hr.w, hl.w, hw]
  · rw [Engine.setInternal, updNode_symCount, hr.symCount, hl.symCount, hsym]
  · exact hindex
  · rw [Engine.setInternal, updNode_nodeCount, hr.nodeCount]
  · omega
  · exact hr.fits
  · intro m hm
    rw [hsame m (by omega), hr.keeps m (by omega), hl.keeps m (by omega), hnode]
  · refine ⟨by omega, { d2.node[d.nodeCount.toNat] with kind := .internal, left := i, right := j }, ?_, rfl, ?_, ?_⟩
    · rw [Engine.nodeAt, hindex, Engine.setInternal, getElem?_updNode_node, if_pos rfl,
        Vector.getElem?_eq_getElem hcap]
      rfl
    · exact hl.holds.of_same (by omega) (by omega) fun m h1 h2 => by
        rw [hsame m (by omega), hr.keeps m (by omega)]
    · exact hr.holds.of_same (by omega) (Nat.le_refl _) fun m h1 h2 => hsame m (by omega)

end Entries

/-- Only the reader has changed before the tree is read. -/
theorem TreeRead.of_onlyReader {d d' e : Engine} {t : HuffTree} {used : Nat} {i : BitVec 9} (h : TreeRead d' t used i e)
    (honly : OnlyReader d d') : TreeRead d t used i e := by
  rw [OnlyReader] at honly
  rw [honly] at h
  exact ⟨h.w, h.symCount, h.index, h.nodeCount, h.grows, h.fits, h.keeps, h.holds⟩

/-! ### The phase table, an equation per phase (R228) -/

theorem decompressPhase_dHeader {s : State} (h : s.phase = .dHeader) : decompressPhase s = dHeader s := by
  rw [decompressPhase, h]

theorem decompressPhase_dTree {s : State} (h : s.phase = .dTree) : decompressPhase s = dTree s := by
  rw [decompressPhase, h]

theorem decompressPhase_dDecode {s : State} (h : s.phase = .dDecode) : decompressPhase s = dDecode s := by
  rw [decompressPhase, h]

section Phases

variable {β : Type} {s t : State} {k n j : Nat} {more : List BusAnswer} (hargs : s.ctx.args.wf = true)
include hargs

/-- DesNode follows its script. -/
theorem desNode_follows (depth : Nat) (isRoot : Bool) (h : Reading s k more n t)
    (hfits : t.eng.nodeCount.toNat ≤ Config.nodeCap) {next : HuffTree → Nat → Script} {f : BitVec 9 → State → Res β}
    (hf : ∀ tree used i k' n' u, Reading s k' more n' u → TreeRead t.eng tree used i u.eng →
      Fails s k' more ((next tree used).accesses (sourceBits s) n' j) (f i u)) :
    Fails s k more ((desScript depth isRoot t.eng.nodeCount.toNat next).accesses (sourceBits s) n j)
      ((desNode depth isRoot t).bind f) := by
  induction depth generalizing isRoot k n t next f with
  | zero => exact .nil
  | succ depth ih =>
    rw [desNode, desScript, Res.bind_assoc]
    refine readBit_follows hargs h fun b k' u hu honly => ?_
    have hcount : u.eng.nodeCount = t.eng.nodeCount := by rw [honly]
    dsimp only
    rw [hcount]
    split
    · exact .nil
    · split
      · exact .nil
      · next hne =>
        have hlt : u.eng.nodeCount.toNat < Config.nodeCap := by
          rw [hcount]
          exact Nat.lt_of_le_of_ne hfits hne
        rw [← hcount]
        have halloc : Reading s k' more (n + 1) (allocNode u) := ⟨hu.before.setEng _, hu.reader⟩
        have hnext := nodeCount_add_one_toNat hlt
        cases b with
        | true =>
          simp only [if_true]
          rw [readBits, Res.bind_assoc]
          refine readBits_follows hargs Config.symW halloc fun v k'' n' w _ hw honly' => ?_
          have hleaf := treeRead_leaf (d := u.eng) (e := w.eng) hlt (by rw [honly']; rfl) (by rw [honly']; rfl)
            (by rw [honly']; rfl) (by rw [honly']; rfl) (BitVec.ofNat 8 v)
          have hvalue : (BitVec.ofNat 32 v).setWidth 8 = BitVec.ofNat 8 v := by
            simp
          dsimp only [Res.bind_ok]
          rw [hvalue]
          refine hf _ _ _ k'' n' _ ⟨hw.before.setEng _, ?_⟩ (hleaf.of_onlyReader honly)
          rw [State.setEng_eng, Engine.setLeaf, updNode_reader]
          exact hw.reader
        | false =>
          simp only [Bool.false_eq_true, if_false]
          rw [Res.bind_assoc, ← hnext]
          refine ih false halloc (by rw [allocNode_eng, hnext]; exact hlt) fun l used i k1 n1 u1 h1 hl => ?_
          rw [Res.bind_assoc, ← hl.nodeCount]
          refine ih false h1 (by rw [hl.nodeCount]; exact hl.fits) fun r used' i' k2 n2 u2 h2 hr => ?_
          have hnode := treeRead_node (d := u.eng) (e := (allocNode u).eng) hlt rfl rfl rfl rfl hl hr
          refine hf _ _ _ k2 n2 _ ⟨h2.before.setEng _, ?_⟩ (hnode.of_onlyReader honly)
          rw [State.setEng_eng, Engine.setInternal, updNode_reader]
          exact h2.reader

/-- A walk down the arena follows the walk down the tree it holds. -/
theorem walkArena_follows {tree : HuffTree} {lo hi steps : Nat} {i : BitVec 9} (h : Reading s k more n t)
    (htree : t.eng.Holds lo hi tree i) (hsteps : 8 * s.ctx.len.toNat < steps + n) {next : Byte → Script}
    {f : Option Byte → State → Res β}
    (hf : ∀ v k' n' u, Reading s k' more n' u → OnlyReader t.eng u.eng →
      Fails s k' more ((next v).accesses (sourceBits s) n' j) (f (some v) u)) :
    Fails s k more ((walkScript tree next).accesses (sourceBits s) n j) ((walkArena steps i t).bind f) := by
  have hn := h.reader.within
  rw [srcBytes_length] at hn
  obtain ⟨steps, rfl⟩ : ∃ m, steps = m + 1 := ⟨steps - 1, by omega⟩
  induction tree generalizing i k n steps t with
  | leaf v =>
    obtain ⟨-, m, hm, hk, rfl⟩ := htree
    simp only [walkArena, hm, hk]
    exact hf m.value k n t h (.refl _)
  | node l r ihl ihr =>
    obtain ⟨-, m, hm, hk, hl, hr⟩ := htree
    simp only [walkArena, hm, hk]
    rw [walkScript, Res.bind_assoc]
    refine readBit_follows hargs h fun b k' u hu honly => ?_
    have hn' := hu.reader.within
    rw [srcBytes_length] at hn'
    obtain ⟨steps, rfl⟩ : ∃ m, steps = m + 1 := ⟨steps - 1, by omega⟩
    have hnode : u.eng.node = t.eng.node := by rw [honly]
    cases b with
    | false =>
      exact ihl hu (hl.of_node hnode) (fun v k'' n' w hw honly' => hf v k'' n' w hw (honly.trans honly')) hn' steps
        (by omega)
    | true =>
      exact ihr hu (hr.of_node hnode) (fun v k'' n' w hw honly' => hf v k'' n' w hw (honly.trans honly')) hn' steps
        (by omega)

/-- The decode loop follows its script. -/
theorem decodeLoop_follows {tree : HuffTree} {lo hi : Nat} (m : Nat) (h : Reading s k more n t)
    (htree : t.eng.Holds lo hi tree t.eng.root) (hj : t.eng.w.outPos.toNat = j) :
    Fails s k more ((decodeScript tree m).accesses (sourceBits s) n j) (decodeLoop m t) := by
  induction m generalizing k n j t with
  | zero => exact .nil
  | succ m ih =>
    rw [decodeLoop, decodeScript]
    have hbound : 8 * s.ctx.len.toNat < bitBound t + n := by
      rw [bitBound, h.before.kept.ctx]
      omega
    refine walkArena_follows hargs h htree hbound fun v k' n' u hu honly => ?_
    have hpos : u.eng.w.outPos.toNat = j := by rw [honly, hj]
    rw [Script.accesses, ← List.singleton_append]
    refine (makes_putByte hargs hu.before hpos v).bind_fails fun _ w hw hQ => ?_
    obtain ⟨heng, hpos'⟩ := hQ
    have hsame : w.eng.node = t.eng.node ∧ w.eng.root = t.eng.root ∧ w.eng.r = u.eng.r := by
      rw [heng]
      exact ⟨by rw [honly], by rw [honly], rfl⟩
    obtain ⟨hnode, hroot, hr⟩ := hsame
    refine ih (t := w.setSym (w.eng.sym + 1)) ⟨hw.setEng _, ?_⟩ ?_ hpos'
    · rw [State.setSym_eng, hr]
      exact hu.reader
    · rw [State.setSym_eng, hroot]
      exact htree.of_node hnode

theorem dHeader_follows (h : BeforeError s k more t) (hlen : 4 ≤ s.ctx.len.toNat) {next : Nat → Script}
    {f : Unit → State → Res β}
    (hf : ∀ count k' n' u, Reading s k' more n' u → u.eng.w = ⟨0, 0, 0⟩ → u.eng.symCount.toNat = count →
      Fails s k' more ((next count).accesses (sourceBits s) n' j) (f () (u.setPhase .dTree))) :
    Fails s k more ((bitsScript Config.hdrW 0 next).accesses (sourceBits s) 0 j) ((dHeader t).bind f) := by
  have hstart : Reading s k more 0 (wInit (rInit t)) :=
    ⟨(h.setEng _).setEng _, Nat.zero_le _, rfl, rfl, fun hne => absurd rfl hne⟩
  have hlong : ¬(wInit (rInit t)).ctx.len < 4#32 := by
    rw [wInit_ctx, rInit_ctx, h.kept.ctx]
    exact Nat.not_lt.2 hlen
  unfold dHeader
  dsimp only
  rw [if_neg hlong, Res.bind_assoc]
  refine readBits_follows hargs Config.hdrW hstart fun count k' n' u hcount hu honly => ?_
  rw [Config.hdrW, Nat.zero_add, Nat.one_mul] at hcount
  exact hf count k' n' (u.setSymCount (BitVec.ofNat 32 count)) ⟨hu.before.setEng _, hu.reader⟩
    (by rw [State.setSymCount_eng, honly]; rfl) (Nat.mod_eq_of_lt hcount)

theorem dTree_follows (h : Reading s k more n t) {next : HuffTree → Nat → Script} {f : Unit → State → Res β}
    (hf : ∀ tree used k' n' u, Reading s k' more n' u → u.eng.w = t.eng.w → u.eng.symCount = t.eng.symCount →
      u.eng.Holds 0 used tree u.eng.root →
      Fails s k' more ((next tree used).accesses (sourceBits s) n' j) (f () (u.setPhase .dDecode))) :
    Fails s k more ((desScript Config.stackDepth true 0 next).accesses (sourceBits s) n j) ((dTree t).bind f) := by
  rw [dTree, Res.bind_assoc]
  exact desNode_follows hargs Config.stackDepth true (t := t.setEng { t.eng with nodeCount := 0 })
    ⟨h.before.setEng _, h.reader⟩ (Nat.zero_le _) fun tree used i k' n' u hu hread =>
      hf tree used k' n' (u.setEng { u.eng with root := i }) ⟨hu.before.setEng _, hu.reader⟩ hread.w hread.symCount
        (hread.holds.of_node rfl)

theorem dDecode_follows {tree : HuffTree} {lo hi : Nat} (h : Reading s k more n t)
    (htree : t.eng.Holds lo hi tree t.eng.root) (hj : t.eng.w.outPos.toNat = j) :
    Fails s k more ((decodeScript tree t.eng.symCount.toNat).accesses (sourceBits s) n j) (dDecode t) :=
  (decodeLoop_follows hargs t.eng.symCount.toNat (t := t.setSym 0) ⟨h.before.setEng _, h.reader⟩ (htree.of_node rfl)
    hj).bind

/-- The phases of DECOMPRESS follow its script. -/
theorem decompress_fails (h : BeforeError s k more s) (hp : s.phase = .dHeader) (hlen : 4 ≤ s.ctx.len.toNat) :
    Fails s k more (decompressScript.accesses (sourceBits s) 0 0) (runPhases decompressPhase mostPhases s) := by
  rw [mostPhases, runPhases, decompressPhase_dHeader hp, decompressScript]
  refine dHeader_follows hargs h hlen fun count k1 n1 u1 h1 hw1 hcount => ?_
  rw [runPhases_setPhase (by decide), runPhases, decompressPhase_dTree rfl]
  refine dTree_follows hargs (t := u1.setPhase .dTree) ⟨h1.before.setPhase _, h1.reader⟩
    fun tree used k2 n2 u2 h2 hw2 hsym htree => ?_
  rw [runPhases_setPhase (by decide), runPhases, decompressPhase_dDecode rfl]
  have hdecode := dDecode_follows hargs (j := 0) (t := u2.setPhase .dDecode) ⟨h2.before.setPhase _, h2.reader⟩ htree (by
    rw [State.setPhase_eng, hw2, State.setPhase_eng, hw1]
    rfl)
  rw [State.setPhase_eng, hsym, State.setPhase_eng, hcount] at hdecode
  exact hdecode.bind

end Phases

/-- The accesses of DECOMPRESS. -/
theorem decompress_endsInError {s : State} {k : Nat} {more : List BusAnswer} (hrun : Running .decompress s)
    (hp : s.phase = .dHeader) (hlat : s.env.latencyLeft = 1) (hlen : 4 ≤ s.ctx.len.toNat)
    (hanswers : s.env.answers = List.replicate k .ok ++ .busErr :: more) :
    EndsInError s k more (decompressAccesses (s.ctx.srcBytes s.mem)) (exec .decompress s) := by
  have hexec : exec .decompress s = finish decompressPhase mostPhases s := exec_lastStep hrun.busy hlat
  rw [hexec, finish_eq, decompressAccesses_eq]
  exact (decompress_fails hrun.args (.start hanswers) hp hlen).endsInError

/-- Settles O55: DECOMPRESS makes the accesses of its script, which are those of the closed form. -/
theorem decompressFirstBusError : Obligations.DecompressFirstBusError := by
  unfold Obligations.DecompressFirstBusError
  intro s k more a hrun hp hlat hlen hanswers ha hfit
  exact decompress_endsInError hrun hp hlat hlen hanswers a ha hfit

/-- Before four bytes are read nothing is written. -/
theorem decompressAccesses_header {c : List Byte} {k : Nat} (hlen : 4 ≤ c.length) (hk : k < 4) :
    ∃ rest, decompressAccesses c = (List.range k).map .read ++ .read k :: rest := by
  have hheld : ∀ i ≤ 4, symbolsHeld (c.take i) = 0 := fun i hi => by
    rw [symbolsHeld, List.drop_of_length_le (by rw [List.length_take]; omega)]
    rfl
  have hfrom : ∀ i ≤ k, decompressAccesses c = (List.range i).map .read ++ accessesFrom c i 0 := by
    intro i
    induction i with
    | zero =>
      intro _
      rw [accessesFrom, hheld 0 (by omega), decompressAccesses, List.range_eq_range', writesBetween_self]
      rfl
    | succ i ih =>
      intro hi
      have hwants : wantsMore (c.take i) = true := (wantsMore_short (by rw [List.length_take]; omega)).1
      rw [ih (by omega), accessesFrom_read (by omega) hwants (hheld i (by omega)), List.range_succ, List.map_append,
        List.append_assoc]
      rfl
  have hwants : wantsMore (c.take k) = true := (wantsMore_short (by rw [List.length_take]; omega)).1
  exact ⟨accessesFrom c (k + 1) 0, by
    rw [hfrom k (Nat.le_refl _), accessesFrom_read (by omega) hwants (hheld k (by omega))]⟩

/-- Settles O35: the first accesses of DECOMPRESS are the reads of its header. -/
theorem decompressHeaderBusError : Obligations.DecompressHeaderBusError := by
  unfold Obligations.DecompressHeaderBusError
  intro s k more hrun hp hlat hlen hk hanswers
  have hend := decompress_endsInError hrun hp hlat hlen hanswers
  obtain ⟨rest, hrest⟩ := decompressAccesses_header (c := s.ctx.srcBytes s.mem) (by rwa [srcBytes_length]) hk
  rw [hrest] at hend
  obtain ⟨t, ht, hsame, hends, -⟩ := hend.at (by simp) (.reads _) rfl
  exact ⟨t, ht, hsame, hends⟩

end Sys2Proof.Machine

namespace Sys2Proof.Machine

/-! ## Family 20_memory: the accesses of the writer, of SerNode and of the flush -/

/-- The writer after `p` bits: whole bytes are out, the rest waits (spec/40_bitstream.md R123). -/
structure WriterAt (p : Nat) (w : Writer) : Prop where
  outPos : w.outPos.toNat = p / 8
  cnt : w.cnt.toNat = p % 8

/-- Only the writer differs. -/
def OnlyWriter (d e : Engine) : Prop := e = { d with w := e.w }

theorem OnlyWriter.refl (d : Engine) : OnlyWriter d d := rfl

theorem OnlyWriter.trans {a b c : Engine} (h : OnlyWriter a b) (h' : OnlyWriter b c) : OnlyWriter a c := by
  rw [OnlyWriter, h', h]

section Writer

variable {s t : State} {k p : Nat} {more : List BusAnswer} (hargs : s.ctx.args.wf = true)
include hargs

theorem makes_putAcc (h : BeforeError s k more t) {j : Nat} (hj : t.eng.w.outPos.toNat = j) :
    Makes s k more [.write j] (putAcc t) (fun _ u => WriterAt (8 * (j + 1)) u.eng.w ∧ OnlyWriter t.eng u.eng) := by
  refine (makes_putByte hargs h hj t.eng.w.acc).map fun _ u k' hu hQ => .ok (hu.setEng _) ?_
  obtain ⟨heng, hpos⟩ := hQ
  refine ⟨⟨?_, ?_⟩, ?_⟩
  · show u.eng.w.outPos.toNat = _
    omega
  · show (0#3).toNat = _
    simp
  · show ({ u.eng with w := _ } : Engine) = _
    rw [heng]
    rfl

theorem makes_writeBit (h : BeforeError s k more t) (hw : WriterAt p t.eng.w) (b : Bool) :
    Makes s k more (writesBetween (p / 8) ((p + 1) / 8)) (writeBit b t)
      (fun _ u => WriterAt (p + 1) u.eng.w ∧ OnlyWriter t.eng u.eng) := by
  obtain ⟨hpos, hcnt⟩ := hw
  rw [writeBit]
  dsimp only
  split
  · next hfull =>
    have h7 : p % 8 = 7 := by rw [← hcnt, hfull]; rfl
    rw [show (p + 1) / 8 = p / 8 + 1 by omega, writesBetween_succ (by omega), writesBetween_self]
    refine (makes_putAcc hargs (t := t.setWriter { t.eng.w with acc := t.eng.w.push b }) (h.setEng _) hpos).mono
      fun _ u hQ => ?_
    obtain ⟨hu, honly⟩ := hQ
    rw [show 8 * (p / 8 + 1) = p + 1 by omega] at hu
    exact ⟨hu, OnlyWriter.trans (show OnlyWriter t.eng { t.eng with w := _ } from rfl) honly⟩
  · next hroom =>
    have hne : t.eng.w.cnt.toNat ≠ 7 := fun h7 => hroom (BitVec.eq_of_toNat_eq h7)
    rw [show (p + 1) / 8 = p / 8 by omega, writesBetween_self]
    refine .ok ((h.setEng _).setEng _) ⟨⟨?_, ?_⟩, rfl⟩
    · show t.eng.w.outPos.toNat = _
      omega
    · show (t.eng.w.cnt + 1).toNat = _
      rw [BitVec.toNat_add, hcnt, Nat.mod_eq_of_lt (by simp; omega)]
      simp
      omega

theorem makes_writeString (h : BeforeError s k more t) (hw : WriterAt p t.eng.w) (bs : Bits) :
    Makes s k more (writesBetween (p / 8) ((p + bs.length) / 8)) (writeString bs t)
      (fun _ u => WriterAt (p + bs.length) u.eng.w ∧ OnlyWriter t.eng u.eng) := by
  induction bs generalizing k p t with
  | nil =>
    rw [List.length_nil, Nat.add_zero, writesBetween_self]
    exact .ok h ⟨hw, .refl _⟩
  | cons b bs ih =>
    have hsum : p + (b :: bs).length = p + 1 + bs.length := by rw [List.length_cons]; omega
    rw [hsum, ← writesBetween_append (q := (p + 1) / 8) (by omega) (by omega)]
    refine (makes_writeBit hargs h hw b).bind fun _ u hu hQ => ?_
    obtain ⟨hw', honly⟩ := hQ
    exact (ih hu hw').mono fun _ v hv => ⟨hv.1, honly.trans hv.2⟩

theorem makes_flush (h : BeforeError s k more t) (hw : WriterAt p t.eng.w) :
    Makes s k more (writesBetween (p / 8) ((p + 7) / 8)) (flush t) (fun _ _ => True) := by
  obtain ⟨hpos, hcnt⟩ := hw
  rw [flush]
  split
  · next hempty =>
    rw [hempty] at hcnt
    rw [show (p + 7) / 8 = p / 8 by simp at hcnt; omega, writesBetween_self]
    exact .ok h trivial
  · next hpart =>
    have hne : t.eng.w.cnt.toNat ≠ 0 := fun h0 => hpart (BitVec.eq_of_toNat_eq h0)
    rw [show (p + 7) / 8 = p / 8 + 1 by omega, writesBetween_succ (by omega), writesBetween_self]
    exact (makes_putAcc hargs h hpos).mono fun _ _ _ => trivial

/-- SerNode writes the bits of the tree that the arena holds (R160). -/
theorem makes_serNode {tree : HuffTree} {lo hi depth : Nat} {i : BitVec 9} (h : BeforeError s k more t)
    (hw : WriterAt p t.eng.w) (htree : t.eng.Holds lo hi tree i) (hdepth : tree.depth < depth) :
    Makes s k more (writesBetween (p / 8) ((p + tree.serialize.length) / 8)) (serNode depth i t)
      (fun _ u => WriterAt (p + tree.serialize.length) u.eng.w ∧ OnlyWriter t.eng u.eng) := by
  obtain ⟨depth, rfl⟩ : ∃ d, depth = d + 1 := ⟨depth - 1, by omega⟩
  induction tree generalizing i k p t depth with
  | leaf v =>
    obtain ⟨-, n, hn, hk, rfl⟩ := htree
    simp only [serNode, hn, hk]
    have hsum : p + (HuffTree.leaf n.value).serialize.length = p + 1 + (bitsOf Config.symW n.value.toNat).length := by
      rw [HuffTree.serialize, List.length_cons, bitsOf_length, bitsOf_length, Config.symW]
    rw [hsum, ← writesBetween_append (q := (p + 1) / 8) (by omega) (by omega)]
    refine (makes_writeBit hargs h hw true).bind fun _ u hu hQ => ?_
    obtain ⟨hw', honly⟩ := hQ
    exact (makes_writeString hargs hu hw' _).mono fun _ v hv => ⟨hv.1, honly.trans hv.2⟩
  | node l r ihl ihr =>
    obtain ⟨-, n, hn, hk, hl, hr⟩ := htree
    simp only [HuffTree.depth] at hdepth
    obtain ⟨depth, rfl⟩ : ∃ d, depth = d + 1 := ⟨depth - 1, by omega⟩
    rw [serNode]
    simp only [hn, hk]
    have hsum : p + (HuffTree.node l r).serialize.length = p + 1 + l.serialize.length + r.serialize.length := by
      simp [HuffTree.serialize]
      omega
    rw [hsum, Res.bind_assoc, ← writesBetween_append (q := (p + 1) / 8) (by omega) (by omega),
      ← writesBetween_append (p := (p + 1) / 8) (q := (p + 1 + l.serialize.length) / 8) (by omega) (by omega)]
    refine (makes_writeBit hargs h hw false).bind fun _ u hu hQ => ?_
    obtain ⟨hwu, hout⟩ := hQ
    refine (ihl hu hwu (hl.of_node (by rw [hout])) depth (by omega)).bind fun _ v hv hQ => ?_
    obtain ⟨hwv, houtv⟩ := hQ
    exact (ihr hv hwv (hr.of_node (by rw [houtv, hout])) depth (by omega)).mono fun _ _ hx =>
      ⟨hx.1, (hout.trans houtv).trans hx.2⟩

end Writer

/-! ### The code table of a tree (R180, R182) -/

/-- The code table after each of these paths is stored, a later one in place of an earlier of the same value. -/
def Engine.setCodes (e : Engine) (l : List (Byte × Bits)) : Engine :=
  l.foldl (fun e p => e.setCode p.1 (.ofPath p.2)) e

theorem setCodes_append (e : Engine) (l l' : List (Byte × Bits)) :
    e.setCodes (l ++ l') = (e.setCodes l).setCodes l' := List.foldl_append

theorem setCodes_eq (e : Engine) (l : List (Byte × Bits)) : e.setCodes l = { e with ct := (e.setCodes l).ct } := by
  induction l generalizing e with
  | nil => rfl
  | cons p l ih => exact ih _

theorem codeEntry_setCodes (e : Engine) (l : List (Byte × Bits)) (v : Byte) :
    (e.setCodes l).codeEntry v = ((l.reverse.lookup v).map CodeEntry.ofPath).getD (e.codeEntry v) := by
  induction l using List.reverseRecOn with
  | nil => rfl
  | append_singleton l p ih =>
    rw [setCodes_append, List.reverse_append, List.reverse_singleton, List.singleton_append, List.lookup_cons]
    show ((e.setCodes l).setCode p.1 (.ofPath p.2)).codeEntry v = _
    rw [codeEntry_setCode, ih]
    by_cases hv : p.1 = v
    · rw [if_pos hv, hv, beq_self_eq_true]
      rfl
    · rw [if_neg hv, beq_false_of_ne fun h => hv h.symm]

/-- Derive stores the paths of the tree that the arena holds (R180). -/
theorem derive_of_holds {tree : HuffTree} {lo hi depth : Nat} {i : BitVec 9} {path : Bits} {e : Engine}
    (htree : e.Holds lo hi tree i) (hdepth : tree.depth < depth) :
    derive depth i path e = some (e.setCodes (tree.leafPaths path)) := by
  obtain ⟨depth, rfl⟩ : ∃ d, depth = d + 1 := ⟨depth - 1, by omega⟩
  induction tree generalizing i path e depth with
  | leaf v =>
    obtain ⟨-, n, hn, hk, rfl⟩ := htree
    simp only [derive, hn, hk]
    rfl
  | node l r ihl ihr =>
    obtain ⟨-, n, hn, hk, hl, hr⟩ := htree
    simp only [HuffTree.depth] at hdepth
    obtain ⟨depth, rfl⟩ : ∃ d, depth = d + 1 := ⟨depth - 1, by omega⟩
    have hr' : (e.setCodes (l.leafPaths (path ++ [false]))).Holds lo hi r n.right := hr.of_node (by rw [setCodes_eq])
    rw [derive]
    simp only [hn, hk, ihl hl depth (by omega), ihr hr' depth (by omega)]
    rw [HuffTree.leafPaths, setCodes_append]

end Sys2Proof.Machine

namespace Sys2Proof.Machine

/-! ## Family 20_memory: phase C_BUILD builds the tree of BuildTree (R140 to R147)

`Refines` relates the arena under construction to the working set of trees that the closed form merges. -/

/-! ### The least item and the least alive entry (R145) -/

/-- One (index, weight) pair is not after another in the order of R145. -/
def KeyLe (m b : Nat × Word) : Prop := m.2 < b.2 ∨ (m.2 = b.2 ∧ m.1 ≤ b.1)

theorem KeyLe.trans {a b c : Nat × Word} (h : KeyLe a b) (h' : KeyLe b c) : KeyLe a c := by
  rcases h with h | ⟨h1, h2⟩ <;> rcases h' with h' | ⟨h1', h2'⟩
  · exact .inl (BitVec.lt_trans h h')
  · exact .inl (h1' ▸ h)
  · exact .inl (h1 ▸ h')
  · exact .inr ⟨h1.trans h1', h2.trans h2'⟩

/-- The scan gives the best it started with or an alive entry, and nothing alive or found before is better. -/
theorem scanMin_least {l : List (Bool × Node)} {i : Nat} {best : Option (Nat × Word)} {m : Nat × Word}
    (h : scanMin l i best = some m) (hbest : ∀ b, best = some b → b.1 < i) :
    (best = some m ∨ ∃ j n, l[j]? = some (true, n) ∧ m = (i + j, n.weight)) ∧ (∀ b, best = some b → KeyLe m b) ∧
      ∀ j n, l[j]? = some (true, n) → KeyLe m (i + j, n.weight) := by
  induction l generalizing i best with
  | nil =>
    simp only [scanMin] at h
    subst h
    exact ⟨.inl rfl, fun b hb => .inr (by cases hb; exact ⟨rfl, Nat.le_refl _⟩), nofun⟩
  | cons p l ih =>
    obtain ⟨alive, n⟩ := p
    have shift : ∀ j n', l[j]? = some (true, n') → (i + 1 + j, n'.weight) = (i + (j + 1), n'.weight) := fun j _ _ => by
      rw [Nat.add_right_comm, Nat.add_assoc]
    -- The entry at `i` becomes the best one, or the best one before it stays.
    have split_best : (alive = true ∧ scanMin l (i + 1) (some (i, n.weight)) = some m ∧
          (∀ b, best = some b → KeyLe (i, n.weight) b)) ∨
        (scanMin l (i + 1) best = some m ∧ (alive = true → ∃ b, best = some b ∧ KeyLe b (i, n.weight))) := by
      simp only [scanMin] at h
      cases best with
      | none =>
        cases alive with
        | true => exact .inl ⟨rfl, h, nofun⟩
        | false => exact .inr ⟨h, nofun⟩
      | some b =>
        by_cases hlt : alive = true ∧ n.weight < b.2
        · rw [if_pos (by simp [hlt])] at h
          exact .inl ⟨hlt.1, h, fun b' hb' => .inl (by cases hb'; exact hlt.2)⟩
        · rw [if_neg (by simpa using hlt)] at h
          refine .inr ⟨h, fun halive => ⟨b, rfl, ?_⟩⟩
          have hle : b.2 ≤ n.weight := BitVec.not_lt.1 fun hw => hlt ⟨halive, hw⟩
          rcases Nat.lt_or_eq_of_le (BitVec.le_def.1 hle) with hw | hw
          · exact .inl (BitVec.lt_def.2 hw)
          · exact .inr ⟨BitVec.eq_of_toNat_eq hw, Nat.le_of_lt (hbest b rfl)⟩
    rcases split_best with ⟨rfl, hrest, hbetter⟩ | ⟨hrest, hkept⟩
    · obtain ⟨hm, hle, hall⟩ := ih hrest (by rintro b ⟨⟩; exact Nat.lt_succ_self i)
      have hnew := hle _ rfl
      refine ⟨.inr ?_, fun b hb => hnew.trans (hbetter b hb), fun j n' hj => ?_⟩
      · rcases hm with hm | ⟨j, n', hj, rfl⟩
        · cases hm
          exact ⟨0, n, rfl, rfl⟩
        · exact ⟨j + 1, n', hj, shift j n' hj⟩
      · cases j with
        | zero => cases hj; exact hnew
        | succ j => exact shift j n' hj ▸ hall j n' hj
    · obtain ⟨hm, hle, hall⟩ := ih hrest fun b hb => Nat.lt_succ_of_lt (hbest b hb)
      refine ⟨?_, hle, fun j n' hj => ?_⟩
      · rcases hm with hm | ⟨j, n', hj, rfl⟩
        · exact .inl hm
        · exact .inr ⟨j + 1, n', hj, shift j n' hj⟩
      · cases j with
        | zero =>
          cases hj
          obtain ⟨b, hb, hbn⟩ := hkept rfl
          exact (hle b hb).trans hbn
        | succ j => exact shift j n' hj ▸ hall j n' hj

/-- The least item is one of them, and none is before it. -/
theorem minItem_least {items : List Item} {a : Item} (h : minItem items = some a) :
    a ∈ items ∧ ∀ b ∈ items, b.before a = false := by
  induction items generalizing a with
  | nil => simp [minItem] at h
  | cons c items ih =>
    have hirrefl : ∀ b : Item, b.before b = false := fun b => by simp [Item.before]
    rw [minItem] at h
    cases hrest : minItem items with
    | none =>
      rw [hrest] at h
      cases h
      cases items with
      | nil => simpa using hirrefl _
      | cons d items =>
        rw [minItem] at hrest
        split at hrest <;> simp at hrest
    | some b =>
      obtain ⟨hb, hleast⟩ := ih hrest
      rw [hrest] at h
      simp only [Option.some.injEq] at h
      split at h
      · next hbefore =>
        subst h
        refine ⟨List.mem_cons_of_mem _ hb, fun d hd => ?_⟩
        rcases List.mem_cons.1 hd with rfl | hd
        · simp only [Item.before, decide_eq_true_eq, decide_eq_false_iff_not] at hbefore ⊢
          omega
        · exact hleast d hd
      · next hbefore =>
        subst h
        refine ⟨List.mem_cons_self, fun d hd => ?_⟩
        rcases List.mem_cons.1 hd with rfl | hd
        · exact hirrefl _
        · have := hleast d hd
          simp only [Item.before, decide_eq_true_eq, decide_eq_false_iff_not] at hbefore this ⊢
          omega

theorem minItem_of_ne_nil {items : List Item} (h : items ≠ []) : ∃ a, minItem items = some a := by
  cases items with
  | nil => exact absurd rfl h
  | cons c items =>
    rw [minItem]
    cases minItem items with
    | none => exact ⟨c, rfl⟩
    | some b => exact ⟨_, rfl⟩

/-! ### The arena and the working set -/

theorem toNat_index {i : Nat} (h : i < Config.nodeCap) : (BitVec.ofNat 9 i).toNat = i := by
  rw [Config.nodeCap] at h
  rw [BitVec.toNat_ofNat, Nat.mod_eq_of_lt (by omega)]

/-- What a new entry's index names. -/
theorem nodeAt_addEntry {e : Engine} (hlt : e.nodeCount.toNat < Config.nodeCap) (f : Node → Node) :
    ∃ n, (e.addEntry f).nodeAt (BitVec.ofNat 9 e.nodeCount.toNat) = some (f n) := by
  have hcap : e.nodeCount.toNat < 511 := hlt
  refine ⟨e.node[e.nodeCount.toNat], ?_⟩
  rw [Engine.nodeAt, toNat_index hlt, getElem?_addEntry_node, if_pos rfl, Vector.getElem?_eq_getElem hcap]
  rfl

/-- The arena has the item's tree at the item's index, alive and with its weight. -/
structure Engine.HoldsItem (e : Engine) (a : Item) : Prop where
  alive : e.alive[a.index]? = some true
  weight : ∃ n, e.node[a.index]? = some n ∧ n.weight = BitVec.ofNat 32 a.weight
  tree : e.Holds 0 e.nodeCount.toNat a.tree (BitVec.ofNat 9 a.index)

/-- The alive entries of the arena under construction are the roots of the trees of the working set. -/
structure Refines (e : Engine) (items : List Item) : Prop where
  built : BuildAlike e e
  held : ∀ a ∈ items, e.HoldsItem a
  covers : ∀ i, e.alive[i]? = some true → ∃ a ∈ items, a.index = i
  indexes : (items.map Item.index).Nodup
  total : (items.map Item.weight).sum < 2 ^ 32

namespace Refines

variable {e : Engine} {items : List Item} (h : Refines e items)
include h

theorem perm {items' : List Item} (hp : items.Perm items') : Refines e items' where
  built := h.built
  held a ha := h.held a (hp.mem_iff.2 ha)
  covers i hi := by
    obtain ⟨a, ha, hai⟩ := h.covers i hi
    exact ⟨a, hp.mem_iff.1 ha, hai⟩
  indexes := (hp.map _).nodup_iff.1 h.indexes
  total := (hp.map Item.weight).sum_eq ▸ h.total

theorem index_lt {a : Item} (ha : a ∈ items) : a.index < e.nodeCount.toNat := h.built.aliveUsed _ (h.held a ha).alive

theorem index_inj {a b : Item} (ha : a ∈ items) (hb : b ∈ items) (hab : a.index = b.index) : a = b :=
  List.inj_on_of_nodup_map h.indexes ha hb hab

theorem weight_lt {a : Item} (ha : a ∈ items) : a.weight < 2 ^ 32 :=
  Nat.lt_of_le_of_lt (List.single_le_sum (fun _ _ => Nat.zero_le _) _ (List.mem_map_of_mem ha)) h.total

/-- The least alive entry is that of the least item. -/
theorem minAlive_eq {a : Item} (ha : minItem items = some a) :
    e.minAlive = some (a.index, BitVec.ofNat 32 a.weight) := by
  obtain ⟨hmem, hleast⟩ := minItem_least ha
  obtain ⟨m, e', hm, -⟩ := takeMin_of_alive (aliveCount_pos (h.held a hmem).alive)
  have hmin : e.minAlive = some m := by
    rw [Engine.takeMin] at hm
    cases hs : e.minAlive with
    | none => simp [hs] at hm
    | some m' => rw [hs] at hm; cases hm; rfl
  obtain ⟨hfrom, -, hall⟩ := scanMin_least hmin nofun
  obtain ⟨j, n, hj, rfl⟩ := hfrom.resolve_left nofun
  rw [List.getElem?_zip_eq_some, Vector.getElem?_toList, Vector.getElem?_toList] at hj
  obtain ⟨hjalive, hjnode⟩ := hj
  rw [Nat.zero_add] at hmin hall
  obtain ⟨b, hb, rfl⟩ := h.covers j hjalive
  obtain ⟨n', hn', hweight⟩ := (h.held b hb).weight
  obtain rfl : n' = n := Option.some.inj (hn'.symm.trans hjnode)
  obtain ⟨na, hna, haweight⟩ := (h.held a hmem).weight
  have hkey := hall a.index na (by
    rw [List.getElem?_zip_eq_some, Vector.getElem?_toList, Vector.getElem?_toList]
    exact ⟨(h.held a hmem).alive, hna⟩)
  have hbefore := hleast b hb
  have hwa := h.weight_lt hmem
  have hwb := h.weight_lt hb
  rw [KeyLe, hweight, haweight, BitVec.lt_def, ← BitVec.toNat_inj, BitVec.toNat_ofNat, BitVec.toNat_ofNat,
    Nat.mod_eq_of_lt hwa, Nat.mod_eq_of_lt hwb] at hkey
  simp only [Item.before, decide_eq_false_iff_not] at hbefore
  obtain rfl : b = a := h.index_inj hb hmem (by dsimp only at hkey; omega)
  rw [hmin, hweight]

/-- Taking the least entry out of the working set takes out the least item. -/
theorem takeMin {a : Item} (ha : minItem items = some a) :
    e.takeMin = some ((a.index, BitVec.ofNat 32 a.weight), e.setAlive a.index false) ∧
      Refines (e.setAlive a.index false) (items.erase a) := by
  have hmem := (minItem_least ha).1
  have hne : ∀ b ∈ items.erase a, b ∈ items ∧ a.index ≠ b.index := fun b hb => by
    have hnodup : items.Nodup := h.indexes.of_map _
    obtain ⟨hne, hb'⟩ := (hnodup.mem_erase_iff).1 hb
    exact ⟨hb', fun hab => hne (h.index_inj hmem hb' hab).symm⟩
  have hp := List.perm_cons_erase hmem
  refine ⟨by rw [Engine.takeMin, h.minAlive_eq ha], h.built.removeAlive _, fun b hb => ?_, fun i hi => ?_, ?_, ?_⟩
  · obtain ⟨hb', hab⟩ := hne b hb
    obtain ⟨halive, hweight, htree⟩ := h.held b hb'
    refine ⟨?_, hweight, htree.of_node rfl⟩
    rw [Engine.setAlive, Vector.getElem?_setIfInBounds, if_neg hab]
    exact halive
  · rw [Engine.setAlive, Vector.getElem?_setIfInBounds] at hi
    split at hi
    · split at hi <;> simp at hi
    · next hai =>
      obtain ⟨b, hb, rfl⟩ := h.covers i hi
      exact ⟨b, (List.mem_erase_of_ne (by rintro rfl; exact hai rfl)).2 hb, rfl⟩
  · exact (List.erase_sublist.map _).nodup h.indexes
  · have htotal := h.total
    rw [(hp.map Item.weight).sum_eq, List.map_cons, List.sum_cons] at htotal
    omega

/-- A new entry is a new item. -/
theorem addEntry (hlt : e.nodeCount.toNat < Config.nodeCap) {f : Node → Node} (hf : SetsEntry f) {a : Item}
    (hindex : a.index = e.nodeCount.toNat) (hweight : ∀ n, (f n).weight = BitVec.ofNat 32 a.weight)
    (hchildren : ∀ n, (f n).kind = .internal →
      (f n).left.toNat < e.nodeCount.toNat ∧ (f n).right.toNat < e.nodeCount.toNat)
    (htree : (e.addEntry f).Holds 0 (e.nodeCount.toNat + 1) a.tree (BitVec.ofNat 9 e.nodeCount.toNat))
    (htotal : a.weight + (items.map Item.weight).sum < 2 ^ 32) : Refines (e.addEntry f) (a :: items) := by
  have hcap : e.nodeCount.toNat < 511 := hlt
  have hcount := addEntry_nodeCount_toNat f hlt
  refine ⟨h.built.addEntry hlt hf hchildren, fun b hb => ?_, fun i hi => ?_, ?_, by simpa using htotal⟩
  · rcases List.mem_cons.1 hb with rfl | hb
    · refine ⟨?_, ⟨f e.node[e.nodeCount.toNat], ?_, hweight _⟩, ?_⟩
      · rw [addEntry_alive, hindex, Vector.getElem?_setIfInBounds, if_pos rfl, if_pos hcap]
      · rw [getElem?_addEntry_node, hindex, if_pos rfl, Vector.getElem?_eq_getElem hcap]
        rfl
      · rw [hcount, hindex]
        exact htree
    · obtain ⟨halive, ⟨n, hn, hw⟩, hheld⟩ := h.held b hb
      have hbound := h.index_lt hb
      refine ⟨?_, ⟨n, ?_, hw⟩, ?_⟩
      · rw [addEntry_alive, Vector.getElem?_setIfInBounds, if_neg (by omega)]
        exact halive
      · rw [getElem?_addEntry_node, if_neg (by omega)]
        exact hn
      · exact hheld.of_same (Nat.le_refl _) (by omega) fun j _ hj => by
          rw [getElem?_addEntry_node, if_neg (by omega)]
  · rw [addEntry_alive, Vector.getElem?_setIfInBounds] at hi
    split at hi
    · next heq => exact ⟨a, List.mem_cons_self, by rw [hindex, heq]⟩
    · obtain ⟨b, hb, hbi⟩ := h.covers i hi
      exact ⟨b, List.mem_cons_of_mem _ hb, hbi⟩
  · rw [List.map_cons, List.nodup_cons]
    refine ⟨fun hmem => ?_, h.indexes⟩
    obtain ⟨b, hb, hba⟩ := List.mem_map.1 hmem
    have := h.index_lt hb
    omega

end Refines

end Sys2Proof.Machine

namespace Sys2Proof.Machine

/-! ### Merges (R145, R146) -/

namespace Refines

variable {e : Engine} {items : List Item} (h : Refines e items)
include h

/-- A merge takes the two least trees and puts the new one at `node_count`. -/
theorem mergeOnce (hlt : e.nodeCount.toNat < Config.nodeCap) {a c : Item} (ha : minItem items = some a)
    (hc : minItem (items.erase a) = some c) :
    ∃ e', mergeOnce e = some e' ∧ e'.nodeCount.toNat = e.nodeCount.toNat + 1 ∧
      Refines e' (⟨a.weight + c.weight, e.nodeCount.toNat, .node a.tree c.tree⟩ :: (items.erase a).erase c) := by
  obtain ⟨hta, h1⟩ := h.takeMin ha
  obtain ⟨htc, h2⟩ := h1.takeMin hc
  have hmema := (minItem_least ha).1
  have hmemc := (minItem_least hc).1
  have hindexa : a.index < e.nodeCount.toNat := h.index_lt hmema
  have hindexc : c.index < e.nodeCount.toNat := h1.index_lt hmemc
  refine ⟨_, by simp only [Machine.mergeOnce, hta, htc]; rfl, ?_, ?_⟩
  · rw [addInternal_eq_addEntry]
    exact addEntry_nodeCount_toNat _ hlt
  · rw [addInternal_eq_addEntry]
    refine h2.addEntry hlt (setsEntry_internal _ _ _) rfl (fun _ => (BitVec.ofNat_add _ _).symm) (fun _ _ => ?_) ?_ ?_
    · rw [toNat_index (hindexa.trans hlt), toNat_index (hindexc.trans hlt)]
      exact ⟨hindexa, hindexc⟩
    · have hkept : ∀ j < e.nodeCount.toNat, ∀ f : Node → Node,
          (((e.setAlive a.index false).setAlive c.index false).addEntry f).node[j]? = e.node[j]? := fun j hj f => by
        rw [getElem?_addEntry_node]
        exact if_neg (Nat.ne_of_gt hj)
      obtain ⟨n, hn⟩ := nodeAt_addEntry (e := (e.setAlive a.index false).setAlive c.index false) hlt _
      refine ⟨⟨Nat.zero_le _, (toNat_index hlt).symm ▸ Nat.lt_succ_self _⟩, _, hn, rfl, ?_, ?_⟩
      · exact (h.held a hmema).tree.of_same (Nat.le_refl _) (Nat.le_succ _) fun j _ hj => hkept j hj _
      · exact (h1.held c hmemc).tree.of_same (Nat.le_refl _) (Nat.le_succ _) fun j _ hj => hkept j hj _
    · have htotal := h.total
      rw [((List.perm_cons_erase hmema).map Item.weight).sum_eq, List.map_cons, List.sum_cons,
        ((List.perm_cons_erase hmemc).map Item.weight).sum_eq, List.map_cons, List.sum_cons] at htotal
      dsimp only
      omega

end Refines

/-- A merge of the closed form. -/
theorem mergeItems_succ {n m : Nat} {items : List Item} (h : 2 ≤ items.length) :
    ∃ a c, minItem items = some a ∧ minItem (items.erase a) = some c ∧
      ((items.erase a).erase c).length + 2 = items.length ∧
      mergeItems (n + 1) m items =
        mergeItems n (m + 1) (⟨a.weight + c.weight, m, .node a.tree c.tree⟩ :: (items.erase a).erase c) := by
  obtain ⟨a, ha⟩ := minItem_of_ne_nil (items := items) (by rintro rfl; simp at h)
  have hlen := List.length_erase_of_mem (minItem_least ha).1
  obtain ⟨c, hc⟩ := minItem_of_ne_nil (items := items.erase a) (by intro hnil; rw [hnil] at hlen; simp at hlen; omega)
  have hlen' := List.length_erase_of_mem (minItem_least hc).1
  exact ⟨a, c, ha, hc, by omega, by rw [mergeItems, ha]; dsimp only; rw [hc]⟩

/-- So many merges of the arena are the merges of the closed form, and the tree made last is at the last entry. -/
theorem Refines.mergeTimes {n : Nat} {e : Engine} {items : List Item} (h : Refines e items) (hn : n < items.length)
    (hfit : e.nodeCount.toNat + n ≤ Config.nodeCap) :
    ∃ e', mergeTimes n e = some e' ∧ e'.nodeCount.toNat = e.nodeCount.toNat + n ∧
      Refines e' (mergeItems n e.nodeCount.toNat items) ∧
      (mergeItems n e.nodeCount.toNat items).length = items.length - n ∧
      (0 < n → ∃ a rest, mergeItems n e.nodeCount.toNat items = a :: rest ∧ a.index + 1 = e'.nodeCount.toNat) := by
  induction n generalizing e items with
  | zero => exact ⟨e, rfl, rfl, h, rfl, fun hlt => absurd hlt (Nat.lt_irrefl 0)⟩
  | succ n ih =>
    obtain ⟨a, c, ha, hc, hlen, hitems⟩ := mergeItems_succ (n := n) (m := e.nodeCount.toNat) (items := items) (by omega)
    obtain ⟨e1, he1, hcount, h1⟩ := h.mergeOnce (by omega) ha hc
    obtain ⟨e', he', hcount', h', hlen', hlast⟩ := ih h1 (by rw [List.length_cons]; omega) (by omega)
    rw [hitems, Machine.mergeTimes, he1, ← hcount]
    refine ⟨e', he', by omega, h', by rw [hlen', List.length_cons]; omega, fun _ => ?_⟩
    cases n with
    | zero =>
      rw [Machine.mergeTimes] at he'
      cases he'
      exact ⟨_, _, rfl, by dsimp only; omega⟩
    | succ n => exact hlast (Nat.succ_pos n)

/-! ### Leaves (R142, R143) -/

/-- How often a byte value stands in the source bytes. -/
def countOf (x : List Byte) (v : Nat) : Nat := x.count (BitVec.ofNat 8 v)

/-- The leaf of a byte value, at an arena index. -/
def leafItem (x : List Byte) (p : Nat × Nat) : Item := ⟨countOf x p.1, p.2, .leaf (BitVec.ofNat 8 p.1)⟩

/-- The leaves of `n` byte values from `v` on that occur, at the arena indices from `i` on. -/
def realLeaves (x : List Byte) (v n i : Nat) : List Item :=
  (((List.range' v n).filter fun v => decide (0 < countOf x v)).zipIdx i).map (leafItem x)

/-- The dummy leaves that make `i` leaves two. -/
def dummyLeaves (i : Nat) : List Item := (List.range (2 - i)).map fun j => ⟨0, i + j, .leaf 0⟩

theorem leafItems_eq (x : List Byte) :
    leafItems x = realLeaves x 0 256 0 ++ dummyLeaves (realLeaves x 0 256 0).length := by
  rw [leafItems, List.range_eq_range']
  rfl

theorem realLeaves_succ (x : List Byte) (v n i : Nat) :
    realLeaves x v (n + 1) i =
      if 0 < countOf x v then leafItem x (v, i) :: realLeaves x (v + 1) n (i + 1) else realLeaves x (v + 1) n i := by
  rw [realLeaves, List.range'_succ, List.filter_cons]
  by_cases hv : 0 < countOf x v
  · rw [if_pos hv, if_pos (decide_eq_true hv), List.zipIdx_cons, List.map_cons]
    rfl
  · rw [if_neg hv, if_neg (by simpa using hv)]
    rfl

/-- A new leaf is a new item. -/
theorem Refines.addLeaf {e : Engine} {items : List Item} (h : Refines e items)
    (hlt : e.nodeCount.toNat < Config.nodeCap) (v : Byte) {w : Nat}
    (htotal : w + (items.map Item.weight).sum < 2 ^ 32) :
    Refines (e.addLeaf v (BitVec.ofNat 32 w)) (items ++ [⟨w, e.nodeCount.toNat, .leaf v⟩]) := by
  rw [addLeaf_eq_addEntry]
  refine (h.addEntry hlt (setsEntry_leaf v _) (a := ⟨w, e.nodeCount.toNat, .leaf v⟩) rfl (fun _ => rfl) nofun ?_
    htotal).perm (List.perm_append_singleton _ _).symm
  obtain ⟨n, hn⟩ := nodeAt_addEntry hlt _
  exact ⟨⟨Nat.zero_le _, (toNat_index hlt).symm ▸ Nat.lt_succ_self _⟩, _, hn, rfl, rfl⟩

/-- The leaves of the counts are the leaves of the closed form (R142). -/
theorem Refines.addLeaves {x : List Byte} (hx : x.length < 2 ^ 32) {n v : Nat} {e : Engine} {items : List Item}
    (h : Refines e items) (hfit : e.nodeCount.toNat + n ≤ Config.nodeCap)
    (htotal : ((List.range' v n).map (countOf x)).sum + (items.map Item.weight).sum < 2 ^ 32) :
    Refines (addLeaves ((List.range' v n).map fun v => BitVec.ofNat 32 (countOf x v)) v e)
      (items ++ realLeaves x v n e.nodeCount.toNat) ∧
    (addLeaves ((List.range' v n).map fun v => BitVec.ofNat 32 (countOf x v)) v e).nodeCount.toNat =
      e.nodeCount.toNat + (realLeaves x v n e.nodeCount.toNat).length := by
  induction n generalizing v e items with
  | zero => exact ⟨(List.append_nil items).symm ▸ h, rfl⟩
  | succ n ih =>
    rw [List.range'_succ, List.map_cons, List.sum_cons] at htotal
    rw [List.range'_succ, List.map_cons, Machine.addLeaves, realLeaves_succ]
    have hcount : countOf x v < 2 ^ 32 := Nat.lt_of_le_of_lt List.count_le_length hx
    have hpos : 0#32 < BitVec.ofNat 32 (countOf x v) ↔ 0 < countOf x v := by
      rw [BitVec.lt_def, BitVec.toNat_ofNat, BitVec.toNat_ofNat, Nat.mod_eq_of_lt hcount]
    by_cases hv : 0 < countOf x v
    · rw [if_pos (hpos.2 hv), if_pos hv]
      have hlt : e.nodeCount.toNat < Config.nodeCap := by omega
      have hnode := addLeaf_nodeCount_toNat hlt (BitVec.ofNat 8 v) (BitVec.ofNat 32 (countOf x v))
      obtain ⟨h', hlen⟩ := ih (v := v + 1) (h.addLeaf hlt (BitVec.ofNat 8 v) (w := countOf x v) (by omega))
        (by omega) (by rw [List.map_append, List.sum_append]; simp; omega)
      rw [hnode] at h' hlen
      exact ⟨by rwa [List.append_assoc] at h', by rw [hlen, List.length_cons]; omega⟩
    · rw [if_neg (mt hpos.1 hv), if_neg hv]
      exact ih h (by omega) (by omega)

/-- The dummies are those of the closed form (R143). -/
theorem Refines.addDummies {n : Nat} {e : Engine} {items : List Item} (h : Refines e items)
    (hlen : items.length = e.nodeCount.toNat) (hn : 2 ≤ n + e.nodeCount.toNat) :
    Refines (addDummies n e) (items ++ dummyLeaves e.nodeCount.toNat) ∧
      (items ++ dummyLeaves e.nodeCount.toNat).length = (addDummies n e).nodeCount.toNat := by
  have hnone : ∀ i, 2 ≤ i → dummyLeaves i = [] := fun i hi => by rw [dummyLeaves, Nat.sub_eq_zero_of_le hi]; rfl
  induction n generalizing e items with
  | zero =>
    rw [hnone _ (by omega), List.append_nil]
    exact ⟨h, hlen⟩
  | succ n ih =>
    rw [Machine.addDummies]
    split
    · next hfew =>
      have hfew' : e.nodeCount.toNat < 2 := hfew
      have hlt : e.nodeCount.toNat < Config.nodeCap := by rw [Config.nodeCap]; omega
      have hnode := addLeaf_nodeCount_toNat hlt 0 0
      have hdummy : dummyLeaves e.nodeCount.toNat =
          ⟨0, e.nodeCount.toNat, .leaf 0⟩ :: dummyLeaves (e.nodeCount.toNat + 1) := by
        rw [dummyLeaves, show 2 - e.nodeCount.toNat = 2 - (e.nodeCount.toNat + 1) + 1 by omega,
          List.range_succ_eq_map, List.map_cons, List.map_map]
        simp only [dummyLeaves, Nat.add_zero, List.cons.injEq, true_and]
        refine List.map_congr_left fun j _ => ?_
        rw [Nat.add_assoc _ 1 j, Nat.add_comm 1 j]
        rfl
      have htotal := h.total
      have h1 : Refines (e.addLeaf 0 0) (items ++ [⟨0, e.nodeCount.toNat, .leaf 0⟩]) :=
        h.addLeaf hlt 0 (w := 0) (by omega)
      have hdummies := ih h1 (by rw [List.length_append, hlen, hnode]; rfl) (by omega)
      rwa [hnode, List.append_assoc, List.singleton_append, ← hdummy] at hdummies
    · next hge =>
      have hge' : 2 ≤ e.nodeCount.toNat := Nat.le_of_not_lt hge
      rw [hnone _ hge', List.append_nil]
      exact ⟨h, hlen⟩

end Sys2Proof.Machine

namespace Sys2Proof.Machine

/-! ### The whole of C_BUILD -/

/-- Different values together occur no more often than there are bytes. -/
theorem sum_count_le {l : List Byte} (h : l.Nodup) (x : List Byte) :
    (l.map fun b => x.count b).sum ≤ x.length := by
  have hall : ∑ b ∈ (l.toFinset ∪ x.toFinset : Finset Byte), x.count b = x.length :=
    by simpa using Multiset.sum_count_eq_card (m := (x : Multiset Byte)) (s := l.toFinset ∪ x.toFinset) fun b hb =>
      Finset.mem_union_right _ (List.mem_toFinset.2 (by simpa using hb))
  rw [← List.sum_toFinset _ h, ← hall]
  exact Finset.sum_le_sum_of_subset Finset.subset_union_left

theorem sum_countOf_le (x : List Byte) : ((List.range' 0 256).map (countOf x)).sum ≤ x.length := by
  have hnodup : ((List.range' 0 256).map (BitVec.ofNat 8)).Nodup := by
    refine (List.nodup_range' 1).map_on fun i hi j hj hij => ?_
    rw [List.mem_range'_1] at hi hj
    have hnat := congrArg BitVec.toNat hij
    rw [BitVec.toNat_ofNat, BitVec.toNat_ofNat] at hnat
    omega
  have h := sum_count_le hnodup x
  rwa [List.map_map] at h

/-- FREQ holds the counts of the source bytes (R141). -/
def Counts (x : List Byte) (e : Engine) : Prop := ∀ b : Byte, e.freq[b.toNat]'b.isLt = BitVec.ofNat 32 (x.count b)

theorem Counts.toList {x : List Byte} {e : Engine} (h : Counts x e) :
    e.freq.toList = (List.range' 0 256).map fun v => BitVec.ofNat 32 (countOf x v) := by
  refine List.ext_getElem (by simp) fun i hi _ => ?_
  have hlt : i < 256 := by simpa using hi
  have hb : (BitVec.ofNat 8 i).toNat = i := by rw [BitVec.toNat_ofNat, Nat.mod_eq_of_lt hlt]
  have hcount := h (BitVec.ofNat 8 i)
  simp only [hb] at hcount
  rw [Vector.getElem_toList, hcount, List.getElem_map, List.getElem_range', Nat.zero_add, Nat.one_mul, countOf]

/-- The leaves of C_BUILD are those of the closed form (R142, R143). -/
theorem buildLeaves_refines {x : List Byte} {e : Engine} (hx : x.length < 2 ^ 32) (hfreq : Counts x e) :
    Refines (buildLeaves e) (leafItems x) ∧ (leafItems x).length = (buildLeaves e).nodeCount.toNat := by
  have hempty : Refines { e with alive := .replicate 511 false, nodeCount := 0 } [] := by
    refine ⟨buildAlike_empty e e, nofun, fun i hi => ?_, List.nodup_nil, by simp⟩
    simp [Vector.getElem?_replicate] at hi
  have htotal := sum_countOf_le x
  obtain ⟨hreal, hcount⟩ := hempty.addLeaves hx (n := 256) (v := 0) (show 0 + 256 ≤ 511 by decide)
    (by rw [List.map_nil, List.sum_nil]; omega)
  replace hreal : Refines _ (realLeaves x 0 256 0) := hreal
  replace hcount : _ = 0 + (realLeaves x 0 256 0).length := hcount
  rw [Nat.zero_add] at hcount
  have hdummies := hreal.addDummies (n := 2) hcount.symm (Nat.le_add_right 2 _)
  rw [hcount, ← leafItems_eq] at hdummies
  rwa [buildLeaves, hfreq.toList]

/-- Phase C_BUILD leaves the arena of the tree that BuildTree gives (R140, R147). -/
theorem buildArena_holds {x : List Byte} {e : Engine} (hx : x.length < 2 ^ 32) (hfreq : Counts x e) :
    ∃ e', buildArena e = some e' ∧ e'.Holds 0 e'.nodeCount.toNat (buildTree x) e'.root := by
  obtain ⟨hleaves, hlen⟩ := buildLeaves_refines hx hfreq
  obtain ⟨-, hge, hle⟩ := buildLeaves_sim (d := e) (e := e) rfl
  rw [Config.maxLeaves] at hle
  obtain ⟨e', hmerge, hcount, hrefines, hone, hlast⟩ := hleaves.mergeTimes
    (n := (buildLeaves e).nodeCount.toNat - 1) (by omega) (by rw [Config.nodeCap]; omega)
  obtain ⟨a, rest, hitems, hindex⟩ := hlast (by omega)
  have hroot : (e'.nodeCount - 1).setWidth 9 = BitVec.ofNat 9 a.index := by
    have hone' : BitVec.toNat (1 : BitVec 10) = 1 := rfl
    refine BitVec.eq_of_toNat_eq ?_
    rw [BitVec.toNat_setWidth, BitVec.toNat_sub_of_le (by rw [BitVec.le_def]; omega), hone', BitVec.toNat_ofNat]
    congr 1
    omega
  have htree : buildTree x = a.tree := by
    rw [buildTree, hlen, hitems]
  refine ⟨{ e' with root := (e'.nodeCount - 1).setWidth 9 }, by simp only [buildArena, hmerge], ?_⟩
  rw [htree]
  show Engine.Holds _ 0 e'.nodeCount.toNat a.tree ((e'.nodeCount - 1).setWidth 9)
  rw [hroot]
  exact (hrefines.held a (by rw [hitems]; exact List.mem_cons_self)).tree.of_node rfl

/-! ## Family 20_memory: the shape of the built tree (R144, R149, R181) -/

namespace HuffTree

/-- The values of the leaves, left before right. -/
def leaves : HuffTree → List Byte
  | leaf v => [v]
  | node l r => l.leaves ++ r.leaves

theorem leafPaths_fst (t : HuffTree) (path : Bits) : (t.leafPaths path).map Prod.fst = t.leaves := by
  induction t generalizing path with
  | leaf v => rfl
  | node l r ihl ihr => rw [leafPaths, List.map_append, ihl, ihr, leaves]

theorem depth_lt_leaves (t : HuffTree) : t.depth < t.leaves.length := by
  induction t with
  | leaf v => exact Nat.zero_lt_one
  | node l r ihl ihr =>
    rw [leaves, List.length_append, depth]
    omega

theorem length_of_leafPaths {t : HuffTree} {path : Bits} {q : Byte × Bits} (h : q ∈ t.leafPaths path) :
    q.2.length ≤ path.length + t.depth := by
  induction t generalizing path with
  | leaf v =>
    obtain rfl : q = (v, path) := by simpa [leafPaths] using h
    exact Nat.le_add_right _ _
  | node l r ihl ihr =>
    rw [leafPaths, List.mem_append] at h
    rw [depth]
    rcases h with h | h
    · have := ihl h
      rw [List.length_append, List.length_singleton] at this
      omega
    · have := ihr h
      rw [List.length_append, List.length_singleton] at this
      omega

/-- Every value of a leaf has a code, no longer than the tree is deep. -/
theorem code_of_mem_leaves {t : HuffTree} {v : Byte} (h : v ∈ t.leaves) :
    ∃ p, t.code v = some p ∧ p.length ≤ t.depth := by
  rw [← t.leafPaths_fst [], List.mem_map] at h
  obtain ⟨q, hq, rfl⟩ := h
  have hsome : (t.code q.1).isSome = true :=
    List.lookup_isSome_iff.2 ⟨q, List.mem_reverse.2 hq, beq_self_eq_true _⟩
  obtain ⟨p, hp⟩ := Option.isSome_iff_exists.1 hsome
  obtain ⟨l1, l2, hl, -⟩ := List.lookup_eq_some_iff.1 hp
  have hmem : (q.1, p) ∈ t.leafPaths [] := List.mem_reverse.1 (by rw [hl]; simp)
  exact ⟨p, hp, by simpa using length_of_leafPaths hmem⟩

end HuffTree

/-- The leaf values of all trees of the working set. -/
def itemLeaves (items : List Item) : List Byte := items.flatMap fun a => a.tree.leaves

/-- Merges keep the leaves, and each leaves one tree less. -/
theorem mergeItems_leaves {n m : Nat} {items : List Item} (h : n < items.length) :
    (itemLeaves (mergeItems n m items)).Perm (itemLeaves items) ∧ (mergeItems n m items).length = items.length - n := by
  induction n generalizing m items with
  | zero => exact ⟨.refl _, rfl⟩
  | succ n ih =>
    obtain ⟨a, c, ha, hc, hlen, hitems⟩ := mergeItems_succ (n := n) (m := m) (items := items) (by omega)
    obtain ⟨hperm, hlen'⟩ := ih (m := m + 1)
      (items := ⟨a.weight + c.weight, m, .node a.tree c.tree⟩ :: (items.erase a).erase c)
      (by rw [List.length_cons]; omega)
    rw [hitems]
    refine ⟨hperm.trans ?_, by rw [hlen', List.length_cons]; omega⟩
    have hpa := List.perm_cons_erase (minItem_least ha).1
    have hpc := List.perm_cons_erase (minItem_least hc).1
    have hall := (hpa.trans (hpc.cons a)).flatMap_right fun a => a.tree.leaves
    refine List.Perm.trans ?_ hall.symm
    simp only [itemLeaves, List.flatMap_cons, HuffTree.leaves, List.append_assoc]
    exact .refl _

theorem realLeaves_leaves (x : List Byte) (v n i : Nat) :
    itemLeaves (realLeaves x v n i) =
      ((List.range' v n).filter fun v => decide (0 < countOf x v)).map (BitVec.ofNat 8) := by
  induction n generalizing v i with
  | zero => rfl
  | succ n ih =>
    rw [realLeaves_succ, List.range'_succ, List.filter_cons]
    by_cases hv : 0 < countOf x v
    · rw [if_pos hv, if_pos (decide_eq_true hv), List.map_cons, ← ih (v + 1) (i + 1)]
      rfl
    · rw [if_neg hv, if_neg (by simpa using hv)]
      exact ih _ _

theorem length_leafItems (x : List Byte) : 2 ≤ (leafItems x).length ∧ (leafItems x).length ≤ 256 := by
  have hreal : (realLeaves x 0 256 0).length ≤ 256 := by
    rw [realLeaves, List.length_map, List.length_zipIdx]
    exact (List.length_filter_le _ _).trans (Nat.le_of_eq List.length_range')
  rw [leafItems_eq, List.length_append, dummyLeaves, List.length_map, List.length_range]
  omega

/-- The leaves of the built tree are the leaves it was built from. -/
theorem buildTree_leaves (x : List Byte) : (buildTree x).leaves.Perm (itemLeaves (leafItems x)) := by
  have hlen := length_leafItems x
  obtain ⟨hperm, hone⟩ := mergeItems_leaves (n := (leafItems x).length - 1) (m := (leafItems x).length)
    (items := leafItems x) (by omega)
  obtain ⟨a, ha⟩ := List.length_eq_one_iff.1 (hone.trans (by omega))
  have htree : buildTree x = a.tree := by
    rw [buildTree, ha]
  rw [ha] at hperm
  rw [htree]
  simpa [itemLeaves] using hperm

theorem mem_buildTree_leaves {x : List Byte} {b : Byte} (h : b ∈ x) : b ∈ (buildTree x).leaves := by
  rw [(buildTree_leaves x).mem_iff, leafItems_eq, itemLeaves, List.flatMap_append, List.mem_append]
  left
  show b ∈ itemLeaves _
  rw [realLeaves_leaves, List.mem_map]
  have hcount : 0 < countOf x b.toNat := by
    rw [countOf, BitVec.ofNat_toNat, BitVec.setWidth_eq]
    exact List.count_pos_iff.2 h
  refine ⟨b.toNat, List.mem_filter.2 ⟨?_, decide_eq_true hcount⟩, by rw [BitVec.ofNat_toNat, BitVec.setWidth_eq]⟩
  rw [List.mem_range'_1]
  exact ⟨Nat.zero_le _, b.isLt⟩

/-- A built tree has at most 256 leaves, and so its codes fit the code table (R144, R181). -/
theorem buildTree_depth (x : List Byte) : (buildTree x).depth ≤ Config.codeMaxLen := by
  have hsingle : ∀ a ∈ leafItems x, a.tree.leaves.length = 1 := fun a ha => by
    rw [leafItems_eq, List.mem_append, realLeaves, dummyLeaves, List.mem_map, List.mem_map] at ha
    rcases ha with ⟨p, -, rfl⟩ | ⟨j, -, rfl⟩ <;> rfl
  have hlen : (buildTree x).leaves.length = (leafItems x).length := by
    rw [(buildTree_leaves x).length_eq, itemLeaves, List.length_flatMap,
      List.map_congr_left hsingle, List.map_const', List.sum_replicate]
    simp
  have hdepth := (buildTree x).depth_lt_leaves
  have hle := (length_leafItems x).2
  rw [Config.codeMaxLen]
  omega

end Sys2Proof.Machine

namespace Sys2Proof.Machine

/-! ## Family 20_memory: the accesses of COMPRESS (R225, R226) -/

/-- One byte more is counted (R141). -/
theorem Counts.snoc {x : List Byte} {e : Engine} (h : Counts x e) (b : Byte) : Counts (x ++ [b]) (e.count b) := by
  intro c
  rw [List.count_append, List.count_singleton]
  show (e.freq.set b.toNat _ b.isLt)[c.toNat]'c.isLt = _
  by_cases hbc : b = c
  · subst hbc
    rw [Vector.getElem_set_self, h b, beq_self_eq_true, if_pos rfl, BitVec.ofNat_add]
    rfl
  · have hne : b.toNat ≠ c.toNat := fun heq => hbc (BitVec.eq_of_toNat_eq heq)
    rw [Vector.getElem_set_ne _ _ hne, h c, if_neg (by simpa using hbc), Nat.add_zero]

/-- The code table gives each of these bytes its code in the tree (R180). -/
def Codes (tree : HuffTree) (x : List Byte) (e : Engine) : Prop :=
  ∀ b ∈ x, (e.codeEntry b).valid = true ∧ (e.codeEntry b).bits = (tree.code b).getD []

/-- The table that Derive stores for a built tree gives every source byte its code (R180, R183). -/
theorem codes_setCodes (x : List Byte) (e : Engine) :
    Codes (buildTree x) x (e.setCodes ((buildTree x).leafPaths [])) := by
  intro b hb
  obtain ⟨p, hp, hlen⟩ := HuffTree.code_of_mem_leaves (mem_buildTree_leaves hb)
  have hentry : (e.setCodes ((buildTree x).leafPaths [])).codeEntry b = .ofPath p := by
    rw [codeEntry_setCodes, ← HuffTree.code, hp]
    rfl
  rw [hentry, hp]
  exact ⟨rfl, CodeEntry.ofPath_bits (hlen.trans (buildTree_depth x))⟩

/-- The arena holds the tree that BuildTree gives. -/
def HoldsTree (x : List Byte) (e : Engine) : Prop := ∃ n, e.Holds 0 n (buildTree x) e.root

theorem HoldsTree.of_same {x : List Byte} {d e : Engine} (h : HoldsTree x d) (hnode : e.node = d.node)
    (hroot : e.root = d.root) : HoldsTree x e := by
  obtain ⟨n, hn⟩ := h
  refine ⟨n, ?_⟩
  rw [hroot]
  exact hn.of_node hnode

theorem compressPhase_cCount {s : State} (h : s.phase = .cCount) : compressPhase s = cCount s := by
  rw [compressPhase, h]

theorem compressPhase_cBuild {s : State} (h : s.phase = .cBuild) : compressPhase s = cBuild s := by
  rw [compressPhase, h]

theorem compressPhase_cHeader {s : State} (h : s.phase = .cHeader) : compressPhase s = cHeader s := by
  rw [compressPhase, h]

theorem compressPhase_cTree {s : State} (h : s.phase = .cTree) : compressPhase s = cTree s := by
  rw [compressPhase, h]

theorem compressPhase_cDerive {s : State} (h : s.phase = .cDerive) : compressPhase s = cDerive s := by
  rw [compressPhase, h]

theorem compressPhase_cEncode {s : State} (h : s.phase = .cEncode) : compressPhase s = cEncode s := by
  rw [compressPhase, h]

theorem compressPhase_cFlush {s : State} (h : s.phase = .cFlush) : compressPhase s = cFlush s := by
  rw [compressPhase, h]

section Phases

variable {β : Type} {s t : State} {k p : Nat} {more : List BusAnswer} (hargs : s.ctx.args.wf = true)
include hargs

/-- The counting loop reads the bytes left and counts them (R141). -/
theorem makes_countLoop (n : Nat) (h : BeforeError s k more t) (hn : t.eng.k.toNat + n = s.ctx.len.toNat)
    (hcounts : Counts ((s.ctx.srcBytes s.mem).take t.eng.k.toNat) t.eng) :
    Makes s k more ((List.range' t.eng.k.toNat n).map .read) (countLoop n t)
      (fun _ u => Counts (s.ctx.srcBytes s.mem) u.eng) := by
  induction n generalizing t k with
  | zero =>
    refine .ok h ?_
    rwa [List.take_of_length_le (by rw [srcBytes_length]; omega)] at hcounts
  | succ n ih =>
    have hnext := toNat_add_one_of_lt (v := t.eng.k) (n := s.ctx.len) (by omega)
    rw [List.range'_succ, List.map_cons, ← List.singleton_append, countLoop]
    refine (makes_getByte hargs h (by omega)).bind fun b u hu hQ => ?_
    obtain ⟨hb, heng⟩ := hQ
    have hk : (u.setEng { u.eng.count b with k := u.eng.k + 1 }).eng.k.toNat = t.eng.k.toNat + 1 := by
      rw [← hnext, ← heng]
      rfl
    have hloop := ih (t := u.setEng { u.eng.count b with k := u.eng.k + 1 }) (hu.setEng _) (by rw [hk]; omega) (by
      rw [hk, List.take_add_one, hb, State.setEng_eng, heng]
      exact hcounts.snoc b)
    rwa [hk] at hloop

/-- The encoding loop reads each byte left and writes the output bytes its code completes (R185), the flush after it
writes the partial byte. -/
theorem encodeLoop_fails {tree : HuffTree} {rest : List Byte} {f : Unit → State → Res β} (h : BeforeError s k more t)
    (hw : WriterAt p t.eng.w) (hrest : (s.ctx.srcBytes s.mem).drop t.eng.k.toNat = rest)
    (hcodes : Codes tree (s.ctx.srcBytes s.mem) t.eng)
    (hf : ∀ k' p' u, BeforeError s k' more u → WriterAt p' u.eng.w →
      Fails s k' more (writesBetween (p' / 8) ((p' + 7) / 8)) (f () u)) :
    Fails s k more (encodeAccesses tree rest t.eng.k.toNat p) ((encodeLoop rest.length t).bind f) := by
  induction rest generalizing t k p with
  | nil => exact hf k p t h hw
  | cons b rest ih =>
    have hlt : t.eng.k.toNat < s.ctx.len.toNat := by
      rw [← srcBytes_length s.ctx s.mem]
      exact Nat.lt_of_not_le fun hle => by
        rw [List.drop_of_length_le hle] at hrest
        cases hrest
    have hnext := toNat_add_one_of_lt (v := t.eng.k) (n := s.ctx.len) (by omega)
    have hdrop : (s.ctx.srcBytes s.mem).drop (t.eng.k.toNat + 1) = rest := by
      rw [← List.drop_drop, hrest, List.drop_one, List.tail_cons]
    have hhead : (s.ctx.srcBytes s.mem)[t.eng.k.toNat]? = some b := by
      rw [← List.head?_drop, hrest]
      rfl
    rw [encodeAccesses, ← List.singleton_append, List.length_cons, encodeLoop, Res.bind_assoc]
    refine (makes_getByte hargs h hlt).bind_fails fun c u hu hQ => ?_
    obtain ⟨hc, heng⟩ := hQ
    obtain rfl : b = c := Option.some_inj.1 (hhead.symm.trans hc)
    obtain ⟨hvalid, hbits⟩ := hcodes b (List.mem_of_getElem? hhead)
    rw [← heng] at hvalid hbits hw
    rw [if_pos hvalid, Res.bind_assoc, ← hbits]
    refine (makes_writeString hargs hu hw _).bind_fails fun _ v hv hQ => ?_
    obtain ⟨hwv, honly⟩ := hQ
    have hk : (v.setK (v.eng.k + 1)).eng.k.toNat = t.eng.k.toNat + 1 := by
      rw [State.setK_eng, honly, heng]
      exact hnext
    have hloop := ih (t := v.setK (v.eng.k + 1)) (hv.setEng _) hwv (by rw [hk, hdrop]) fun b hb => by
      have htable : (v.setK (v.eng.k + 1)).eng.codeEntry b = t.eng.codeEntry b := by
        rw [State.setK_eng, honly, heng]
        rfl
      rw [htable]
      exact hcodes b hb
    rwa [hk] at hloop

/-- Phase C_COUNT reads every source byte and leaves their counts. -/
theorem makes_cCount (h : BeforeError s k more t) :
    Makes s k more ((List.range s.ctx.len.toNat).map .read) (cCount t)
      (fun _ u => u.phase = .cBuild ∧ Counts (s.ctx.srcBytes s.mem) u.eng) := by
  rw [cCount, h.kept.ctx, List.range_eq_range']
  refine (makes_countLoop hargs s.ctx.len.toNat
    (t := t.setEng { t.eng with freq := .replicate 256 0, k := 0 }) (h.setEng _) (Nat.zero_add _) fun b => ?_).map
    fun _ u k' hu hcounts => .ok (hu.setPhase _) ⟨rfl, hcounts⟩
  simp

omit hargs in
/-- Phase C_BUILD makes no access and leaves the tree in the arena. -/
theorem makes_cBuild (h : BeforeError s k more t) (hcounts : Counts (s.ctx.srcBytes s.mem) t.eng) :
    Makes s k more [] (cBuild t) (fun _ u => u.phase = .cHeader ∧ HoldsTree (s.ctx.srcBytes s.mem) u.eng) := by
  obtain ⟨e, he, htree⟩ := buildArena_holds (by rw [srcBytes_length]; exact s.ctx.len.isLt) hcounts
  rw [cBuild, he]
  exact .ok ((h.setEng _).setPhase _) ⟨rfl, _, htree⟩

/-- Phase C_HEADER writes the four bytes of the length. -/
theorem makes_cHeader {x : List Byte} (h : BeforeError s k more t) (htree : HoldsTree x t.eng) :
    Makes s k more (writesBetween 0 4) (cHeader t)
      (fun _ u => u.phase = .cTree ∧ WriterAt 32 u.eng.w ∧ HoldsTree x u.eng) := by
  have hstring := makes_writeString hargs (p := 0) (t := wInit t) (h.setEng _) ⟨rfl, rfl⟩
    (bitsOf Config.hdrW t.ctx.len.toNat)
  rw [bitsOf_length, Config.hdrW] at hstring
  refine hstring.map fun _ u k' hu hQ => .ok (hu.setPhase _) ?_
  obtain ⟨hw, honly⟩ := hQ
  refine ⟨rfl, hw, htree.of_same ?_ ?_⟩ <;> rw [State.setPhase_eng, honly, wInit_eng]

/-- Phase C_TREE writes the bytes that the bits of the tree complete. -/
theorem makes_cTree {x : List Byte} (h : BeforeError s k more t) (hw : WriterAt 32 t.eng.w)
    (htree : HoldsTree x t.eng) :
    Makes s k more (writesBetween 4 ((32 + (buildTree x).serialize.length) / 8)) (cTree t)
      (fun _ u => u.phase = .cDerive ∧ WriterAt (32 + (buildTree x).serialize.length) u.eng.w ∧ HoldsTree x u.eng) := by
  have hdepth := buildTree_depth x
  obtain ⟨n, hn⟩ := htree
  refine (makes_serNode hargs h hw hn (Nat.lt_of_le_of_lt hdepth (by decide))).map
    fun _ u k' hu hQ => .ok (hu.setPhase _) ?_
  obtain ⟨hw', honly⟩ := hQ
  refine ⟨rfl, hw', HoldsTree.of_same ⟨n, hn⟩ ?_ ?_⟩ <;> rw [State.setPhase_eng, honly]

omit hargs in
/-- Phase C_DERIVE makes no access and leaves the code table. -/
theorem makes_cDerive {x : List Byte} (h : BeforeError s k more t) (hw : WriterAt p t.eng.w)
    (htree : HoldsTree x t.eng) :
    Makes s k more [] (cDerive t)
      (fun _ u => u.phase = .cEncode ∧ WriterAt p u.eng.w ∧ Codes (buildTree x) x u.eng) := by
  have hdepth := buildTree_depth x
  obtain ⟨n, hn⟩ := htree
  rw [cDerive, derive_of_holds (e := t.eng.clearCodes) (hn.of_node rfl) (Nat.lt_of_le_of_lt hdepth (by decide))]
  refine .ok ((h.setEng _).setPhase _) ⟨rfl, ?_, codes_setCodes x _⟩
  rw [State.setPhase_eng, State.setEng_eng, setCodes_eq]
  exact hw

omit hargs in
/-- After a phase that leads to another, the next phases run. -/
theorem Makes.runPhases_fails {phase : State → Res Unit} {n : Nat} {q : Phase} {l l' : List Access} {Q : State → Prop}
    (hx : Makes s k more l (phase t) fun _ u => u.phase = q ∧ Q u) (hq : q ≠ .idle)
    (hf : ∀ u, BeforeError s (k - l.length) more u → u.phase = q → Q u →
      Fails s (k - l.length) more l' (runPhases phase n u)) :
    Fails s k more (l ++ l') (runPhases phase (n + 1) t) := by
  rw [runPhases]
  refine hx.bind_fails fun _ u hu hQ => ?_
  obtain ⟨hphase, hQ⟩ := hQ
  rw [if_neg (by rwa [hphase])]
  exact hf u hu hphase hQ

/-- Phases C_ENCODE and C_FLUSH. -/
theorem encode_fails {tree : HuffTree} {n : Nat} (h : BeforeError s k more t) (hphase : t.phase = .cEncode)
    (hw : WriterAt p t.eng.w) (hcodes : Codes tree (s.ctx.srcBytes s.mem) t.eng) :
    Fails s k more (encodeAccesses tree (s.ctx.srcBytes s.mem) 0 p) (runPhases compressPhase (n + 2) t) := by
  rw [runPhases, compressPhase_cEncode hphase, cEncode, Res.bind_assoc, h.kept.ctx, ← srcBytes_length s.ctx s.mem]
  refine encodeLoop_fails hargs (t := t.setK 0) (h.setEng _) hw rfl hcodes fun k' p' u hu hw' => ?_
  rw [Res.bind_ok, runPhases_setPhase (by decide), runPhases, compressPhase_cFlush rfl, cFlush, Res.bind_assoc]
  exact (makes_flush hargs (t := u.setPhase .cFlush) (hu.setPhase _) hw').fails.bind

/-- The phases of COMPRESS make its accesses in program order (R225). -/
theorem compress_fails (h : BeforeError s k more s) (hphase : s.phase = .cCount) :
    Fails s k more (compressAccesses (s.ctx.srcBytes s.mem)) (runPhases compressPhase mostPhases s) := by
  rw [compressAccesses, srcBytes_length]
  rw [← writesBetween_append (p := 0) (q := 4) (by omega) (by omega), List.append_assoc]
  refine Makes.runPhases_fails (q := .cBuild) (by
    rw [compressPhase_cCount hphase]; exact makes_cCount hargs h) (by decide) fun t1 h1 hp1 hcounts => ?_
  rw [← List.nil_append (writesBetween 0 4 ++ _)]
  refine Makes.runPhases_fails (q := .cHeader) (by
    rw [compressPhase_cBuild hp1]; exact makes_cBuild h1 hcounts) (by decide) fun t2 h2 hp2 htree => ?_
  refine Makes.runPhases_fails (q := .cTree) (by
    rw [compressPhase_cHeader hp2]; exact makes_cHeader hargs h2 htree) (by decide) fun t3 h3 hp3 hQ => ?_
  obtain ⟨hw3, htree⟩ := hQ
  refine Makes.runPhases_fails (q := .cDerive) (by
    rw [compressPhase_cTree hp3]; exact makes_cTree hargs h3 hw3 htree) (by decide) fun t4 h4 hp4 hQ => ?_
  obtain ⟨hw4, htree⟩ := hQ
  rw [← List.nil_append (encodeAccesses _ _ _ _)]
  refine Makes.runPhases_fails (q := .cEncode) (by
    rw [compressPhase_cDerive hp4]; exact makes_cDerive h4 hw4 htree) (by decide) fun t5 h5 hp5 hQ => ?_
  exact encode_fails hargs h5 hp5 hQ.1 hQ.2

end Phases

/-- The accesses of COMPRESS. -/
theorem compress_endsInError {s : State} {k : Nat} {more : List BusAnswer} (hrun : Running .compress s)
    (hp : s.phase = .cCount) (hlat : s.env.latencyLeft = 1)
    (hanswers : s.env.answers = List.replicate k .ok ++ .busErr :: more) :
    EndsInError s k more (compressAccesses (s.ctx.srcBytes s.mem)) (exec .compress s) := by
  have hexec : exec .compress s = finish compressPhase mostPhases s := exec_lastStep hrun.busy hlat
  rw [hexec, finish_eq]
  exact (compress_fails hrun.args (.start hanswers) hp).endsInError

/-- The accesses of the counting pass come first. -/
theorem compressAccesses_count {x : List Byte} {k : Nat} (hk : k < x.length) :
    ∃ rest, compressAccesses x = (List.range k).map .read ++ .read k :: rest := by
  obtain ⟨n, hn⟩ : ∃ n, x.length = k + (n + 1) := ⟨x.length - k - 1, by omega⟩
  rw [compressAccesses, hn, List.range_eq_range', ← List.range'_append_1, Nat.zero_add, List.range'_succ,
    ← List.range_eq_range', List.map_append, List.append_assoc]
  exact ⟨_, rfl⟩

/-- The bytes of the header are written next. -/
theorem compressAccesses_header {x : List Byte} {j : Nat} (hj : j < 4) :
    ∃ rest, compressAccesses x = ((List.range x.length).map .read ++ writesBetween 0 j) ++ .write j :: rest := by
  rw [compressAccesses]
  rw [writesBetween_split (Nat.zero_le j) (by omega)]
  simp only [List.append_assoc, List.cons_append]
  exact ⟨_, rfl⟩

/-- Settles O32: COMPRESS makes the accesses of its program order, phase by phase. -/
theorem compressFirstBusError : Obligations.CompressFirstBusError := by
  unfold Obligations.CompressFirstBusError
  intro s k more hrun hp hlat hanswers
  have hend := compress_endsInError hrun hp hlat hanswers
  have hlen := srcBytes_length s.ctx s.mem
  refine ⟨hend, fun hk => ?_, fun j hk hj hcap => ?_⟩
  · obtain ⟨rest, hrest⟩ := compressAccesses_count (x := s.ctx.srcBytes s.mem) (hk.trans_eq hlen.symm)
    rw [hrest] at hend
    obtain ⟨t, ht, hsame, hends, -⟩ := hend.at (by simp) (.reads _) rfl
    exact ⟨t, ht, hsame, hends⟩
  · obtain ⟨rest, hrest⟩ := compressAccesses_header (x := s.ctx.srcBytes s.mem) hj
    rw [hrest] at hend
    obtain ⟨t, ht, hsame, hends, -⟩ := hend.at (by simp [hlen, hk, writesBetween])
      (.append (.reads _) (.writesBetween (Nat.le_of_lt hcap))) ((Access.fits_write _ _).2 hcap)
    exact ⟨t, ht, hsame, hends⟩

end Sys2Proof.Machine

namespace Sys2Proof.Machine

/-! ## Family 30_encoding: the decoder of command words (R90 to R93) and the rejection of an illegal one -/

/-! ### The words that decode (spec/30_encoding.md R91 to R93) -/

section CommandWords

variable {w : Word} {i : Instr}

/-- The opcodes of R91, and no others, name commands. -/
theorem decodeOp_eq_some_iff {op : Byte} : decodeOp op = some i ↔ op = i.op := by
  refine ⟨fun h => ?_, fun h => h ▸ decodeOp_op i⟩
  unfold decodeOp at h
  split_ifs at h with h1 h2 h3 <;> cases h
  · exact h1
  · exact h2
  · exact h3

theorem decodeOp_eq_none_iff {op : Byte} : decodeOp op = none ↔ ¬(op = 0x01#8 ∨ op = 0x02#8 ∨ op = 0x03#8) := by
  unfold decodeOp
  split_ifs with h1 h2 h3 <;> simp [*]

/-- The opcode check comes first (R93). -/
theorem decodeCmd_of_decodeOp_none (h : decodeOp (cmdOp w) = none) : decodeCmd w = .error .argOpcode := by
  rw [decodeCmd, h]

/-- Under a legal opcode the reserved bits decide (R92). -/
theorem decodeCmd_of_op (h : cmdOp w = i.op) :
    decodeCmd w = if cmdRsvd w = 0#24 then .ok i else .error .argReserved := by
  rw [decodeCmd, h, decodeOp_op]

/-- The two fields of R90 make up the word. -/
theorem cmdRsvd_append_cmdOp (w : Word) : cmdRsvd w ++ cmdOp w = w := by
  rw [cmdRsvd, cmdOp, BitVec.extractLsb'_append_extractLsb'_eq_extractLsb' (by rfl)]
  exact BitVec.extractLsb'_eq_self

@[simp] theorem cmdOp_encode (i : Instr) : cmdOp (encode i) = i.op := by cases i <;> rfl

@[simp] theorem cmdRsvd_encode (i : Instr) : cmdRsvd (encode i) = 0#24 := by cases i <;> rfl

/-- A word decodes to a command exactly when it is the word the encoder gives for it. -/
theorem decodeCmd_eq_ok_iff : decodeCmd w = .ok i ↔ w = encode i := by
  constructor
  · intro h
    cases hop : decodeOp (cmdOp w) with
    | none => simp [decodeCmd_of_decodeOp_none hop] at h
    | some j =>
      rw [decodeOp_eq_some_iff] at hop
      rw [decodeCmd_of_op hop] at h
      split_ifs at h with hrsvd
      cases h
      rw [← cmdRsvd_append_cmdOp w, hrsvd, hop, encode]
  · rintro rfl
    rw [decodeCmd_of_op (cmdOp_encode i), if_pos (cmdRsvd_encode i)]

/-- A number of 32 bits is read as the word it is. -/
theorem decodeTableWord_of_decodeCmd (h : decodeCmd w = .ok i) : decodeTableWord 32 w.toNat = some i := by
  have hlt : w.toNat % 2 ^ 32 = w.toNat := Nat.mod_eq_of_lt w.isLt
  rw [decodeTableWord, hlt, if_pos w.isLt, BitVec.ofNat_toNat, BitVec.setWidth_eq, h]

end CommandWords

/-- Settles O1: a legal OP is some command's, and by `decodeCmd_eq_ok_iff` the words that decode are the encoder's. -/
theorem exactlyThreeWordsDecode : Obligations.ExactlyThreeWordsDecode := by
  unfold Obligations.ExactlyThreeWordsDecode
  refine ⟨fun w => ?_, fun w => ?_⟩
  · rw [← cmdOp, ← cmdRsvd]
    cases hop : decodeOp (cmdOp w) with
    | none => rw [decodeCmd_of_decodeOp_none hop, if_pos (decodeOp_eq_none_iff.1 hop)]
    | some i =>
      rw [decodeOp_eq_some_iff] at hop
      rw [decodeCmd_of_op hop, hop]
      cases i <;> simp [Instr.op, ite_not]
  · simp only [decodeCmd_eq_ok_iff]
    constructor
    · rintro ⟨i, rfl⟩
      cases i <;> decide
    · rintro (rfl | rfl | rfl)
      · exact ⟨.compress, rfl⟩
      · exact ⟨.decompress, rfl⟩
      · exact ⟨.dumpbits, rfl⟩

/-- Settles O2: the table's words are the encoder's, and each of the others fails its check of R93. -/
theorem tableWordsDecode : Obligations.TableWordsDecode := by
  unfold Obligations.TableWordsDecode
  have decode_encode (i : Instr) : decodeCmd (encode i) = .ok i := decodeCmd_eq_ok_iff.2 rfl
  refine ⟨decode_encode .compress, decode_encode .decompress, decode_encode .dumpbits,
    decodeCmd_of_decodeOp_none rfl, decodeCmd_of_decodeOp_none rfl, ?_,
    fun i => ⟨decode_encode i, decodeTableWord_of_decodeCmd (decode_encode i)⟩⟩
  rw [decodeCmd_of_op (i := .compress) rfl, if_neg (by decide)]

/-- Settles O7: the CMD write of R23 on an idle block, by error entry with the word (R252, R256). -/
theorem illegalWordIsRejected : Obligations.IllegalWordIsRejected := by
  unfold Obligations.IllegalWordIsRejected
  intro s m rest w e hb hi hm hd
  rw [step_of_writesCmd hi hm, cmdWrite]
  simp only [State.respond_regs, State.setInputs_regs, hb, hd]
  cases e <;> rfl

/-! ## Family 30_encoding: the length of the container (R97, R99 to R101) -/

namespace HuffTree

theorem length_leaves (t : HuffTree) : t.leaves.length = t.leafCount := by
  induction t with
  | leaf v => rfl
  | node l r ihl ihr => rw [leaves, List.length_append, ihl, ihr, leafCount]

theorem leafCount_pos (t : HuffTree) : 0 < t.leafCount := by
  induction t with
  | leaf v => exact Nat.zero_lt_one
  | node l r ihl ihr => rw [leafCount]; omega

/-- A leaf takes 9 bits, and each of the nodes above, one fewer than the leaves, takes 1 (R97). -/
theorem length_serialize (t : HuffTree) : t.serialize.length = 10 * t.leafCount - 1 := by
  induction t with
  | leaf v => rw [serialize, List.length_cons, bitsOf_length, leafCount]
  | node l r ihl ihr =>
    have hl := l.leafCount_pos
    have hr := r.leafCount_pos
    rw [serialize, List.length_cons, List.length_append, ihl, ihr, leafCount]
    omega

end HuffTree

/-- The leaves that a tree is built from are its leaves (R142, R143, R145). -/
theorem leafCount_buildTree (x : List Byte) : (buildTree x).leafCount = (leafItems x).length := by
  have hsingle : ∀ a ∈ leafItems x, a.tree.leaves.length = 1 := fun a ha => by
    rw [leafItems_eq, List.mem_append, realLeaves, dummyLeaves, List.mem_map, List.mem_map] at ha
    rcases ha with ⟨p, -, rfl⟩ | ⟨j, -, rfl⟩ <;> rfl
  rw [← HuffTree.length_leaves, (buildTree_leaves x).length_eq, itemLeaves, List.length_flatMap,
    List.map_congr_left hsingle, List.map_const', List.sum_replicate, smul_eq_mul, Nat.mul_one]

/-- The container before padding: the header, the tree's tokens and the payload (R94, R95). -/
theorem length_containerBits (x : List Byte) :
    (containerBits x).length = 32 + (10 * (buildTree x).leafCount - 1 + (payload (buildTree x) x).length) := by
  rw [containerBits, List.length_append, List.length_append, bitsOf_length, HuffTree.length_serialize]

/-- Settles O50: the bits of the container in whole bytes, of which the tree alone fills three, having two leaves or
more. -/
theorem containerLength : Obligations.ContainerLength := by
  unfold Obligations.ContainerLength
  intro x
  have hleaves : 2 ≤ (buildTree x).leafCount := (leafCount_buildTree x).symm ▸ (length_leafItems x).1
  rw [compressBytes, bytesOfBits_length, length_containerBits]
  omega

end Sys2Proof.Machine

namespace Sys2Proof.Machine

/-! ## Family 40_bitstream: the bits of whole bytes (R96, R100, R226) -/

/-- Byte `j` of the bytes that hold a bit string (R226). -/
def byteAt (p : Bits) (j : Nat) : Byte := byteOfBits fun i => p.getD (8 * j + i) false

theorem bytesOfBits_eq_map_byteAt (p : Bits) : bytesOfBits p = (List.range ((p.length + 7) / 8)).map (byteAt p) := rfl

theorem getLsbD_byteAt (p : Bits) (n : Nat) : (byteAt p (n / 8)).getLsbD (7 - n % 8) = p.getD n false := by
  rw [byteAt, byteOfBits_getLsbD _ (Nat.mod_lt n (by decide)), Nat.div_add_mod]

theorem byteOfBits_congr {f g : Nat → Bool} (h : ∀ i < 8, f i = g i) : byteOfBits f = byteOfBits g := by
  rw [byteOfBits, byteOfBits, h 0, h 1, h 2, h 3, h 4, h 5, h 6, h 7] <;> decide

/-- Past the string there is only padding. -/
theorem byteAt_of_length_le {p : Bits} {j : Nat} (h : p.length ≤ 8 * j) : byteAt p j = 0 :=
  byteOfBits_congr fun i _ => List.getD_eq_default _ _ (by omega)

/-- A whole byte of a string stays as the string grows. -/
theorem byteAt_append {p : Bits} {j : Nat} (h : j < p.length / 8) (q : Bits) : byteAt (p ++ q) j = byteAt p j :=
  byteOfBits_congr fun i hi => List.getD_append _ _ _ _ (by omega)

/-- Bit `n` of the bytes that hold a string is bit `n` of the string, or padding. -/
theorem getElem?_bitsOfBytes_bytesOfBits {p : Bits} {n : Nat} (h : n < 8 * ((p.length + 7) / 8)) :
    (bitsOfBytes (bytesOfBits p))[n]? = some (p.getD n false) := by
  have hbyte : (bytesOfBits p)[n / 8]? = some (byteAt p (n / 8)) := by
    rw [bytesOfBits_eq_map_byteAt, List.getElem?_map, List.getElem?_range (by omega), Option.map_some]
  rw [getElem?_bitsOfBytes hbyte, getLsbD_byteAt]

/-- Settles O40: both sides have eight bits a byte, and bit by bit they are the string and then padding. -/
theorem packedBitsReadBack : Obligations.PackedBitsReadBack := by
  unfold Obligations.PackedBitsReadBack
  intro bits
  refine ⟨bytesOfBits_length bits, List.ext_getElem? fun n => ?_⟩
  rcases Nat.lt_or_ge n (8 * ((bits.length + 7) / 8)) with hn | hn
  · rw [getElem?_bitsOfBytes_bytesOfBits hn]
    rcases Nat.lt_or_ge n bits.length with hin | hpad
    · rw [List.getElem?_append_left hin, List.getD_eq_getElem _ _ hin, List.getElem?_eq_getElem hin]
    · rw [List.getElem?_append_right hpad, List.getD_eq_default _ _ hpad, List.getElem?_replicate, if_pos (by omega)]
  · rw [List.getElem?_eq_none (by simpa using hn), List.getElem?_eq_none (by simp; omega)]

/-! ## Family 40_bitstream: accesses that are answered `Ok` -/

/-- The state with so many of the settled answers taken. -/
def State.skipAnswers (n : Nat) (s : State) : State := { s with env := { s.env with answers := s.env.answers.drop n } }

theorem State.skipAnswers_zero (s : State) : s.skipAnswers 0 = s := rfl

theorem State.skipAnswers_skipAnswers (m n : Nat) (s : State) :
    (s.skipAnswers m).skipAnswers n = s.skipAnswers (m + n) := by
  simp [skipAnswers]

theorem AnswersOk.mono {m n : Nat} {s : State} (h : AnswersOk n s) (hm : m ≤ n) : AnswersOk m s := by
  have htake := congrArg (List.take m) h
  rwa [List.take_take, List.take_replicate, Nat.min_eq_left hm] at htake

theorem AnswersOk.skipAnswers {n : Nat} {s : State} (h : AnswersOk n s) (m : Nat) :
    AnswersOk (n - m) (s.skipAnswers m) := by
  have hdrop := congrArg (List.drop m) h
  rwa [List.drop_take, List.drop_replicate] at hdrop

theorem nextAnswer_of_answersOk {n : Nat} {s : State} (h : AnswersOk n s) (hn : 0 < n) :
    nextAnswer s = (.ok, s.skipAnswers 1) := by
  obtain ⟨n, rfl⟩ : ∃ m, n = m + 1 := ⟨n - 1, by omega⟩
  rw [AnswersOk] at h
  cases hs : s.env.answers with
  | nil => simp [hs] at h
  | cons x xs =>
    rw [hs, List.take_succ_cons, List.replicate_succ, List.cons.injEq] at h
    rw [nextAnswer_cons hs, h.1, State.skipAnswers, hs, List.drop_one, List.tail_cons]

/-! ## Family 40_bitstream: the writer (R121 to R125) -/

theorem writeBytes_concat (m : Memory) (a : Nat) (l : List Byte) (v : Byte) :
    writeBytes m a (l ++ [v]) = (writeBytes m a l).write (a + l.length) v := by
  induction l generalizing m a with
  | nil => rfl
  | cons b l ih =>
    rw [List.cons_append, writeBytes, ih, writeBytes, List.length_cons]
    congr 1
    omega

theorem sameOutside_writeBytes (m : Memory) (a : Nat) (l : List Byte) :
    SameOutside a l.length m (writeBytes m a l) := fun x hx => by
  rw [read_writeBytes, dif_neg hx]

/-- The state `s` with these bytes written from the start of the window on, and so many bits of `acc` waiting. -/
def State.withOutput (s : State) (out : List Byte) (acc : Byte) (cnt : BitVec 3) : State :=
  (s.setMem (writeBytes s.mem s.ctx.dst.toNat out)).setWriter ⟨acc, cnt, BitVec.ofNat 32 out.length⟩

@[simp] theorem State.withOutput_ctx (s : State) (out : List Byte) (acc : Byte) (cnt : BitVec 3) :
    (s.withOutput out acc cnt).ctx = s.ctx := rfl
@[simp] theorem State.withOutput_writer (s : State) (out : List Byte) (acc : Byte) (cnt : BitVec 3) :
    (s.withOutput out acc cnt).eng.w = ⟨acc, cnt, BitVec.ofNat 32 out.length⟩ := rfl
@[simp] theorem State.withOutput_mem (s : State) (out : List Byte) (acc : Byte) (cnt : BitVec 3) :
    (s.withOutput out acc cnt).mem = writeBytes s.mem s.ctx.dst.toNat out := rfl

/-- The bytes that a bit string fills. -/
def wholeBytes (p : Bits) : List Byte := (List.range (p.length / 8)).map (byteAt p)

@[simp] theorem length_wholeBytes (p : Bits) : (wholeBytes p).length = p.length / 8 := by simp [wholeBytes]

/-- The state `s` with a bit string written from the start of the window on: the bytes it fills are out, the bits of
the next one wait (R123). -/
def State.packed (s : State) (p : Bits) : State :=
  s.withOutput (wholeBytes p) (byteAt p (p.length / 8)) (BitVec.ofNat 3 p.length)

theorem State.packed_nil {s : State} (h : s.eng.w = ⟨0, 0, 0⟩) : s.packed [] = s := by
  show { s with eng := { s.eng with w := ⟨0, 0, 0⟩ } } = s
  rw [← h]

theorem State.packed_cnt (s : State) (p : Bits) : (s.packed p).eng.w.cnt = BitVec.ofNat 3 p.length := rfl

/-- The bit goes to its place in a byte where that place is free (R123). -/
theorem byteOfBits_or_bit {f : Nat → Bool} {c : Nat} (hc : c < 8) (hf : f c = false) (b : Bool) :
    byteOfBits f ||| ((BitVec.ofBool b).setWidth 8 <<< (7 - c)) = byteOfBits fun i => if i = c then b else f i := by
  refine BitVec.eq_of_getLsbD_eq fun j hj => ?_
  obtain ⟨i, hi, rfl⟩ : ∃ i < 8, j = 7 - i := ⟨7 - j, by omega, by omega⟩
  rw [BitVec.getLsbD_or, byteOfBits_getLsbD _ hi, byteOfBits_getLsbD _ hi, BitVec.getLsbD_shiftLeft,
    BitVec.getLsbD_setWidth, BitVec.getLsbD_ofBool]
  rcases Nat.lt_trichotomy i c with h | rfl | h
  · have : 7 - i - (7 - c) ≠ 0 := by omega
    simp [Nat.ne_of_lt h, this]
  · simp [hf, hj]
  · have : 7 - i < 7 - c := by omega
    simp [Nat.ne_of_gt h, this]

/-- One bit more in the byte that is being filled. -/
theorem push_byteAt (p : Bits) (b : Bool) (pos : Word) :
    Writer.push ⟨byteAt p (p.length / 8), BitVec.ofNat 3 p.length, pos⟩ b = byteAt (p ++ [b]) (p.length / 8) := by
  have hmod : p.length % 8 < 8 := Nat.mod_lt _ (by decide)
  rw [Writer.push, BitVec.toNat_ofNat, byteAt,
    byteOfBits_or_bit hmod (List.getD_eq_default _ _ (by omega))]
  refine byteOfBits_congr fun i hi => ?_
  split
  · next hlast =>
    rw [hlast, Nat.div_add_mod, List.getD_append_right _ _ _ _ (Nat.le_refl _), Nat.sub_self, List.getD_cons_zero]
  · next hother =>
    rcases Nat.lt_or_ge (8 * (p.length / 8) + i) p.length with h | h
    · rw [List.getD_append _ _ _ _ h]
    · rw [List.getD_eq_default _ _ h, List.getD_eq_default _ _ (by simp; omega)]

theorem wholeBytes_concat (p : Bits) (b : Bool) :
    wholeBytes (p ++ [b]) =
      if p.length % 8 = 7 then wholeBytes p ++ [byteAt (p ++ [b]) (p.length / 8)] else wholeBytes p := by
  have hsame : (List.range (p.length / 8)).map (byteAt (p ++ [b])) = wholeBytes p :=
    List.map_congr_left fun j hj => byteAt_append (List.mem_range.1 hj) _
  rw [wholeBytes, List.length_append, List.length_singleton]
  split
  · rw [show (p.length + 1) / 8 = p.length / 8 + 1 by omega, List.range_succ, List.map_append, hsame]
    rfl
  · rw [show (p.length + 1) / 8 = p.length / 8 by omega, hsame]

section Writer

variable {s : State} (hdst : s.ctx.dst.toNat + s.ctx.cap.toNat ≤ 2 ^ 32)
include hdst

/-- PutByte with room in the window and an access that is answered `Ok` (R122). -/
theorem putByte_withOutput {out : List Byte} (hroom : out.length < s.ctx.cap.toNat) (hans : AnswersOk 1 s) (v acc : Byte)
    (cnt : BitVec 3) :
    putByte v (s.withOutput out acc cnt) = .ok () ((s.skipAnswers 1).withOutput (out ++ [v]) acc cnt) := by
  have hcap := s.ctx.cap.isLt
  have hpos : (BitVec.ofNat 32 out.length).toNat = out.length := Nat.mod_eq_of_lt (by omega)
  have haddr : (s.ctx.dst + BitVec.ofNat 32 out.length).toNat = s.ctx.dst.toNat + out.length := by
    rw [BitVec.toNat_add, hpos, Nat.mod_eq_of_lt (by omega)]
  have hfree : BitVec.ofNat 32 out.length ≠ s.ctx.cap := fun heq => by
    rw [heq] at hpos
    omega
  have hnext := nextAnswer_of_answersOk (s := s.withOutput out acc cnt) hans Nat.one_pos
  have hpos' : BitVec.ofNat 32 out.length + 1 = BitVec.ofNat 32 (out ++ [v]).length := by
    rw [List.length_append, BitVec.ofNat_add]
    rfl
  rw [putByte_eq, hnext, State.withOutput_ctx, State.withOutput_writer, if_neg hfree, if_pos rfl, haddr,
    State.withOutput_mem, ← writeBytes_concat, hpos']
  rfl

/-- The byte that is filled goes out and the writer begins another (R123, R125). -/
theorem putAcc_withOutput {out : List Byte} (hroom : out.length < s.ctx.cap.toNat) (hans : AnswersOk 1 s) (acc : Byte)
    (cnt : BitVec 3) :
    putAcc (s.withOutput out acc cnt) = .ok () ((s.skipAnswers 1).withOutput (out ++ [acc]) 0 0) := by
  rw [putAcc, State.withOutput_writer, putByte_withOutput hdst hroom hans]
  rfl

/-- WriteBit puts out the byte that the bit fills, if it fills one (R123). -/
theorem writeBit_packed {p : Bits} (b : Bool) (hroom : (p.length + 1) / 8 ≤ s.ctx.cap.toNat)
    (hans : AnswersOk ((p.length + 1) / 8 - p.length / 8) s) :
    writeBit b (s.packed p) =
      .ok () ((s.skipAnswers ((p.length + 1) / 8 - p.length / 8)).packed (p ++ [b])) := by
  have hpush : (s.packed p).setWriter { (s.packed p).eng.w with acc := (s.packed p).eng.w.push b } =
      s.withOutput (wholeBytes p) (byteAt (p ++ [b]) (p.length / 8)) (BitVec.ofNat 3 p.length) := by
    rw [← push_byteAt p b (BitVec.ofNat 32 (wholeBytes p).length)]
    rfl
  have hwhole := wholeBytes_concat p b
  have hlen : (p ++ [b]).length = p.length + 1 := List.length_append
  rw [writeBit, hpush, State.packed_cnt, State.packed, hlen]
  by_cases hfull : p.length % 8 = 7
  · have hnext : BitVec.ofNat 3 (p.length + 1) = 0 := BitVec.eq_of_toNat_eq (by simp; omega)
    have hlast : byteAt (p ++ [b]) ((p.length + 1) / 8) = 0 := byteAt_of_length_le (by omega)
    rw [if_pos hfull] at hwhole
    rw [show (p.length + 1) / 8 - p.length / 8 = 1 by omega] at hans ⊢
    rw [if_pos (BitVec.eq_of_toNat_eq (by simp; omega)),
      putAcc_withOutput hdst (by rw [length_wholeBytes]; omega) hans, hwhole, hnext, hlast]
  · rw [if_neg hfull] at hwhole
    rw [show (p.length + 1) / 8 = p.length / 8 by omega, Nat.sub_self, State.skipAnswers_zero, hwhole,
      if_neg fun h => hfull (by simpa using congrArg BitVec.toNat h), BitVec.ofNat_add]
    rfl

/-- WriteString appends its bits to those written (R124). -/
theorem writeString_packed {p : Bits} (bs : Bits) (hroom : (p.length + bs.length) / 8 ≤ s.ctx.cap.toNat)
    (hans : AnswersOk ((p.length + bs.length) / 8 - p.length / 8) s) :
    writeString bs (s.packed p) =
      .ok () ((s.skipAnswers ((p.length + bs.length) / 8 - p.length / 8)).packed (p ++ bs)) := by
  induction bs generalizing s p with
  | nil =>
    rw [List.length_nil, Nat.add_zero, Nat.sub_self, State.skipAnswers_zero, List.append_nil]
    rfl
  | cons b bs ih =>
    have hlen : (p ++ [b]).length = p.length + 1 := List.length_append
    rw [List.length_cons, ← Nat.add_assoc, Nat.add_right_comm] at hroom hans ⊢
    have hrest := ih (s := s.skipAnswers ((p.length + 1) / 8 - p.length / 8)) (p := p ++ [b]) hdst
      (by rw [hlen]; exact hroom) ((hans.skipAnswers _).mono (by rw [hlen]; omega))
    have hskip : (p.length + 1 + bs.length) / 8 - p.length / 8 =
      ((p.length + 1) / 8 - p.length / 8) + ((p.length + 1 + bs.length) / 8 - (p.length + 1) / 8) := by omega
    rw [writeString, writeBit_packed hdst b (by omega) (hans.mono (by omega)), Res.bind_ok, hrest, hlen, hskip,
      State.skipAnswers_skipAnswers, List.append_assoc, List.singleton_append]

/-- Flush puts out the byte in progress, its free places zero (R125). -/
theorem flush_packed {p : Bits} (hroom : (p.length + 7) / 8 ≤ s.ctx.cap.toNat)
    (hans : AnswersOk ((p.length + 7) / 8 - p.length / 8) s) :
    flush (s.packed p) =
      .ok () ((s.skipAnswers ((p.length + 7) / 8 - p.length / 8)).withOutput (bytesOfBits p) 0 0) := by
  rw [flush, State.packed_cnt, State.packed, bytesOfBits_eq_map_byteAt]
  by_cases hempty : p.length % 8 = 0
  · have hzero : BitVec.ofNat 3 p.length = 0#3 := BitVec.eq_of_toNat_eq (by simpa using hempty)
    rw [show (p.length + 7) / 8 = p.length / 8 by omega, Nat.sub_self, State.skipAnswers_zero, if_pos hzero, hzero,
      byteAt_of_length_le (by omega)]
    rfl
  · have hpart : BitVec.ofNat 3 p.length ≠ 0#3 := fun h => hempty (by simpa using congrArg BitVec.toNat h)
    rw [show (p.length + 7) / 8 = p.length / 8 + 1 by omega] at hroom hans ⊢
    rw [Nat.add_sub_cancel_left] at hans ⊢
    rw [if_neg hpart, putAcc_withOutput hdst (by rw [length_wholeBytes]; omega) hans, List.range_succ, List.map_append]
    rfl

end Writer

/-- Settles O38: the empty writer has packed the empty string, WriteString appends to it and Flush pads it. -/
theorem writerPacksBitStrings : Obligations.WriterPacksBitStrings := by
  unfold Obligations.WriterPacksBitStrings
  intro s bits hw hdst hroom hans
  have hstring := writeString_packed hdst (p := []) bits (by rw [List.length_nil]; omega)
    (hans.mono (by rw [List.length_nil]; omega))
  rw [State.packed_nil hw, List.nil_append, List.length_nil, Nat.zero_add, Nat.zero_div, Nat.sub_zero] at hstring
  have hflush := flush_packed (s := s.skipAnswers (bits.length / 8)) hdst hroom ((hans.skipAnswers _).mono (by omega))
  rw [hstring, Res.bind_ok, hflush]
  have hlen := bytesOfBits_length bits
  have hread := readBytes_writeBytes s.mem s.ctx.dst.toNat (bytesOfBits bits)
  have houtside := sameOutside_writeBytes s.mem s.ctx.dst.toNat (bytesOfBits bits)
  refine ⟨_, rfl, ?_, ?_, ?_⟩
  · rw [State.withOutput_writer, hlen]
  · rwa [hlen] at hread
  · rwa [hlen] at houtside

/-! ## Family 40_bitstream: the reader (R126, R127) -/

/-- A byte of the source buffer, which ends inside the address space. -/
theorem getElem?_srcBytes {c : Ctx} (hsrc : c.src.toNat + c.len.toNat ≤ 2 ^ 32) (m : Memory) {i : Word}
    (hi : i.toNat < c.len.toNat) : (c.srcBytes m)[i.toNat]? = some (m.read (c.src + i).toNat) := by
  rw [BitVec.toNat_add, Nat.mod_eq_of_lt (by omega), Ctx.srcBytes, readBytes, List.getElem?_map,
    List.getElem?_range hi, Option.map_some]

/-- A fresh reader (R126). -/
theorem ReaderAt.fresh (x : List Byte) {r : Reader} (hcnt : r.cnt = 0) (hpos : r.inPos = 0) : ReaderAt x 0 r :=
  ⟨Nat.zero_le _, by rw [hpos]; rfl, by rw [hcnt]; rfl, fun h => absurd rfl h⟩

section ReadCalls

variable {s : State} {n : Nat}

/-- ReadBit inside the source returns the next bit, and fetches a byte for the first of eight (R127). -/
theorem readBit_readerAt (hsrc : s.ctx.src.toNat + s.ctx.len.toNat ≤ 2 ^ 32)
    (hr : ReaderAt (s.ctx.srcBytes s.mem) n s.eng.r) (hn : n < 8 * s.ctx.len.toNat)
    (hans : AnswersOk ((n + 1 + 7) / 8 - (n + 7) / 8) s) :
    ∃ b r, readBit s = .ok (some b) ((s.skipAnswers ((n + 1 + 7) / 8 - (n + 7) / 8)).setReader r) ∧
      (sourceBits s)[n]? = some b ∧ ReaderAt (s.ctx.srcBytes s.mem) (n + 1) r := by
  have hn' : n < 8 * (s.ctx.srcBytes s.mem).length := by rwa [srcBytes_length]
  obtain ⟨-, hpos, hcnt, hbyte⟩ := hr
  rw [readBit]
  by_cases hfirst : n % 8 = 0
  · have hin : s.eng.r.inPos.toNat = n / 8 := by omega
    have hlt : s.eng.r.inPos.toNat < s.ctx.len.toNat := by omega
    have hzero : s.eng.r.cnt = 0#4 := BitVec.eq_of_toNat_eq (by rw [hcnt]; simp; omega)
    have hmore : s.eng.r.inPos ≠ s.ctx.len := fun heq => absurd (congrArg BitVec.toNat heq) (Nat.ne_of_lt hlt)
    have hload := getElem?_srcBytes hsrc s.mem hlt
    rw [hin] at hload
    rw [show (n + 1 + 7) / 8 - (n + 7) / 8 = 1 by omega] at hans ⊢
    rw [if_pos hzero, if_neg hmore, memRead_eq, nextAnswer_of_answersOk hans Nat.one_pos, if_pos rfl]
    exact takeBit_readerAt (t := (s.skipAnswers 1).setReader ⟨_, 8, s.eng.r.inPos + 1⟩) hn'
      (by rw [← hin]; exact toNat_add_one_of_lt hlt) (by rw [hfirst]; rfl) hload
  · have hsome : s.eng.r.cnt ≠ 0#4 := fun h0 => by
      rw [h0] at hcnt
      simp at hcnt
      omega
    rw [show (n + 1 + 7) / 8 - (n + 7) / 8 = 0 by omega, State.skipAnswers_zero, if_neg hsome]
    exact takeBit_readerAt hn' (by omega) (by omega) (hbyte hfirst)

/-- Past the last bit ReadBit returns EOS and changes nothing (R127). -/
theorem readBit_eos (hr : ReaderAt (s.ctx.srcBytes s.mem) (8 * s.ctx.len.toNat) s.eng.r) : readBit s = .ok none s := by
  obtain ⟨-, hpos, hcnt, -⟩ := hr
  have hzero : s.eng.r.cnt = 0#4 := BitVec.eq_of_toNat_eq (by rw [hcnt]; simp; omega)
  have hend : s.eng.r.inPos = s.ctx.len := BitVec.eq_of_toNat_eq (by omega)
  rw [readBit, if_pos hzero, if_pos hend]

/-- So many calls inside the source return its next bits. -/
theorem readCalls_readerAt (m : Nat) (hsrc : s.ctx.src.toNat + s.ctx.len.toNat ≤ 2 ^ 32)
    (hr : ReaderAt (s.ctx.srcBytes s.mem) n s.eng.r) (hn : n + m ≤ 8 * s.ctx.len.toNat)
    (hans : AnswersOk ((n + m + 7) / 8 - (n + 7) / 8) s) :
    ∃ r, readCalls m s = .ok ((((sourceBits s).drop n).take m).map some)
        ((s.skipAnswers ((n + m + 7) / 8 - (n + 7) / 8)).setReader r) ∧
      ReaderAt (s.ctx.srcBytes s.mem) (n + m) r := by
  induction m generalizing s n with
  | zero =>
    refine ⟨s.eng.r, ?_, hr⟩
    rw [readCalls, Nat.add_zero, Nat.sub_self, List.take_zero, State.skipAnswers_zero]
    rfl
  | succ m ih =>
    rw [← Nat.add_assoc, Nat.add_right_comm n m 1] at hn hans ⊢
    obtain ⟨b, r, hb, hbit, hr⟩ := readBit_readerAt hsrc hr (by omega) (hans.mono (by omega))
    obtain ⟨r', hcalls, hr'⟩ := ih (s := (s.skipAnswers ((n + 1 + 7) / 8 - (n + 7) / 8)).setReader r) hsrc hr hn
      ((hans.skipAnswers ((n + 1 + 7) / 8 - (n + 7) / 8)).mono (by omega))
    refine ⟨r', ?_, hr'⟩
    have hstream : (sourceBits s).drop n = b :: (sourceBits s).drop (n + 1) := by
      rw [List.drop_eq_getElem?_toList_append, hbit]
      rfl
    have hskip : (n + 1 + m + 7) / 8 - (n + 7) / 8 =
      ((n + 1 + 7) / 8 - (n + 7) / 8) + ((n + 1 + m + 7) / 8 - (n + 1 + 7) / 8) := by omega
    rw [readCalls, hb, Res.bind_ok, hcalls, hstream, hskip, ← State.skipAnswers_skipAnswers]
    rfl

theorem readCalls_add (m n : Nat) (s : State) :
    readCalls (m + n) s =
      (readCalls m s).bind fun xs t => (readCalls n t).bind fun ys u => .ok (xs ++ ys) u := by
  induction m generalizing s with
  | zero =>
    rw [Nat.zero_add, readCalls, Res.bind_ok]
    cases readCalls n s <;> rfl
  | succ m ih =>
    rw [Nat.succ_add, readCalls, readCalls, Res.bind_assoc]
    congr 1
    funext b t
    rw [ih, Res.bind_assoc, Res.bind_assoc]
    congr 1
    funext xs u
    rw [Res.bind_ok, Res.bind_assoc]
    rfl

/-- EOS for ever. -/
theorem readCalls_eos (m : Nat) (hr : ReaderAt (s.ctx.srcBytes s.mem) (8 * s.ctx.len.toNat) s.eng.r) :
    readCalls m s = .ok (List.replicate m none) s := by
  induction m with
  | zero => rfl
  | succ m ih => rw [readCalls, readBit_eos hr, Res.bind_ok, ih, Res.bind_ok, List.replicate_succ]

end ReadCalls

/-- Settles O39: the first calls return the source's bits, the rest find the reader at its end. -/
theorem readerReturnsTheStream : Obligations.ReaderReturnsTheStream := by
  unfold Obligations.ReaderReturnsTheStream
  intro s m hcnt hpos hsrc hans
  have hbytes : (0 + 8 * s.ctx.len.toNat + 7) / 8 - (0 + 7) / 8 = s.ctx.len.toNat := by omega
  obtain ⟨r, hcalls, hr⟩ := readCalls_readerAt (8 * s.ctx.len.toNat) hsrc (.fresh _ hcnt hpos) (by omega)
    (by rwa [hbytes])
  rw [hbytes, List.drop_zero, List.take_of_length_le (Nat.le_of_eq (length_sourceBits s))] at hcalls
  rw [Nat.zero_add] at hr
  refine ⟨(s.skipAnswers s.ctx.len.toNat).setReader r, ?_, rfl, rfl⟩
  rw [readCalls_add, hcalls, Res.bind_ok, readCalls_eos m hr]
  rfl

end Sys2Proof.Machine

namespace Sys2Proof.Machine

/-! ## Family 41_tree_builder: the leaves that the tree is built from (R142 to R144, R151) -/

namespace HuffTree

/-- Every node but the leaves has two children, so there is one fewer of them than leaves (R9, R149). -/
theorem size_eq (t : HuffTree) : t.size = 2 * t.leafCount - 1 := by
  induction t with
  | leaf v => rfl
  | node l r ihl ihr =>
    have hl := l.leafCount_pos
    have hr := r.leafCount_pos
    rw [size, leafCount, ihl, ihr]
    omega

theorem isInternal_of_two_le_leafCount {t : HuffTree} (h : 2 ≤ t.leafCount) : t.isInternal = true := by
  cases t with
  | leaf v => exact absurd h (by decide : ¬2 ≤ 1)
  | node l r => rfl

end HuffTree

/-- The real leaves hold the distinct values, each once (R142). -/
theorem realLeaves_leaves_perm (x : List Byte) : (itemLeaves (realLeaves x 0 256 0)).Perm x.dedup := by
  rw [realLeaves_leaves]
  refine (List.perm_ext_iff_of_nodup ?_ x.nodup_dedup).2 fun b => ?_
  · refine ((List.nodup_range' 1).filter _).map_on fun i hi j hj hij => ?_
    have hi' := List.mem_range'_1.1 (List.mem_filter.1 hi).1
    have hj' := List.mem_range'_1.1 (List.mem_filter.1 hj).1
    have hnat := congrArg BitVec.toNat hij
    rw [BitVec.toNat_ofNat, BitVec.toNat_ofNat] at hnat
    omega
  · rw [List.mem_dedup, List.mem_map]
    constructor
    · rintro ⟨v, hv, rfl⟩
      exact List.count_pos_iff.1 (of_decide_eq_true (List.mem_filter.1 hv).2)
    · intro hb
      have hvalue : BitVec.ofNat 8 b.toNat = b := by rw [BitVec.ofNat_toNat, BitVec.setWidth_eq]
      refine ⟨b.toNat, List.mem_filter.2 ⟨List.mem_range'_1.2 ⟨Nat.zero_le _, b.isLt⟩, decide_eq_true ?_⟩, hvalue⟩
      rw [countOf, hvalue]
      exact List.count_pos_iff.2 hb

/-- There are as many real leaves as distinct values (R142). -/
theorem length_realLeaves (x : List Byte) : (realLeaves x 0 256 0).length = x.dedup.length := by
  rw [← (realLeaves_leaves_perm x).length_eq, realLeaves_leaves, realLeaves, List.length_map, List.length_zipIdx,
    List.length_map]

/-- Every dummy holds the value 0 (R143). -/
theorem dummyLeaves_leaves (i : Nat) : itemLeaves (dummyLeaves i) = List.replicate (2 - i) 0 := by
  rw [itemLeaves, dummyLeaves, List.flatMap_map]
  exact (List.flatMap_pure_eq_map (fun _ => 0) _).trans (by rw [List.map_const', List.length_range])

/-- The leaf values of a built tree are the distinct values, each once, and 0 for each dummy (R142, R143). -/
theorem buildTree_leaves_perm (x : List Byte) :
    (buildTree x).leaves.Perm (x.dedup ++ List.replicate (2 - x.dedup.length) 0) := by
  refine (buildTree_leaves x).trans ?_
  rw [leafItems_eq, length_realLeaves, itemLeaves, List.flatMap_append]
  exact (realLeaves_leaves_perm x).append (.of_eq (dummyLeaves_leaves _))

/-- Settles O42: the leaves are counted on their permutation to the distinct values and dummies, and the other clauses
hold of every tree with two leaves or more. -/
theorem builtTreeShape : Obligations.BuiltTreeShape := by
  unfold Obligations.BuiltTreeShape
  intro x
  have hcount : (buildTree x).leafCount = max 2 x.dedup.length := by
    rw [← HuffTree.length_leaves, (buildTree_leaves_perm x).length_eq, List.length_append, List.length_replicate]
    omega
  have hle : (buildTree x).leafCount ≤ 256 := (leafCount_buildTree x).symm ▸ (length_leafItems x).2
  have hdepth := (buildTree x).depth_lt_leaves
  rw [HuffTree.length_leaves] at hdepth
  refine ⟨HuffTree.isInternal_of_two_le_leafCount (by omega), hcount, hle, HuffTree.size_eq _, by omega, ?_⟩
  rw [HuffTree.leafPaths_fst]
  exact buildTree_leaves_perm x

/-- The leaves depend on the bytes' counts alone (R142, R143). -/
theorem leafItems_congr {x y : List Byte} (h : ∀ b, x.count b = y.count b) : leafItems x = leafItems y := by
  simp only [leafItems, h]

/-- Settles O43: permutations have the same counts, so the same leaves are merged. -/
theorem builtTreeIgnoresOrder : Obligations.BuiltTreeIgnoresOrder := by
  unfold Obligations.BuiltTreeIgnoresOrder
  intro x y h
  rw [buildTree, buildTree, leafItems_congr h.count_eq]

end Sys2Proof.Machine

namespace Sys2Proof.Machine

/-! ## Family 41_tree_builder: the arena that C_BUILD leaves (R145, R147, R149) -/

/-- L leaves and the L - 1 nodes of the merges are in use, and the last of them is the root (R145, R147). -/
theorem buildArena_counts {e e' : Engine} (h : buildArena e = some e') :
    e'.nodeCount.toNat = 2 * (buildLeaves e).nodeCount.toNat - 1 ∧ e'.root.toNat = e'.nodeCount.toNat - 1 := by
  obtain ⟨hleaves, hge, hle⟩ := buildLeaves_sim (d := e) (e := e) rfl
  rw [Config.maxLeaves] at hle
  simp only [buildArena] at h
  cases hm : mergeTimes ((buildLeaves e).nodeCount.toNat - 1) (buildLeaves e) with
  | none => simp [hm] at h
  | some d =>
    simp only [hm, Option.some.injEq] at h
    subst h
    obtain ⟨-, -, -, hcount, -⟩ := mergeTimes_sim hleaves (by rw [Config.nodeCap]; omega) (by omega) hm
    have hone : BitVec.toNat (1 : BitVec 10) = 1 := rfl
    dsimp only
    refine ⟨by omega, ?_⟩
    rw [BitVec.toNat_setWidth, BitVec.toNat_sub_of_le (by rw [BitVec.le_def]; omega), hone]
    omega

/-- Settles O41: the arena refines the working set of BuildTree through every merge (`buildArena_holds`), so the root
stands for its tree, and the leaves made are the tree's. -/
theorem arenaHoldsTheBuiltTree : Obligations.ArenaHoldsTheBuiltTree := by
  unfold Obligations.ArenaHoldsTheBuiltTree
  intro x e hx hfreq
  obtain ⟨e', he', hholds⟩ := buildArena_holds hx hfreq
  obtain ⟨-, -, hbuilt, -⟩ := buildArena_sim (d := e) (e := e) rfl he'
  obtain ⟨hcount, hroot⟩ := buildArena_counts he'
  have hleaves : (buildLeaves e).nodeCount.toNat = (buildTree x).leafCount := by
    rw [leafCount_buildTree, (buildLeaves_refines hx hfreq).2]
  have hdepth : (buildTree x).depth < Config.stackDepth :=
    Nat.lt_of_le_of_lt (buildTree_depth x) (by decide : Config.codeMaxLen < Config.stackDepth)
  exact ⟨e', he', hholds.treeAt hdepth, by omega, by omega, hbuilt⟩

end Sys2Proof.Machine

namespace Sys2Proof.Machine

/-! ## Family 42_tree_serialization: serialized trees read back (R160 to R166) -/

/-- Leaving out bit 0 of the number leaves out the last of its bits. -/
theorem bitsOf_succ (n v : Nat) : bitsOf (n + 1) v = bitsOf n (v / 2) ++ [v.testBit 0] := by
  rw [bitsOf, List.range_succ, List.map_append, List.map_singleton, Nat.add_sub_cancel, Nat.sub_self, bitsOf]
  congr 1
  refine List.map_congr_left fun i hi => ?_
  have hlt := List.mem_range.1 hi
  rw [← Nat.testBit_succ]
  congr 1
  omega

/-- The bits of a number write its low bits (R8). -/
theorem natOfBE_bitsOf (n v : Nat) : natOfBE (bitsOf n v) = v % 2 ^ n := by
  induction n generalizing v with
  | zero => exact (Nat.mod_one v).symm
  | succ n ih =>
    have hlow : (v.testBit 0).toNat = v % 2 := by rw [Nat.toNat_testBit, Nat.pow_zero, Nat.div_one]
    have happend : natOfBE (bitsOf n (v / 2) ++ [v.testBit 0]) = 2 * natOfBE (bitsOf n (v / 2)) + (v.testBit 0).toNat :=
      List.foldl_append
    rw [bitsOf_succ, happend, ih, hlow, Nat.pow_succ', Nat.mod_mul, Nat.add_comm]

theorem ofNat_natOfBE_bitsOf (v : Byte) : BitVec.ofNat 8 (natOfBE (bitsOf 8 v.toNat)) = v := by
  rw [natOfBE_bitsOf, Nat.mod_eq_of_lt v.isLt, BitVec.ofNat_toNat, BitVec.setWidth_eq]

/-! ### One call of DesNode (R162, R164) -/

section DesNode

variable {n used : Nat} {s : Bits}

theorem desTree_nil (n : Nat) (isRoot : Bool) (used : Nat) : desTree n isRoot used [] = .error (.fmtTreeEos, 0) := by
  cases n <;> rfl

/-- Only a leaf's token is rejected for being the root. -/
theorem desTree_root (hs : s.head? ≠ some true) : desTree n true used s = desTree n false used s := by
  cases n with
  | zero => rfl
  | succ n =>
    cases s with
    | nil => rfl
    | cons b s =>
      cases b with
      | false => rfl
      | true => exact absurd rfl hs

theorem desTree_full (b : Bool) :
    desTree (n + 1) false Config.nodeCap (b :: s) = .error (.fmtTreeTooLarge, 511#32) := by
  rw [desTree, Bool.false_and, if_neg Bool.false_ne_true, if_pos rfl, Config.nodeCap]

theorem desTree_leaf (h : used ≠ Config.nodeCap) (v : Byte) (rest : Bits) :
    desTree (n + 1) false used (true :: (bitsOf 8 v.toNat ++ rest)) = .ok (.leaf v, used + 1, rest) := by
  have hlen : (bitsOf 8 v.toNat).length = 8 := bitsOf_length 8 _
  rw [desTree, Bool.false_and, if_neg Bool.false_ne_true, if_neg h, if_pos rfl,
    if_neg (by rw [List.length_append]; omega), List.take_left' hlen, List.drop_left' hlen, ofNat_natOfBE_bitsOf]

theorem desTree_leaf_eos (h : used ≠ Config.nodeCap) (hs : s.length < 8) :
    desTree (n + 1) false used (true :: s) = .error (.fmtTreeEos, 0) := by
  rw [desTree, Bool.false_and, if_neg Bool.false_ne_true, if_neg h, if_pos rfl, if_pos hs]

/-- The left subtree is read, and then the right one from where it ends. -/
theorem desTree_node_of_left_ok {l : HuffTree} {used' : Nat} {s' : Bits} (h : used ≠ Config.nodeCap)
    (hl : desTree n false (used + 1) s = .ok (l, used', s')) :
    desTree (n + 1) false used (false :: s) =
      (desTree n false used' s').map fun (r, used, rest) => (.node l r, used, rest) := by
  rw [desTree, Bool.false_and, if_neg Bool.false_ne_true, if_neg h, if_neg Bool.false_ne_true, hl]
  dsimp only
  cases desTree n false used' s' <;> rfl

theorem desTree_node_of_left_error {e : ErrCode × Word} (h : used ≠ Config.nodeCap)
    (hl : desTree n false (used + 1) s = .error e) : desTree (n + 1) false used (false :: s) = .error e := by
  rw [desTree, Bool.false_and, if_neg Bool.false_ne_true, if_neg h, if_neg Bool.false_ne_true, hl]

end DesNode

/-! ### Whole trees and cut ones (R164, R166) -/

/-- A serialized tree is read back, with exactly its bits and one arena entry per node, if the arena has room for it. If
not, the entry that is wanting rejects it. -/
theorem desTree_serialize (t : HuffTree) {n used : Nat} (rest : Bits) (hn : t.serialize.length ≤ n)
    (hused : used ≤ Config.nodeCap) :
    desTree n false used (t.serialize ++ rest) =
      if used + t.size ≤ Config.nodeCap then .ok (t, used + t.size, rest) else .error (.fmtTreeTooLarge, 511#32) := by
  induction t generalizing n used rest with
  | leaf v =>
    rw [HuffTree.serialize, List.length_cons] at hn
    obtain ⟨n, rfl⟩ : ∃ m, n = m + 1 := ⟨n - 1, by omega⟩
    rw [HuffTree.serialize, List.cons_append, HuffTree.size]
    by_cases hfull : used = Config.nodeCap
    · rw [hfull, desTree_full, if_neg (by omega)]
    · rw [desTree_leaf hfull, if_pos (by omega)]
  | node l r ihl ihr =>
    rw [HuffTree.serialize, List.length_cons, List.length_append] at hn
    obtain ⟨n, rfl⟩ : ∃ m, n = m + 1 := ⟨n - 1, by omega⟩
    have hsize : used + (HuffTree.node l r).size = used + 1 + l.size + r.size := by rw [HuffTree.size]; omega
    rw [HuffTree.serialize, List.cons_append, List.append_assoc, hsize]
    by_cases hfull : used = Config.nodeCap
    · rw [hfull, desTree_full, if_neg (by omega)]
    have hleft := ihl (n := n) (used := used + 1) (r.serialize ++ rest) (by omega) (by omega)
    by_cases hroom : used + 1 + l.size ≤ Config.nodeCap
    · rw [if_pos hroom] at hleft
      rw [desTree_node_of_left_ok hfull hleft, ihr rest (by omega) hroom]
      split <;> rfl
    · rw [if_neg hroom] at hleft
      rw [desTree_node_of_left_error hfull hleft, if_neg (by omega)]

/-- The proper prefixes of two strings are those of the first, and the first before those of the second. -/
theorem prefix_append_cases {p a b : Bits} (hp : p <+: a ++ b) (hne : p ≠ a ++ b) :
    (p <+: a ∧ p ≠ a) ∨ ∃ q, p = a ++ q ∧ q <+: b ∧ q ≠ b := by
  by_cases ha : a <+: p
  · obtain ⟨q, rfl⟩ := ha
    exact .inr ⟨q, rfl, (List.prefix_append_right_inj a).1 hp, fun h => hne (by rw [h])⟩
  · refine .inl ⟨(List.prefix_or_prefix_of_prefix hp (List.prefix_append a b)).resolve_right ha, ?_⟩
    rintro rfl
    exact ha (List.prefix_refl p)

/-- A tree that the arena has room for and that the bits end inside. -/
theorem desTree_cut {t : HuffTree} {n used : Nat} {p : Bits} (hn : p.length ≤ n)
    (hroom : used + t.size ≤ Config.nodeCap) (hp : p <+: t.serialize) (hne : p ≠ t.serialize) :
    desTree n false used p = .error (.fmtTreeEos, 0) := by
  induction t generalizing n used p with
  | leaf v =>
    cases p with
    | nil => exact desTree_nil n false used
    | cons b q =>
      rw [List.length_cons] at hn
      obtain ⟨n, rfl⟩ : ∃ m, n = m + 1 := ⟨n - 1, by omega⟩
      rw [HuffTree.size] at hroom
      obtain ⟨rfl, hq⟩ := List.cons_prefix_cons.1 hp
      have hshort := Nat.lt_of_le_of_ne hq.length_le fun h => hne (by rw [hq.eq_of_length h]; rfl)
      rw [bitsOf_length] at hshort
      exact desTree_leaf_eos (by omega) hshort
  | node l r ihl ihr =>
    cases p with
    | nil => exact desTree_nil n false used
    | cons b q =>
      rw [List.length_cons] at hn
      obtain ⟨n, rfl⟩ : ∃ m, n = m + 1 := ⟨n - 1, by omega⟩
      rw [HuffTree.size] at hroom
      obtain ⟨rfl, hq⟩ := List.cons_prefix_cons.1 hp
      rcases prefix_append_cases hq fun h => hne (by rw [h]; rfl) with ⟨hleft, hcut⟩ | ⟨q, rfl, hright, hcut⟩
      · exact desTree_node_of_left_error (by omega) (ihl (by omega) (by omega) hleft hcut)
      · rw [List.length_append] at hn
        have hleft := desTree_serialize l (n := n) (used := used + 1) q (by omega) (by omega)
        rw [if_pos (by omega)] at hleft
        rw [desTree_node_of_left_ok (by omega) hleft, ihr (by omega) (by omega) hright hcut]
        rfl

/-- What begins like a tree with an internal root is read as any subtree is. -/
theorem deserialize_of_prefix {t : HuffTree} {p rest : Bits} (ht : t.isInternal = true)
    (hp : p <+: t.serialize ++ rest) :
    deserialize p = (desTree p.length false 0 p).map fun (t, _, rest) => (t, rest) := by
  have hhead : p.head? ≠ some true := by
    cases t with
    | leaf v => cases ht
    | node l r =>
      cases p with
      | nil => decide
      | cons b p =>
        obtain ⟨rfl, -⟩ := List.cons_prefix_cons.1 hp
        exact fun h => Bool.noConfusion (Option.some.inj h)
  rw [deserialize, desTree_root hhead]
  cases desTree p.length false 0 p <;> rfl

/-- Of a tree with an internal root the whole arena is the room (R166), and the 512th node is wanting (R164(c)). -/
theorem deserialize_serialize {t : HuffTree} (rest : Bits) (ht : t.isInternal = true) :
    deserialize (t.serialize ++ rest) =
      if t.size ≤ Config.nodeCap then .ok (t, rest) else .error (.fmtTreeTooLarge, 511#32) := by
  rw [deserialize_of_prefix ht (List.prefix_refl _),
    desTree_serialize t rest (List.length_append ▸ Nat.le_add_right _ _) (Nat.zero_le _), Nat.zero_add]
  split <;> rfl

/-- Settles O47: the length formula, at the leaf counts of built trees. -/
theorem serializedLength : Obligations.SerializedLength := by
  unfold Obligations.SerializedLength
  refine ⟨HuffTree.length_serialize, fun x => ?_⟩
  obtain ⟨-, hcount, hle, -⟩ := builtTreeShape x
  rw [HuffTree.length_serialize]
  omega

/-- Settles O48: by induction on the tree (`desTree_serialize`), and built trees have at most 256 leaves. -/
theorem deserializeUndoesSerialize : Obligations.DeserializeUndoesSerialize := by
  unfold Obligations.DeserializeUndoesSerialize
  refine ⟨fun t rest ht hsize => ?_, fun x => ?_⟩
  · rw [deserialize_serialize rest ht, if_pos hsize]
  · obtain ⟨hinternal, -, hle, hsize, -⟩ := builtTreeShape x
    refine ⟨hinternal, ?_⟩
    rw [Config.nodeCap]
    omega

/-- Settles O49: the root check comes first, the capacity check meets the 512th node, and a cut tree is short of bits in
the node that the cut is in (`desTree_cut`). -/
theorem deserializeRejections : Obligations.DeserializeRejections := by
  unfold Obligations.DeserializeRejections
  refine ⟨fun s => rfl, fun t rest ht hsize => ?_, fun t p ht hsize hp hne => ?_⟩
  · rw [deserialize_serialize rest ht, if_neg (Nat.not_le.2 hsize)]
  · rw [deserialize_of_prefix (rest := []) ht (by rwa [List.append_nil]),
      desTree_cut (Nat.le_refl _) (by rwa [Nat.zero_add]) hp hne]
    rfl

end Sys2Proof.Machine

namespace Sys2Proof.Machine

/-! ## Family 43_code_table_encoder: the codes of a tree (R181, R183, R184) -/

namespace HuffTree

/-- The path stored for a leaf, below the one its tree stands at, leads a walk to that leaf and no further (R180,
R200). -/
theorem walk_of_mem_leafPaths {t : HuffTree} {path : Bits} {q : Byte × Bits} (h : q ∈ t.leafPaths path) :
    ∃ p, q.2 = path ++ p ∧ ∀ rest, t.walk (p ++ rest) = some (q.1, rest) := by
  induction t generalizing path with
  | leaf v =>
    rw [leafPaths, List.mem_singleton] at h
    subst h
    exact ⟨[], (List.append_nil path).symm, fun _ => rfl⟩
  | node l r ihl ihr =>
    rw [leafPaths, List.mem_append] at h
    rcases h with h | h
    · obtain ⟨p, hp, hwalk⟩ := ihl h
      exact ⟨false :: p, by rw [hp, List.append_assoc, List.singleton_append], hwalk⟩
    · obtain ⟨p, hp, hwalk⟩ := ihr h
      exact ⟨true :: p, by rw [hp, List.append_assoc, List.singleton_append], hwalk⟩

theorem mem_leafPaths_of_code {t : HuffTree} {v : Byte} {p : Bits} (h : t.code v = some p) :
    (v, p) ∈ t.leafPaths [] := by
  obtain ⟨l, l', hl, -⟩ := List.lookup_eq_some_iff.1 h
  rw [← List.mem_reverse, hl]
  exact List.mem_append_right l List.mem_cons_self

theorem length_le_depth_of_code {t : HuffTree} {v : Byte} {p : Bits} (h : t.code v = some p) :
    p.length ≤ t.depth := by
  simpa using length_of_leafPaths (mem_leafPaths_of_code h)

/-- A walk along the code of a value gives the value and leaves what follows the code (R180, R200). -/
theorem walk_code {t : HuffTree} {v : Byte} {p : Bits} (h : t.code v = some p) (rest : Bits) :
    t.walk (p ++ rest) = some (v, rest) := by
  obtain ⟨q, rfl, hwalk⟩ := walk_of_mem_leafPaths (mem_leafPaths_of_code h)
  exact hwalk rest

/-- No code is empty when the root is internal (R181). -/
theorem code_ne_nil {t : HuffTree} {v : Byte} {p : Bits} (ht : t.isInternal = true) (h : t.code v = some p) :
    p ≠ [] := by
  rintro rfl
  cases t with
  | leaf v => cases ht
  | node l r => cases walk_code h []

/-- If one code began another, the walk along the longer one would end at both leaves (R184). -/
theorem eq_of_code_prefix {t : HuffTree} {v w : Byte} {p q : Bits} (hv : t.code v = some p) (hw : t.code w = some q)
    (hpq : p <+: q) : v = w := by
  obtain ⟨rest, rfl⟩ := hpq
  have hwalk := walk_code hw []
  rw [List.append_nil, walk_code hv rest, Option.some.injEq, Prod.mk.injEq] at hwalk
  exact hwalk.1

end HuffTree

/-- Settles O44: the root of a built tree is internal and its depth is at most 255, and every source byte is the value
of one of its leaves. -/
theorem builtCodesFitTheTable : Obligations.BuiltCodesFitTheTable := by
  unfold Obligations.BuiltCodesFitTheTable
  refine fun x => ⟨fun v p hp => ?_, fun v hv => ?_⟩
  · obtain ⟨hinternal, -⟩ := builtTreeShape x
    exact ⟨List.length_pos_iff.2 (HuffTree.code_ne_nil hinternal hp),
      (HuffTree.length_le_depth_of_code hp).trans (buildTree_depth x)⟩
  · obtain ⟨p, hp, -⟩ := HuffTree.code_of_mem_leaves (mem_buildTree_leaves hv)
    exact ⟨p, hp⟩

/-! ## Family 43_code_table_encoder: phase C_DERIVE (R180, R182, R183) -/

/-- An arena index that stands for a tree holds it, somewhere in the arena. -/
theorem Engine.holds_of_treeAt {e : Engine} {depth : Nat} {t : HuffTree} {i : BitVec 9}
    (h : Engine.treeAt depth e i = some t) : e.Holds 0 (2 ^ 9) t i := by
  induction depth generalizing t i with
  | zero => cases h
  | succ depth ih =>
    cases hn : e.nodeAt i with
    | none => simp [Engine.treeAt, hn] at h
    | some n =>
      cases hk : n.kind with
      | leaf =>
        simp only [Engine.treeAt, hn, hk, Option.some.injEq] at h
        subst h
        exact ⟨⟨Nat.zero_le _, i.isLt⟩, n, hn, hk, rfl⟩
      | internal =>
        simp only [Engine.treeAt, hn, hk] at h
        cases hl : Engine.treeAt depth e n.left with
        | none => simp [hl] at h
        | some l =>
          cases hr : Engine.treeAt depth e n.right with
          | none => simp [hl, hr] at h
          | some r =>
            simp only [hl, hr, Option.some.injEq] at h
            subst h
            exact ⟨⟨Nat.zero_le _, i.isLt⟩, n, hn, hk, ih hl, ih hr⟩

/-- Phase C_DERIVE stores the paths of the tree in a table with no valid entry (R180). -/
theorem cDerive_of_treeAt {s : State} {t : HuffTree}
    (htree : Engine.treeAt Config.stackDepth s.eng s.eng.root = some t) (hdepth : t.depth ≤ Config.codeMaxLen) :
    cDerive s = .ok () ((s.setEng (s.eng.clearCodes.setCodes (t.leafPaths []))).setPhase .cEncode) := by
  have hholds : s.eng.clearCodes.Holds 0 (2 ^ 9) t s.eng.root := (Engine.holds_of_treeAt htree).of_node rfl
  rw [cDerive, derive_of_holds hholds (Nat.lt_of_le_of_lt hdepth (by decide : Config.codeMaxLen < Config.stackDepth))]

theorem CodeEntry.length_bits (c : CodeEntry) : c.bits.length = c.len.toNat := by
  rw [CodeEntry.bits, List.length_map, List.length_range]

/-- Settles O45: Derive stores the tree's paths in order, and so the last path of a value is what its entry keeps
(`codeEntry_setCodes`). -/
theorem codeTableHoldsThePaths : Obligations.CodeTableHoldsThePaths := by
  unfold Obligations.CodeTableHoldsThePaths
  intro s t htree hdepth
  refine ⟨(s.eng.clearCodes.setCodes (t.leafPaths [])).ct, ?_, fun v => ?_⟩
  · rw [cDerive_of_treeAt htree hdepth, setCodes_eq]
    rfl
  · have hentry := codeEntry_setCodes s.eng.clearCodes (t.leafPaths []) v
    rw [← HuffTree.code, Engine.codeEntry] at hentry
    rw [hentry]
    cases hcode : t.code v with
    | none => exact codeEntry_clearCodes_valid s.eng v
    | some p =>
      have hbits : (CodeEntry.ofPath p).bits = p :=
        CodeEntry.ofPath_bits ((HuffTree.length_le_depth_of_code hcode).trans hdepth)
      refine ⟨rfl, ?_, hbits⟩
      show (CodeEntry.ofPath p).len.toNat = p.length
      rw [← CodeEntry.length_bits, hbits]

/-- A valid entry of the table that C_DERIVE leaves holds the code of its value in the tree (R183). -/
theorem code_of_valid_entry {s u : State} {t : HuffTree} {v : Byte}
    (htree : Engine.treeAt Config.stackDepth s.eng s.eng.root = some t) (hdepth : t.depth ≤ Config.codeMaxLen)
    (hu : cDerive s = .ok () u) (hvalid : (u.eng.codeEntry v).valid = true) :
    t.code v = some (u.eng.codeEntry v).bits := by
  obtain ⟨ct, hct, htable⟩ := codeTableHoldsThePaths s t htree hdepth
  obtain ⟨-, rfl⟩ := Res.ok.inj (hct.symm.trans hu)
  have hentry := htable v
  cases hcode : t.code v with
  | none =>
    rw [hcode] at hentry
    exact absurd (hentry.symm.trans hvalid) Bool.false_ne_true
  | some p =>
    rw [hcode] at hentry
    obtain ⟨-, -, hbits⟩ := hentry
    exact congrArg some hbits.symm

/-- Settles O46: the table's valid entries hold codes of the tree, and of those no walk passes two leaves
(`HuffTree.eq_of_code_prefix`). -/
theorem codesArePrefixFree : Obligations.CodesArePrefixFree := by
  unfold Obligations.CodesArePrefixFree
  refine ⟨fun s u t v w htree hdepth hu hne hv hw hprefix => ?_, fun t v w p q hne hv hw hprefix => ?_⟩
  · exact hne (HuffTree.eq_of_code_prefix (code_of_valid_entry htree hdepth hu hv)
      (code_of_valid_entry htree hdepth hu hw) hprefix)
  · exact hne (HuffTree.eq_of_code_prefix hv hw hprefix)

end Sys2Proof.Machine

namespace Sys2Proof.Machine

/-! ## Family 44_decoder: decoding, and what follows a container (R200 to R206, R230) -/

section Decoding

variable {t : HuffTree} {s s' : Bits} {v : Byte}

theorem decodeSymbols_of_walk (n : Nat) (h : t.walk s = some (v, s')) :
    decodeSymbols t (n + 1) s = (decodeSymbols t n s').map (v :: ·) := by
  rw [decodeSymbols, h]
  dsimp only
  cases decodeSymbols t n s' <;> rfl

/-- Decode gives the symbols that the walks yield, if they are all that were asked for (R200, R203). -/
theorem decodeSymbols_eq_walkSymbols (t : HuffTree) (n : Nat) (s : Bits) :
    decodeSymbols t n s =
      if (t.walkSymbols n s).length < n then .error .fmtPayloadEos else .ok (t.walkSymbols n s) := by
  induction n generalizing s with
  | zero => rfl
  | succ n ih =>
    cases hwalk : t.walk s with
    | none =>
      rw [decodeSymbols, HuffTree.walkSymbols, hwalk]
      exact (if_pos (Nat.succ_pos n)).symm
    | some p =>
      obtain ⟨v, s'⟩ := p
      have hsymbols : t.walkSymbols (n + 1) s = v :: t.walkSymbols n s' := by rw [HuffTree.walkSymbols, hwalk]
      rw [decodeSymbols_of_walk n hwalk, ih, hsymbols, List.length_cons, apply_ite (Except.map _)]
      simp only [Nat.add_lt_add_iff_right, Except.map]

/-- The codes of bytes that have one are walked one after another (R200, R206). -/
theorem decodeSymbols_payload {x : List Byte} (h : ∀ v ∈ x, ∃ p, t.code v = some p) (rest : Bits) :
    decodeSymbols t x.length (payload t x ++ rest) = .ok x := by
  induction x with
  | nil => rfl
  | cons v x ih =>
    obtain ⟨p, hp⟩ := h v List.mem_cons_self
    have hpayload : payload t (v :: x) = p ++ payload t x := by rw [payload, List.flatMap_cons, hp]; rfl
    rw [hpayload, List.append_assoc, List.length_cons, decodeSymbols_of_walk _ (HuffTree.walk_code hp _),
      ih fun w hw => h w (List.mem_cons_of_mem v hw)]
    rfl

end Decoding

/-- Settles O51: every source byte has a code in the built tree (`builtCodesFitTheTable`). -/
theorem decodeUndoesEncode : Obligations.DecodeUndoesEncode := by
  unfold Obligations.DecodeUndoesEncode
  intro x rest
  obtain ⟨-, hcode⟩ := builtCodesFitTheTable x
  exact decodeSymbols_payload hcode rest

/-! ### What is read stays read when bits follow (R202, R230) -/

section Append

variable {t : HuffTree} {s rest : Bits}

/-- A walk that reaches a leaf does not look at the bits after it. -/
theorem HuffTree.walk_append {v : Byte} (more : Bits) (h : t.walk s = some (v, rest)) :
    t.walk (s ++ more) = some (v, rest ++ more) := by
  induction t generalizing s with
  | leaf w =>
    obtain ⟨rfl, rfl⟩ := Prod.mk.inj (Option.some.inj h)
    rfl
  | node l r ihl ihr =>
    cases s with
    | nil => cases h
    | cons b s =>
      cases b with
      | false => exact ihl h
      | true => exact ihr h

theorem decodeSymbols_append {n : Nat} {d : List Byte} (more : Bits) (h : decodeSymbols t n s = .ok d) :
    decodeSymbols t n (s ++ more) = .ok d := by
  induction n generalizing s d with
  | zero => exact h
  | succ n ih =>
    cases hwalk : t.walk s with
    | none => simp [decodeSymbols, hwalk] at h
    | some p =>
      obtain ⟨v, s'⟩ := p
      rw [decodeSymbols_of_walk n hwalk] at h
      rw [decodeSymbols_of_walk n (HuffTree.walk_append more hwalk)]
      cases hrest : decodeSymbols t n s' with
      | error e => rw [hrest] at h; cases h
      | ok vs => rw [ih hrest, ← h, hrest]

/-- A leaf is read from eight bits. -/
theorem desTree_leaf_of_length {n used : Nat} (h : used ≠ Config.nodeCap) (hs : 8 ≤ s.length) :
    desTree (n + 1) false used (true :: s) = .ok (.leaf (BitVec.ofNat 8 (natOfBE (s.take 8))), used + 1, s.drop 8) := by
  rw [desTree, Bool.false_and, if_neg Bool.false_ne_true, if_neg h, if_pos rfl, if_neg (Nat.not_lt.2 hs)]

/-- DesNode looks at no bit after those of its tree, and more steps than it needs change nothing. -/
theorem desTree_append {n m used used' : Nat} (more : Bits) (hnm : n ≤ m)
    (h : desTree n false used s = .ok (t, used', rest)) :
    desTree m false used (s ++ more) = .ok (t, used', rest ++ more) := by
  induction n generalizing m used used' s t rest with
  | zero => cases h
  | succ n ih =>
    obtain ⟨m, rfl⟩ : ∃ k, m = k + 1 := ⟨m - 1, by omega⟩
    have hnm : n ≤ m := Nat.le_of_succ_le_succ hnm
    cases s with
    | nil => cases h
    | cons b s =>
      have hroom : used ≠ Config.nodeCap := by
        rintro rfl
        cases (desTree_full b).symm.trans h
      rw [List.cons_append]
      cases b with
      | true =>
        have hlen : 8 ≤ s.length := by
          by_contra hshort
          cases (desTree_leaf_eos hroom (Nat.not_le.1 hshort)).symm.trans h
        cases (desTree_leaf_of_length hroom hlen).symm.trans h
        rw [desTree_leaf_of_length hroom (List.length_append ▸ Nat.le_add_right_of_le hlen),
          List.take_append_of_le_length hlen, List.drop_append_of_le_length hlen]
      | false =>
        cases hl : desTree n false (used + 1) s with
        | error e => cases (desTree_node_of_left_error hroom hl).symm.trans h
        | ok left =>
          obtain ⟨l, usedL, sL⟩ := left
          rw [desTree_node_of_left_ok hroom hl] at h
          rw [desTree_node_of_left_ok hroom (ih hnm hl)]
          cases hr : desTree n false usedL sL with
          | error e => rw [hr] at h; cases h
          | ok right =>
            rw [hr] at h
            cases h
            rw [ih hnm hr]
            rfl

/-- A root that is not a leaf's is read as any subtree is (R162). -/
theorem deserialize_of_false (s : Bits) :
    deserialize (false :: s) =
      (desTree (false :: s).length false 0 (false :: s)).map fun (t, _, rest) => (t, rest) := by
  have hhead : (false :: s).head? ≠ some true := fun h => Bool.noConfusion (Option.some.inj h)
  rw [deserialize, desTree_root hhead]
  cases desTree (false :: s).length false 0 (false :: s) <;> rfl

/-- Deserialize looks at no bit after those of the tree (R166). -/
theorem deserialize_append (more : Bits) (h : deserialize s = .ok (t, rest)) :
    deserialize (s ++ more) = .ok (t, rest ++ more) := by
  cases s with
  | nil => cases h
  | cons b s =>
    cases b with
    | true => cases h
    | false =>
      rw [deserialize_of_false] at h
      rw [List.cons_append, deserialize_of_false, ← List.cons_append]
      cases hdes : desTree (false :: s).length false 0 (false :: s) with
      | error e => rw [hdes] at h; cases h
      | ok p =>
        rw [hdes] at h
        cases h
        rw [desTree_append more (List.length_append ▸ Nat.le_add_right _ _) hdes]
        rfl

end Append

/-- DECOMPRESS succeeds exactly when the header is there, the tree is read, and the payload holds as many symbols as the
header counts and the window takes (R229). -/
theorem decompressOutcome_eq_ok_iff {c d : List Byte} {cap : Word} :
    decompressOutcome c cap = .ok d ↔
      4 ≤ c.length ∧ d.length ≤ cap.toNat ∧
        ∃ t rest, deserialize (bitsOfBytes (c.drop 4)) = .ok (t, rest) ∧
          decodeSymbols t (natOfBE (bitsOfBytes (c.take 4))) rest = .ok d := by
  rw [decompressOutcome]
  by_cases hlen : c.length < 4
  · simp [hlen, Nat.not_le.2 hlen]
  rw [if_neg hlen]
  cases hdes : deserialize (bitsOfBytes (c.drop 4)) with
  | error e => simp
  | ok p =>
    obtain ⟨t, rest⟩ := p
    dsimp only
    simp only [Except.ok.injEq, Prod.mk.injEq, decodeSymbols_eq_walkSymbols]
    have hlen : 4 ≤ c.length := Nat.not_lt.1 hlen
    constructor
    · intro h
      split_ifs at h with hcap hfew
      cases h
      exact ⟨hlen, Nat.not_lt.1 hcap, t, rest, ⟨rfl, rfl⟩, if_neg hfew⟩
    · rintro ⟨-, hcap, t', rest', ⟨rfl, rfl⟩, h⟩
      split_ifs at h with hfew
      cases h
      rw [if_neg (Nat.not_lt.2 hcap), if_neg hfew]

/-- Settles O52: the header stays the same, and reading the tree and decoding look at no bit after theirs. -/
theorem trailingBytesAreIgnored : Obligations.TrailingBytesAreIgnored := by
  unfold Obligations.TrailingBytesAreIgnored
  intro c more d cap h
  obtain ⟨hlen, hcap, t, rest, hdes, hdec⟩ := decompressOutcome_eq_ok_iff.1 h
  refine decompressOutcome_eq_ok_iff.2
    ⟨hlen.trans (List.length_append ▸ Nat.le_add_right _ _), hcap, t, rest ++ bitsOfBytes more, ?_, ?_⟩
  · rw [List.drop_append_of_le_length hlen, bitsOfBytes_append]
    exact deserialize_append _ hdes
  · rw [List.take_append_of_le_length hlen]
    exact decodeSymbols_append _ hdec

end Sys2Proof.Machine

namespace Sys2Proof.Machine

/-! ## Family 45_commands: the issue of a command (R221 to R223) -/

theorem exec_of_argCheck_some {i : Instr} {s : State} {c : ErrCode} {v : Word} (hidle : s.regs.status.busy = false)
    (h : argCheck s.regs.args = some (c, v)) : exec i s = .next (errorEntry c v (issued s)) := by
  rw [exec_idle hidle, issue, h]

theorem exec_of_argCheck_none {i : Instr} {s : State} (hidle : s.regs.status.busy = false)
    (h : argCheck s.regs.args = none) : exec i s = .next (accept i.op (Phase.first i) (issued s)) := by
  rw [exec_idle hidle, issue, h]

/-- Settles O6: `argCheck` makes checks 3 to 5 of R222 in this order, and with none failing the command is accepted. -/
theorem idleIssueRejectsOrAccepts : Obligations.IdleIssueRejectsOrAccepts := by
  unfold Obligations.IdleIssueRejectsOrAccepts
  intro i s hidle rejected
  have hrejected : ∀ c v, argCheck s.regs.args = some (c, v) → exec i s = .next (rejected c v) :=
    fun c v h => exec_of_argCheck_some hidle h
  split_ifs with hsrc hdst hoverlap
  · exact hrejected _ _ (if_pos hsrc)
  · exact hrejected _ _ ((if_neg hsrc).trans (if_pos hdst))
  · exact hrejected _ _ ((if_neg hsrc).trans ((if_neg hdst).trans (if_pos hoverlap)))
  · refine ⟨max 1 (Config.latency s.env.draws), s.env.draws + 1, Nat.le_max_left .., ?_⟩
    rw [exec_of_argCheck_none hidle ((if_neg hsrc).trans ((if_neg hdst).trans (if_neg hoverlap)))]
    cases i <;> rfl

/-! ## Family 45_commands: the life of a running command (R220, R224, R234, R256, R288) -/

/-- What a phase touches goes beyond nothing that `SameBeyond` names. -/
theorem Touched.sameBeyond {s t : State} (h : Touched s t) : SameBeyond s t := ⟨h.inputs, h.resp, h.ctx⟩

/-- An error forgets the window alone (spec/20_memory.md R80). -/
theorem Touched.commandError_outside {s t : State} (h : Touched s t) (c : ErrCode) (v : Word) :
    SameOutside s.ctx.dst.toNat s.ctx.cap.toNat s.mem (commandError c v t).mem := fun a ha => by
  rw [commandError_mem, h.ctx, Memory.read_forget_outside _ ha]
  exact h.outside a ha

/-- Settles O21: the last engine step answers a next state (`exec_isNext`), which `exec_running` says is a completion or
an error entry. -/
theorem lastEngineStepEndsCommand : Obligations.LastEngineStepEndsCommand := by
  unfold Obligations.LastEngineStepEndsCommand
  intro i s hinv hrun hcommand hlast
  obtain ⟨t, ht⟩ := exec_isNext hinv hrun hcommand
  refine ⟨t, ht, ?_⟩
  cases exec_running hinv hrun hcommand ht with
  | onward hmore => omega
  | @completed u _ n hu =>
    exact ⟨rfl, hu.sameBeyond, hu.outside, .inl ⟨n, by rw [complete_regs, hu.regs]; rfl⟩⟩
  | @failed u _ c hcode v hu =>
    exact ⟨rfl, hu.sameBeyond, hu.commandError_outside c v,
      .inr ⟨c, v, hcode, by rw [commandError_regs, hu.regs]; rfl⟩⟩

/-- Settles O22: a step that is not the last leads on, the phase run having touched only what `Touched` leaves open. -/
theorem earlierEngineStepsAreSilent : Obligations.EarlierEngineStepsAreSilent := by
  unfold Obligations.EarlierEngineStepsAreSilent
  intro i s hinv hrun hcommand hmore
  obtain ⟨t, ht⟩ := exec_isNext hinv hrun hcommand
  refine ⟨t, ht, ?_⟩
  cases exec_running hinv hrun hcommand ht with
  | @onward u _ hu =>
    exact ⟨hu.touched.regs, hu.command, hu.touched.sameBeyond, congrArg (· - 1) hu.touched.latencyLeft, hu.touched.outside⟩
  | completed hlast => omega
  | failed hlast => omega

end Sys2Proof.Machine

namespace Sys2Proof.Machine

/-! ## Family 45_commands: how many engine steps are left changes nothing of what a phase does (R234, R288) -/

/-- The state with so many engine steps left. -/
def State.setLatency (s : State) (n : Nat) : State := { s with env := { s.env with latencyLeft := n } }

@[simp] theorem State.setLatency_phase (s : State) (n : Nat) : (s.setLatency n).phase = s.phase := rfl
@[simp] theorem State.setLatency_ctx (s : State) (n : Nat) : (s.setLatency n).ctx = s.ctx := rfl
@[simp] theorem State.setLatency_eng (s : State) (n : Nat) : (s.setLatency n).eng = s.eng := rfl
@[simp] theorem State.setLatency_mem (s : State) (n : Nat) : (s.setLatency n).mem = s.mem := rfl

/-- The end of a computation with the state it leaves updated. -/
def Res.mapState {α : Type} (f : State → State) : Res α → Res α
  | .ok a s => .ok a (f s)
  | .raised c v s => .raised c v (f s)
  | .stuck e => .stuck e

/-- A computation neither reads nor changes the number of engine steps left. -/
def IgnoresLatency {α : Type} (f : State → Res α) : Prop :=
  ∀ (n : Nat) (s : State), f (s.setLatency n) = (f s).mapState (·.setLatency n)

/-- What ignores the number, followed by what ignores it. -/
theorem Res.bind_mapState {α β : Type} {x y : Res α} {f g : α → State → Res β} {h : State → State}
    (hx : x = y.mapState h) (hf : ∀ a s, f a (h s) = (g a s).mapState h) :
    x.bind f = (y.bind g).mapState h := by
  subst hx
  cases y with
  | ok a s => exact hf a s
  | raised c v s => rfl
  | stuck e => rfl

theorem nextAnswer_setLatency (n : Nat) (s : State) :
    nextAnswer (s.setLatency n) = ((nextAnswer s).1, (nextAnswer s).2.setLatency n) := by
  have hsame : (s.setLatency n).env.answers = s.env.answers := rfl
  unfold nextAnswer
  rw [hsame]
  split <;> rfl

theorem getByte_ignoresLatency (i : Word) : IgnoresLatency (getByte i) := by
  intro n s
  rw [getByte_eq, getByte_eq, nextAnswer_setLatency]
  split <;> rfl

/-! ### The writer and the reader -/

theorem putByte_ignoresLatency (v : Byte) : IgnoresLatency (putByte v) := by
  intro n s
  rw [putByte_eq, putByte_eq, nextAnswer_setLatency, State.setLatency_eng, State.setLatency_ctx]
  split
  · rfl
  · split <;> rfl

theorem putAcc_ignoresLatency : IgnoresLatency putAcc := fun n s =>
  Res.bind_mapState (putByte_ignoresLatency s.eng.w.acc n s) fun _ _ => rfl

theorem writeBit_ignoresLatency (b : Bool) : IgnoresLatency (writeBit b) := by
  intro n s
  rw [writeBit, writeBit, State.setLatency_eng]
  split
  · exact putAcc_ignoresLatency n (s.setWriter { s.eng.w with acc := s.eng.w.push b })
  · rfl

theorem writeString_ignoresLatency (bs : Bits) : IgnoresLatency (writeString bs) := by
  induction bs with
  | nil => exact fun _ _ => rfl
  | cons b bs ih => exact fun n s => Res.bind_mapState (writeBit_ignoresLatency b n s) fun _ => ih n

theorem flush_ignoresLatency : IgnoresLatency flush := by
  intro n s
  rw [flush, flush, State.setLatency_eng]
  split
  · rfl
  · exact putAcc_ignoresLatency n s

theorem readBit_ignoresLatency : IgnoresLatency readBit := by
  intro n s
  rw [readBit, readBit, State.setLatency_eng, State.setLatency_ctx]
  split
  · split
    · rfl
    · rw [memRead_eq, memRead_eq, nextAnswer_setLatency]
      cases (nextAnswer s).1 <;> rfl
  · rfl

theorem readBitsFrom_ignoresLatency (m : Nat) (v : Word) : IgnoresLatency (readBitsFrom m v) := by
  induction m generalizing v with
  | zero => exact fun _ _ => rfl
  | succ m ih =>
    refine fun n s => Res.bind_mapState (readBit_ignoresLatency n s) fun b u => ?_
    cases b with
    | none => rfl
    | some b => exact ih _ n u

/-! ### Walks and loops -/

theorem countLoop_ignoresLatency (m : Nat) : IgnoresLatency (countLoop m) := by
  induction m with
  | zero => exact fun _ _ => rfl
  | succ m ih =>
    exact fun n s => Res.bind_mapState (getByte_ignoresLatency s.eng.k n s) fun b u =>
      ih n (u.setEng { u.eng.count b with k := u.eng.k + 1 })

theorem serNode_ignoresLatency (depth : Nat) (i : BitVec 9) : IgnoresLatency (serNode depth i) := by
  induction depth generalizing i with
  | zero => exact fun _ _ => rfl
  | succ depth ih =>
    intro n s
    rw [serNode, serNode, State.setLatency_eng]
    cases s.eng.nodeAt i with
    | none => rfl
    | some m =>
      dsimp only
      cases m.kind with
      | leaf => exact Res.bind_mapState (writeBit_ignoresLatency _ n s) fun _ => writeString_ignoresLatency _ n
      | internal =>
        exact Res.bind_mapState (Res.bind_mapState (writeBit_ignoresLatency _ n s) fun _ => ih _ n) fun _ => ih _ n

theorem desNode_ignoresLatency (depth : Nat) (isRoot : Bool) : IgnoresLatency (desNode depth isRoot) := by
  induction depth generalizing isRoot with
  | zero => exact fun _ _ => rfl
  | succ depth ih =>
    refine fun n s => Res.bind_mapState (readBit_ignoresLatency n s) fun b u => ?_
    cases b with
    | none => rfl
    | some b =>
      dsimp only
      by_cases hroot : (isRoot && b) = true
      · rw [if_pos hroot, if_pos hroot]
        rfl
      · rw [if_neg hroot, if_neg hroot, State.setLatency_eng]
        by_cases hfull : u.eng.nodeCount.toNat = Config.nodeCap
        · rw [if_pos hfull, if_pos hfull]
          rfl
        · rw [if_neg hfull, if_neg hfull]
          cases b with
          | true =>
            refine Res.bind_mapState (readBitsFrom_ignoresLatency Config.symW 0 n (allocNode u)) fun v w => ?_
            cases v <;> rfl
          | false =>
            refine Res.bind_mapState (ih false n (allocNode u)) fun l w => ?_
            exact Res.bind_mapState (ih false n w) fun r w' => rfl

theorem encodeLoop_ignoresLatency (m : Nat) : IgnoresLatency (encodeLoop m) := by
  induction m with
  | zero => exact fun _ _ => rfl
  | succ m ih =>
    refine fun n s => Res.bind_mapState (getByte_ignoresLatency s.eng.k n s) fun b u => ?_
    rw [State.setLatency_eng]
    split
    · exact Res.bind_mapState (writeString_ignoresLatency _ n u) fun _ w => ih n (w.setK (w.eng.k + 1))
    · rfl

theorem walkArena_ignoresLatency (steps : Nat) (i : BitVec 9) : IgnoresLatency (walkArena steps i) := by
  induction steps generalizing i with
  | zero => exact fun _ _ => rfl
  | succ steps ih =>
    intro n s
    rw [walkArena, walkArena, State.setLatency_eng]
    cases s.eng.nodeAt i with
    | none => rfl
    | some m =>
      dsimp only
      cases m.kind with
      | leaf => rfl
      | internal =>
        refine Res.bind_mapState (readBit_ignoresLatency n s) fun b u => ?_
        cases b with
        | none => rfl
        | some b => exact ih _ n u

theorem decodeLoop_ignoresLatency (m : Nat) : IgnoresLatency (decodeLoop m) := by
  induction m with
  | zero => exact fun _ _ => rfl
  | succ m ih =>
    refine fun n s => Res.bind_mapState (walkArena_ignoresLatency (bitBound s) s.eng.root n s) fun v u => ?_
    cases v with
    | none => rfl
    | some v => exact Res.bind_mapState (putByte_ignoresLatency v n u) fun _ w => ih n (w.setSym (w.eng.sym + 1))

theorem dumpText_ignoresLatency (bs : Bits) : IgnoresLatency (dumpText bs) := by
  induction bs with
  | nil => exact fun _ _ => rfl
  | cons b bs ih => exact fun n s => Res.bind_mapState (putByte_ignoresLatency _ n s) fun _ => ih n

theorem dumpLoop_ignoresLatency (m : Nat) : IgnoresLatency (dumpLoop m) := by
  induction m with
  | zero => exact fun _ _ => rfl
  | succ m ih =>
    exact fun n s => Res.bind_mapState (getByte_ignoresLatency s.eng.k n s) fun b u =>
      Res.bind_mapState (dumpText_ignoresLatency _ n u) fun _ w => ih n (w.setK (w.eng.k + 1))

/-! ### Phases -/

theorem compressPhase_ignoresLatency : IgnoresLatency compressPhase := by
  intro n s
  rw [compressPhase, compressPhase, State.setLatency_phase]
  cases s.phase with
  | cCount =>
    exact Res.bind_mapState (countLoop_ignoresLatency _ n (s.setEng { s.eng with freq := .replicate 256 0, k := 0 }))
      fun _ _ => rfl
  | cBuild =>
    dsimp only
    rw [cBuild, cBuild, State.setLatency_eng]
    cases buildArena s.eng <;> rfl
  | cHeader => exact Res.bind_mapState (writeString_ignoresLatency _ n (wInit s)) fun _ _ => rfl
  | cTree => exact Res.bind_mapState (serNode_ignoresLatency _ _ n s) fun _ _ => rfl
  | cDerive =>
    dsimp only
    rw [cDerive, cDerive, State.setLatency_eng]
    cases derive Config.stackDepth s.eng.root [] s.eng.clearCodes <;> rfl
  | cEncode => exact Res.bind_mapState (encodeLoop_ignoresLatency _ n (s.setK 0)) fun _ _ => rfl
  | cFlush => exact Res.bind_mapState (flush_ignoresLatency n s) fun _ _ => rfl
  | _ => rfl

theorem decompressPhase_ignoresLatency : IgnoresLatency decompressPhase := by
  intro n s
  rw [decompressPhase, decompressPhase, State.setLatency_phase]
  cases s.phase with
  | dHeader =>
    dsimp only
    rw [dHeader, dHeader]
    by_cases hshort : (wInit (rInit s)).ctx.len < 4#32
    · rw [if_pos hshort]
      exact if_pos hshort
    · rw [if_neg hshort]
      refine (if_neg hshort).trans ?_
      refine Res.bind_mapState (readBitsFrom_ignoresLatency Config.hdrW 0 n (wInit (rInit s))) fun v u => ?_
      cases v <;> rfl
  | dTree =>
    exact Res.bind_mapState (desNode_ignoresLatency _ true n (s.setEng { s.eng with nodeCount := 0 })) fun _ _ => rfl
  | dDecode => exact Res.bind_mapState (decodeLoop_ignoresLatency _ n (s.setSym 0)) fun _ _ => rfl
  | _ => rfl

theorem dumpbitsPhase_ignoresLatency : IgnoresLatency dumpbitsPhase := by
  intro n s
  rw [dumpbitsPhase, dumpbitsPhase, State.setLatency_phase]
  cases s.phase with
  | xDump => exact Res.bind_mapState (dumpLoop_ignoresLatency _ n ((wInit s).setK 0)) fun _ _ => rfl
  | _ => rfl

theorem commandPhase_ignoresLatency (i : Instr) : IgnoresLatency (commandPhase i) := by
  cases i with
  | compress => exact compressPhase_ignoresLatency
  | decompress => exact decompressPhase_ignoresLatency
  | dumpbits => exact dumpbitsPhase_ignoresLatency

/-! ### Ending at once and ending later (R288) -/

theorem State.Inv.setLatency {s : State} (h : s.Inv) {n : Nat} (hn : 1 ≤ n) : (s.setLatency n).Inv where
  memWf := h.memWf
  regsOk := h.regsOk
  idleIff := h.idleIff
  running hb := by
    obtain ⟨i, hcommand, hrun⟩ := h.running hb
    exact ⟨i, hcommand, hrun.busy, hrun.op, hrun.args, hn⟩
  phaseOk := h.phaseOk

theorem finish_of_onward {phase : State → Res Unit} {n : Nat} {s u : State} (hu : phase s = .ok () u)
    (hidle : u.phase ≠ .idle) : finish phase (n + 1) s = finish phase n u := by
  rw [finish, hu]
  exact if_neg hidle

/-- More phases than a command has left make no difference. -/
theorem finish_succ_of_next {phase : State → Res Unit} {n : Nat} {s t : State} (h : finish phase n s = .next t) :
    finish phase (n + 1) s = .next t := by
  induction n generalizing s with
  | zero => simp [finish] at h
  | succ n ih =>
    rw [finish] at h ⊢
    cases hs : phase s with
    | ok a u =>
      rw [hs] at h
      dsimp only at h ⊢
      by_cases hidle : u.phase = .idle
      · rwa [if_pos hidle] at h ⊢
      · rw [if_neg hidle] at h ⊢
        exact ih h
    | raised c v u => rwa [hs] at h
    | stuck e => simp [hs] at h

/-- Running one phase of a command first changes nothing of how its last step ends. -/
theorem finish_after_phase {i : Instr} {s u : State} (hinv : s.Inv) (hrun : Running i s)
    (hcommand : s.phase.command = some i) (hu : commandPhase i s = .ok () u) (hidle : u.phase ≠ .idle) :
    finish (commandPhase i) mostPhases u = finish (commandPhase i) mostPhases s := by
  have hleft : u.phase.left ≤ 6 := by
    have hmost : s.phase.left ≤ 7 := by cases s.phase <;> decide
    have := commandPhase_left hu
    omega
  have hway : OnTheWay i s u := (OnTheWay.start hinv hcommand).step hrun hu hidle
  obtain ⟨t, ht⟩ := finish_isNext hrun hway hleft
  rw [mostPhases, finish_of_onward hu hidle, finish_succ_of_next ht, ht]

/-- Ending a command at once gives the same before and after an engine step of it that is not the last. -/
theorem exec_setLatency_one_of_onward {i : Instr} {s t : State} (hinv : s.Inv) (hrun : Running i s)
    (hcommand : s.phase.command = some i) (hmore : 1 < s.env.latencyLeft) (ht : exec i s = .next t) :
    exec i (t.setLatency 1) = exec i (s.setLatency 1) := by
  have hbusy : (s.setLatency 1).regs.status.busy = true := hrun.busy
  rw [exec_busy hrun.busy] at ht
  rcases engineStep_next ht with ⟨hlast, -⟩ | ⟨-, rfl | ⟨u, hu, hidle, rfl⟩⟩
  · omega
  · rfl
  · have hway : OnTheWay i s u := (OnTheWay.start hinv hcommand).step hrun hu hidle
    have hphase : commandPhase i (s.setLatency 1) = .ok () (u.setLatency 1) := by
      rw [commandPhase_ignoresLatency i 1 s, hu]
      rfl
    have hnow : Running i (s.setLatency 1) := ⟨hrun.busy, hrun.op, hrun.args, Nat.le_refl 1⟩
    show exec i (u.setLatency 1) = _
    rw [exec_lastStep (s := u.setLatency 1) (hway.running hrun).busy rfl, exec_lastStep hbusy rfl]
    exact finish_after_phase (hinv.setLatency (Nat.le_refl 1)) hnow hcommand hphase hidle

theorem run_succ_of_step {M : Host.Core} {s t : M.State} (h : M.step s = .next t) (n : Nat) :
    M.run (n + 1) s = M.run n t := by
  rw [Host.Core.run, h]

/-- With no move to come a step is an engine step of the running command (R290). -/
theorem step_running {i : Instr} {s : State} (hrun : Running i s) (hinputs : s.env.inputs = []) : step s = exec i s := by
  have hop : decodeOp s.ctx.op = some i := by rw [hrun.op, decodeOp_op]
  rw [step, hinputs]
  exact engineMove_busy hrun.busy hop

/-- Settles O24, by induction on the engine steps before the last: each leads to a state from which ending the command at
once gives the same (`exec_setLatency_one_of_onward`). -/
theorem latencyDoesNotChangeTheOutcome : Obligations.LatencyDoesNotChangeTheOutcome := by
  unfold Obligations.LatencyDoesNotChangeTheOutcome
  intro i s n hinv hrun hcommand hinputs hlat
  induction n generalizing s with
  | zero =>
    obtain ⟨t, ht⟩ := exec_isNext hinv hrun hcommand
    have hsame : s.setLatency 1 = s := congrArg s.setLatency hlat.symm
    refine ⟨t, run_succ_of_step (M := core) ((step_running hrun hinputs).trans ht) 0, ?_⟩
    show exec i (s.setLatency 1) = .next t
    rw [hsame, ht]
  | succ n ih =>
    have hmore : 1 < s.env.latencyLeft := by omega
    obtain ⟨t, ht, hregs, hnext, ⟨hmoves, -, hctx⟩, hleft, -⟩ := earlierEngineStepsAreSilent i s hinv hrun hcommand hmore
    have hrun' : Running i t := ⟨by rw [hregs, hrun.busy], by rw [hctx, hrun.op], by rw [hctx, hrun.args], by omega⟩
    have hinv' : t.Inv := (exec_running hinv hrun hcommand ht).inv hinv hrun
    obtain ⟨u, hu, hend⟩ := ih t hinv' hrun' hnext (by rw [hmoves, hinputs]) (by omega)
    refine ⟨u, (run_succ_of_step (M := core) ((step_running hrun hinputs).trans ht) _).trans hu, ?_⟩
    exact (exec_setLatency_one_of_onward hinv hrun hcommand hmore ht).symm.trans hend

end Sys2Proof.Machine

namespace Sys2Proof.Machine

/-! ## Family 45_commands: the closed form of DECOMPRESS undoes that of COMPRESS (R226, R229, R233) -/

/-- A container's bits are those of R226 and then padding. -/
theorem bitsOfBytes_compressBytes (x : List Byte) :
    ∃ pad, bitsOfBytes (compressBytes x) =
      bitsOf 32 x.length ++ ((buildTree x).serialize ++ (payload (buildTree x) x ++ pad)) := by
  obtain ⟨-, hpad⟩ := packedBitsReadBack (containerBits x)
  exact ⟨_, by rw [compressBytes, hpad, containerBits, List.append_assoc, List.append_assoc]⟩

/-- Settles O53: the header holds the count, the tree reads back (`deserializeUndoesSerialize`) and the payload decodes
whatever padding follows it (`decodeUndoesEncode`). -/
theorem decompressUndoesCompress : Obligations.DecompressUndoesCompress := by
  unfold Obligations.DecompressUndoesCompress
  intro x cap hx hroom
  obtain ⟨pad, hbits⟩ := bitsOfBytes_compressBytes x
  have hlen : 4 ≤ (compressBytes x).length := by
    have := (containerLength x).2
    omega
  obtain ⟨hinternal, hsize⟩ := deserializeUndoesSerialize.2 x
  have hcount : natOfBE (bitsOfBytes ((compressBytes x).take 4)) = x.length := by
    rw [← take_bitsOfBytes, hbits, List.take_left' (bitsOf_length 32 _), natOfBE_bitsOf, Nat.mod_eq_of_lt hx]
  have htree : deserialize (bitsOfBytes ((compressBytes x).drop 4)) =
      .ok (buildTree x, payload (buildTree x) x ++ pad) := by
    rw [← drop_bitsOfBytes, hbits, List.drop_left' (bitsOf_length 32 x.length)]
    exact deserializeUndoesSerialize.1 _ _ hinternal hsize
  exact decompressOutcome_eq_ok_iff.2 ⟨hlen, hroom, _, _, htree, hcount ▸ decodeUndoesEncode x pad⟩

end Sys2Proof.Machine

namespace Sys2Proof.Machine

/-! ## Family 45_commands: what a command does while no access is answered `BusErr`

`Yields` compares a computation of the engine with a closed form: where the closed form gives a value the computation ends
well, in a state that a relation describes, and where it gives an error the computation raises that error. `Emitted` is
the state after some accesses, all of them answered `Ok`, and the output bytes written by them. -/

/-- A computation of a command that runs in `s` ends as the closed form says. -/
inductive Yields {α β : Type} (s : State) (Q : β → α → State → Prop) : Except (ErrCode × Word) β → Res α → Prop where
  | ok {b : β} {a : α} {t : State} (h : Q b a t) : Yields s Q (.ok b) (.ok a t)
  | raised {c : ErrCode} {v : Word} {t : State} (h : Kept s t) : Yields s Q (.error (c, v)) (.raised c v t)

/-- The bytes before the `n`-th fit in the window, or a write finds it full (spec/40_bitstream.md R122). -/
def roomFor (cap : Word) (n : Nat) : Except (ErrCode × Word) Unit :=
  if cap.toNat < n then .error (.ioDstFull, cap) else .ok ()

theorem roomFor_of_le {cap : Word} {n : Nat} (h : n ≤ cap.toNat) : roomFor cap n = .ok () := if_neg (Nat.not_lt.2 h)

theorem roomFor_of_lt {cap : Word} {n : Nat} (h : cap.toNat < n) : roomFor cap n = .error (.ioDstFull, cap) := if_pos h

namespace Yields

variable {α β γ δ : Type} {s t : State} {x : Res α} {f : α → State → Res γ} {Q : β → α → State → Prop}
  {R : δ → γ → State → Prop} {e : Except (ErrCode × Word) β}

theorem mono {Q' : β → α → State → Prop} (h : Yields s Q e x) (hQ : ∀ b a t, Q b a t → Q' b a t) : Yields s Q' e x := by
  cases h with
  | ok h => exact .ok (hQ _ _ _ h)
  | raised h => exact .raised h

theorem bind {g : β → Except (ErrCode × Word) δ} (h : Yields s Q e x) (hf : ∀ b a t, Q b a t → Yields s R (g b) (f a t)) :
    Yields s R (e.bind g) (x.bind f) := by
  cases h with
  | ok h => exact hf _ _ _ h
  | raised h => exact .raised h

/-- A computation that fills the window up to `n` bytes, before one that fills it further. -/
theorem bind_room {n : Nat} {Q : α → State → Prop} {d : Except (ErrCode × Word) δ}
    (h : Yields s (fun _ => Q) (roomFor s.ctx.cap n) x)
    (hfull : s.ctx.cap.toNat < n → d = .error (.ioDstFull, s.ctx.cap)) (hf : ∀ a t, Q a t → Yields s R d (f a t)) :
    Yields s R d (x.bind f) := by
  rcases Nat.lt_or_ge s.ctx.cap.toNat n with hlt | hle
  · rw [roomFor_of_lt hlt] at h
    rw [hfull hlt]
    cases h with
    | raised h => exact .raised h
  · rw [roomFor_of_le hle] at h
    exact h.bind (g := fun _ => d) fun _ => hf

/-- A phase that leads to another, before the phases after it. -/
theorem runPhases_next {phase : State → Res Unit} {m n : Nat} {q : Phase} {Q : State → Prop}
    {d : Except (ErrCode × Word) δ} {R : δ → Unit → State → Prop}
    (h : Yields s (fun _ _ u => u.phase = q ∧ Q u) (roomFor s.ctx.cap m) (phase t)) (hq : q ≠ .idle)
    (hfull : s.ctx.cap.toNat < m → d = .error (.ioDstFull, s.ctx.cap))
    (hf : ∀ u, u.phase = q → Q u → Yields s R d (runPhases phase n u)) : Yields s R d (runPhases phase (n + 1) t) := by
  rw [runPhases]
  refine h.bind_room hfull fun _ u hu => ?_
  obtain ⟨hphase, hu⟩ := hu
  rw [if_neg (by rwa [hphase])]
  exact hf u hphase hu

/-- A phase that gives a value to the phases after it. -/
theorem runPhases_bind {phase : State → Res Unit} {n : Nat} {q : Phase} {Q : β → State → Prop}
    {g : β → Except (ErrCode × Word) δ} {R : δ → Unit → State → Prop}
    (h : Yields s (fun b _ u => u.phase = q ∧ Q b u) e (phase t)) (hq : q ≠ .idle)
    (hf : ∀ b u, u.phase = q → Q b u → Yields s R (g b) (runPhases phase n u)) :
    Yields s R (e.bind g) (runPhases phase (n + 1) t) := by
  rw [runPhases]
  refine h.bind fun b _ u hu => ?_
  obtain ⟨hphase, hu⟩ := hu
  rw [if_neg (by rwa [hphase])]
  exact hf b u hphase hu

/-- A phase that ends the command. -/
theorem runPhases_last {phase : State → Res Unit} {n : Nat} {Q : β → Unit → State → Prop}
    (h : Yields s Q e (phase t)) (hidle : ∀ b a u, Q b a u → u.phase = .idle) : Yields s Q e (runPhases phase (n + 1) t) := by
  rw [runPhases]
  revert h
  generalize phase t = y
  rintro (h | h)
  · rw [Res.bind_ok, if_pos (hidle _ _ _ h)]
    exact .ok h
  · exact .raised h

end Yields

/-! ### The state after accesses answered `Ok` -/

/-- Since `s`, `n` accesses have been made and these bytes written from the start of the window on. -/
structure Emitted (s : State) (n : Nat) (out : List Byte) (t : State) : Prop where
  regs : t.regs = s.regs
  ctx : t.ctx = s.ctx
  inputs : t.env.inputs = s.env.inputs
  resp : t.env.resp = s.env.resp
  answers : t.env.answers = s.env.answers.drop n
  mem : t.mem = writeBytes s.mem s.ctx.dst.toNat out
  room : out.length ≤ s.ctx.cap.toNat

namespace Emitted

variable {s t : State} {n N : Nat} {out : List Byte}

theorem start (s : State) : Emitted s 0 [] s := ⟨rfl, rfl, rfl, rfl, rfl, rfl, Nat.zero_le _⟩

theorem setEng (h : Emitted s n out t) (e : Engine) : Emitted s n out (t.setEng e) :=
  ⟨h.regs, h.ctx, h.inputs, h.resp, h.answers, h.mem, h.room⟩

theorem setPhase (h : Emitted s n out t) (p : Phase) : Emitted s n out (t.setPhase p) :=
  ⟨h.regs, h.ctx, h.inputs, h.resp, h.answers, h.mem, h.room⟩

theorem skipAnswers (h : Emitted s n out t) (k : Nat) : Emitted s (n + k) out (t.skipAnswers k) :=
  ⟨h.regs, h.ctx, h.inputs, h.resp, by rw [State.skipAnswers, h.answers, List.drop_drop], h.mem, h.room⟩

theorem kept (h : Emitted s n out t) : Kept s t where
  regs := h.regs
  ctx := h.ctx
  inputs := h.inputs
  resp := h.resp
  outside a ha := by
    rw [h.mem]
    refine sameOutside_writeBytes s.mem s.ctx.dst.toNat out a fun hin => ha ?_
    have := h.room
    omega

theorem answersOk (h : Emitted s n out t) (hans : AnswersOk N s) : AnswersOk (N - n) t := by
  have hskip := hans.skipAnswers n
  rw [AnswersOk] at hskip ⊢
  rwa [h.answers]

/-- Completion with the number of bytes written (R224). -/
theorem complete_endsWith (h : Emitted s n out t) :
    SameBeyond s (complete (BitVec.ofNat 32 out.length) t) ∧
      EndsWith s (complete (BitVec.ofNat 32 out.length) t) (.ok out) := by
  refine ⟨⟨h.inputs, h.resp, h.ctx⟩, rfl, by rw [complete_regs, h.regs]; rfl, ?_, ?_⟩
  · rw [complete_mem, h.mem, readBytes_writeBytes]
  · rw [complete_mem, h.mem]
    exact sameOutside_writeBytes _ _ _

end Emitted

/-- The command that runs in `s` has completed after `n` accesses, these bytes being its output. -/
def Completes (s : State) (n : Nat) (out : List Byte) (t : State) : Prop :=
  ∃ u, Emitted s n out u ∧ t = complete (BitVec.ofNat 32 out.length) u

theorem Completes.endsWith {s t : State} {n : Nat} {out : List Byte} (h : Completes s n out t) :
    SameBeyond s t ∧ EndsWith s t (.ok out) := by
  obtain ⟨u, hu, rfl⟩ := h
  exact hu.complete_endsWith

theorem Completes.answers {s t : State} {n : Nat} {out : List Byte} (h : Completes s n out t) :
    t.env.answers = s.env.answers.drop n := by
  obtain ⟨u, hu, rfl⟩ := h
  exact hu.answers

/-- The last engine step of a command whose phases end as a closed form says. -/
theorem Yields.endsWith {s : State} {x : Res Unit} {e : Except (ErrCode × Word) (List Byte)}
    {Q : List Byte → Unit → State → Prop} (h : Yields s Q e x)
    (hQ : ∀ out a t, Q out a t → ∃ n, Completes s n out t) :
    ∃ t, x.outcome = .next t ∧ SameBeyond s t ∧ EndsWith s t e ∧ ∀ out, e = .ok out → Q out () t := by
  cases h with
  | @ok out _ t h =>
    obtain ⟨n, hcompletes⟩ := hQ out () t h
    obtain ⟨hsame, hends⟩ := hcompletes.endsWith
    exact ⟨t, rfl, hsame, hends, fun out' heq => by cases heq; exact h⟩
  | @raised c v t h =>
    obtain ⟨hsame, hends, -⟩ := AfterError.endsWith ⟨h, rfl⟩ c v
    exact ⟨commandError c v t, rfl, hsame, hends, nofun⟩

/-! ### GetByte and PutByte -/

/-- The bytes written so far are where the writer's cursor says. -/
structure BytesOut (s : State) (n : Nat) (out : List Byte) (t : State) : Prop where
  emitted : Emitted s n out t
  outPos : t.eng.w.outPos = BitVec.ofNat 32 out.length

section Accesses

variable {s t : State} {n N : Nat} {out : List Byte} (hargs : s.ctx.args.wf = true) (hans : AnswersOk N s)
include hargs hans

theorem getByte_emitted (h : Emitted s n out t) (hn : n < N) {i : Word} (hi : i.toNat < s.ctx.len.toNat) :
    ∃ b, (s.ctx.srcBytes s.mem)[i.toNat]? = some b ∧ getByte i t = .ok b (t.skipAnswers 1) := by
  have hnext := nextAnswer_of_answersOk (h.answersOk hans) (by omega)
  exact ⟨_, h.kept.srcByte hargs hi, by rw [getByte_eq, hnext, if_pos rfl]⟩

theorem putByte_yields (h : BytesOut s n out t) (hn : n < N) (v : Byte) :
    Yields s (fun _ _ u => BytesOut s (n + 1) (out ++ [v]) u ∧ OnlyWriter t.eng u.eng)
      (roomFor s.ctx.cap (out.length + 1)) (putByte v t) := by
  obtain ⟨h, hpos⟩ := h
  have hroom := h.room
  have hcap := s.ctx.cap.isLt
  have hwindow : s.ctx.dst.toNat + s.ctx.cap.toNat ≤ 2 ^ 32 := CmdArgs.wf_dst hargs
  have hnat : (BitVec.ofNat 32 out.length).toNat = out.length := Nat.mod_eq_of_lt (by omega)
  rw [putByte_eq, hpos, h.ctx]
  by_cases hfull : BitVec.ofNat 32 out.length = s.ctx.cap
  · rw [if_pos hfull, hfull, roomFor_of_lt (by rw [← hfull, hnat]; omega)]
    exact .raised h.kept
  · have hlt : out.length < s.ctx.cap.toNat :=
      Nat.lt_of_le_of_ne hroom fun heq => hfull (BitVec.eq_of_toNat_eq (hnat.trans heq))
    have haddr : (s.ctx.dst + BitVec.ofNat 32 out.length).toNat = s.ctx.dst.toNat + out.length := by
      rw [BitVec.toNat_add, hnat, Nat.mod_eq_of_lt (by omega)]
    have hnext := nextAnswer_of_answersOk (h.answersOk hans) (by omega)
    rw [if_neg hfull, hnext, if_pos rfl, haddr, h.mem, ← writeBytes_concat, roomFor_of_le (by omega)]
    refine .ok ⟨⟨⟨h.regs, h.ctx, h.inputs, h.resp, (h.skipAnswers 1).answers, rfl, ?_⟩, ?_⟩, rfl⟩
    · rw [List.length_append, List.length_singleton]
      omega
    · rw [List.length_append, BitVec.ofNat_add]
      rfl

end Accesses

end Sys2Proof.Machine

namespace Sys2Proof.Machine

/-! ## Family 45_commands: DUMPBITS (R231, R232) -/

theorem bitText_eq (b : Bool) : bitText b = if b then 0x31#8 else 0x30#8 := by cases b <;> rfl

theorem dumpBytes_concat (x : List Byte) (b : Byte) :
    dumpBytes (x ++ [b]) = dumpBytes x ++ (bitsOf 8 b.toNat).map bitText := by
  have hbits : bitsOfBytes [b] = bitsOf 8 b.toNat := List.append_nil _
  have htext : (fun b : Bool => if b then 0x31#8 else 0x30#8) = bitText := funext fun b => (bitText_eq b).symm
  rw [dumpBytes, dumpBytes, bitsOfBytes_append, List.map_append, hbits, htext]

@[simp] theorem length_dumpBytes (x : List Byte) : (dumpBytes x).length = 8 * x.length := by
  rw [dumpBytes, List.length_map, bitsOfBytes_length]

theorem getElem?_readBytes {m : Memory} {a n i : Nat} (h : i < n) : (readBytes m a n)[i]? = some (m.read (a + i)) := by
  simp [readBytes, h]

/-- The text byte of bit `7 - j` of byte i (R231). -/
theorem getElem?_dumpBytes {x : List Byte} {b : Byte} {i j : Nat} (h : x[i]? = some b) (hj : j < 8) :
    (dumpBytes x)[8 * i + j]? = some (if b.getLsbD (7 - j) then 0x31#8 else 0x30#8) := by
  have hbit := getElem?_bitsOfBytes (x := x) (n := 8 * i + j) (b := b) (by rwa [show (8 * i + j) / 8 = i by omega])
  rw [show (8 * i + j) % 8 = j by omega] at hbit
  rw [dumpBytes, List.getElem?_map, hbit]
  rfl

/-- The first bytes and the one after them. -/
theorem take_add_one_of_getElem? {x : List Byte} {i : Nat} {b : Byte} (h : x[i]? = some b) :
    x.take (i + 1) = x.take i ++ [b] := by
  rw [List.take_add_one, h]
  rfl

section Dump

variable {s t : State} {n N : Nat} {out : List Byte} (hargs : s.ctx.args.wf = true) (hans : AnswersOk N s)
include hargs hans

theorem dumpText_yields (bs : Bits) (h : BytesOut s n out t) (hn : n + bs.length ≤ N) :
    Yields s (fun _ _ u => BytesOut s (n + bs.length) (out ++ bs.map bitText) u ∧ OnlyWriter t.eng u.eng)
      (roomFor s.ctx.cap (out.length + bs.length)) (dumpText bs t) := by
  induction bs generalizing n out t with
  | nil =>
    rw [List.length_nil, Nat.add_zero, Nat.add_zero, List.map_nil, List.append_nil, roomFor_of_le h.emitted.room]
    exact .ok ⟨h, .refl _⟩
  | cons b bs ih =>
    rw [List.length_cons] at hn ⊢
    refine (putByte_yields hargs hans h (by omega) (bitText b)).bind_room (fun hlt => roomFor_of_lt (by omega))
      fun _ u hu => ?_
    obtain ⟨hu, honly⟩ := hu
    have hrest := ih hu (by omega)
    rw [List.length_append, List.length_singleton, Nat.add_assoc out.length, Nat.add_assoc n, Nat.add_comm 1,
      List.append_assoc, List.singleton_append] at hrest
    exact hrest.mono fun _ _ v hv => ⟨hv.1, honly.trans hv.2⟩

/-- The dump loop over the bytes left (R231). -/
theorem dumpLoop_yields (hN : N = 9 * s.ctx.len.toNat) (m : Nat)
    (h : BytesOut s (9 * t.eng.k.toNat) (dumpBytes ((s.ctx.srcBytes s.mem).take t.eng.k.toNat)) t)
    (hm : t.eng.k.toNat + m = s.ctx.len.toNat) :
    Yields s (fun _ _ u => BytesOut s (9 * s.ctx.len.toNat) (dumpBytes (s.ctx.srcBytes s.mem)) u)
      (roomFor s.ctx.cap (8 * s.ctx.len.toNat)) (dumpLoop m t) := by
  have hlen := srcBytes_length s.ctx s.mem
  induction m generalizing t with
  | zero =>
    have hroom := h.emitted.room
    rw [Nat.add_zero] at hm
    rw [hm, List.take_of_length_le (Nat.le_of_eq hlen)] at h hroom
    rw [length_dumpBytes, hlen] at hroom
    rw [roomFor_of_le hroom]
    exact .ok h
  | succ m ih =>
    have hnext := toNat_add_one_of_lt (v := t.eng.k) (n := s.ctx.len) (by omega)
    obtain ⟨b, hb, hget⟩ := getByte_emitted hargs hans h.emitted (by omega) (i := t.eng.k) (by omega)
    have hread : BytesOut s (9 * t.eng.k.toNat + 1) _ (t.skipAnswers 1) := ⟨h.emitted.skipAnswers 1, h.outPos⟩
    have htext := dumpText_yields hargs hans (bitsOf 8 b.toNat) hread (by rw [bitsOf_length]; omega)
    rw [← dumpBytes_concat, ← take_add_one_of_getElem? hb, bitsOf_length, length_dumpBytes,
      List.length_take_of_le (by omega)] at htext
    rw [dumpLoop, hget, Res.bind_ok]
    refine htext.bind_room (fun hlt => roomFor_of_lt (by omega)) fun _ u hu => ?_
    obtain ⟨⟨hu, hpos⟩, honly⟩ := hu
    have hk : (u.setK (u.eng.k + 1)).eng.k.toNat = t.eng.k.toNat + 1 := by
      rw [State.setK_eng, honly]
      exact hnext
    refine ih (t := u.setK (u.eng.k + 1)) ?_ (by omega)
    rw [hk]
    exact ⟨hu.setEng _, hpos⟩

/-- DUMPBITS ends as its closed form says (R232). -/
theorem dumpbits_yields (hN : N = 9 * s.ctx.len.toNat) (hphase : s.phase = .xDump) :
    Yields s (fun out _ t => Completes s (9 * s.ctx.len.toNat) out t) (dumpOutcome (s.ctx.srcBytes s.mem) s.ctx.cap)
      (runPhases dumpbitsPhase mostPhases s) := by
  have hlen := srcBytes_length s.ctx s.mem
  have hloop := dumpLoop_yields hargs hans (t := (wInit s).setK 0) hN s.ctx.len.toNat ⟨(Emitted.start s).setEng _, rfl⟩
    (Nat.zero_add _)
  have hout : dumpOutcome (s.ctx.srcBytes s.mem) s.ctx.cap =
      (roomFor s.ctx.cap (8 * s.ctx.len.toNat)).bind fun _ => .ok (dumpBytes (s.ctx.srcBytes s.mem)) := by
    rw [dumpOutcome, roomFor, hlen]
    split <;> rfl
  refine Yields.runPhases_last ?_ fun out _ t ht => ?_
  · rw [dumpbitsPhase, hphase, hout]
    refine hloop.bind fun _ _ u hu => .ok ⟨u, hu.emitted, ?_⟩
    rw [hu.outPos]
  · obtain ⟨u, -, rfl⟩ := ht
    rfl

end Dump

/-- Settles O36: DUMPBITS ends as its closed form says (`dumpbits_yields`), whose byte 8 i + j is the text of bit 7 - j of
source byte i. -/
theorem dumpbitsWritesItsText : Obligations.DumpbitsWritesItsText := by
  unfold Obligations.DumpbitsWritesItsText
  intro s hrun hphase hlast hans
  have hlen := srcBytes_length s.ctx s.mem
  have hexec : exec .dumpbits s = (runPhases dumpbitsPhase mostPhases s).outcome :=
    (exec_lastStep hrun.busy hlast).trans (finish_eq _ _ s)
  obtain ⟨t, ht, hsame, hends, hcompletes⟩ :=
    (dumpbits_yields hrun.args hans rfl hphase).endsWith fun _ _ _ h => ⟨_, h⟩
  refine ⟨t, hexec.trans ht, hsame, hends, fun hroom => ?_⟩
  have hok : dumpOutcome (s.ctx.srcBytes s.mem) s.ctx.cap = .ok (dumpBytes (s.ctx.srcBytes s.mem)) :=
    if_neg (by omega)
  rw [hok] at hends
  obtain ⟨-, hregs, hbytes, -⟩ := hends
  rw [length_dumpBytes, hlen] at hregs hbytes
  refine ⟨?_, (hcompletes _ hok).answers, fun i j hi hj => ?_⟩
  · rw [hregs]
    exact Nat.mod_eq_of_lt (Nat.lt_of_le_of_lt hroom s.ctx.cap.isLt)
  · have hsrc : (s.ctx.srcBytes s.mem)[i]? = some (s.mem.read (s.ctx.src.toNat + i)) := getElem?_readBytes hi
    have hbyte := getElem?_dumpBytes hsrc hj
    rw [← hbytes, getElem?_readBytes (by omega), Option.some_inj] at hbyte
    exact hbyte

end Sys2Proof.Machine

namespace Sys2Proof.Machine

/-! ## Family 45_commands: COMPRESS (R225, R226) -/

/-! ### The writer (R121 to R125) -/

/-- The writer with a bit string written: the bytes it fills are out, the bits of the next one wait. -/
def packedWriter (p : Bits) : Writer :=
  ⟨byteAt p (p.length / 8), BitVec.ofNat 3 p.length, BitVec.ofNat 32 (p.length / 8)⟩

/-- Since `s`, `n` source bytes have been read and this bit string written (spec/40_bitstream.md R123). -/
structure BitsOut (s : State) (n : Nat) (p : Bits) (t : State) : Prop where
  emitted : Emitted s (n + p.length / 8) (wholeBytes p) t
  writer : t.eng.w = packedWriter p

theorem BitsOut.start {s t : State} {n : Nat} (h : Emitted s n [] t) : BitsOut s n [] (wInit t) := ⟨h.setEng _, rfl⟩

theorem BitsOut.room {s t : State} {n : Nat} {p : Bits} (h : BitsOut s n p t) : p.length / 8 ≤ s.ctx.cap.toNat := by
  rw [← length_wholeBytes]
  exact h.emitted.room

section Writer

variable {s t : State} {n N : Nat} (hargs : s.ctx.args.wf = true) (hans : AnswersOk N s)
include hargs hans

theorem putAcc_yields {out : List Byte} (h : BytesOut s n out t) (hn : n < N) :
    Yields s (fun _ _ u => Emitted s (n + 1) (out ++ [t.eng.w.acc]) u ∧
        u.eng.w = ⟨0, 0, BitVec.ofNat 32 (out.length + 1)⟩ ∧ OnlyWriter t.eng u.eng)
      (roomFor s.ctx.cap (out.length + 1)) (putAcc t) := by
  refine (putByte_yields hargs hans h hn t.eng.w.acc).bind_room roomFor_of_lt fun _ u hu => ?_
  obtain ⟨⟨hu, hpos⟩, honly⟩ := hu
  have hroom := hu.room
  rw [List.length_append, List.length_singleton] at hpos hroom
  rw [roomFor_of_le hroom]
  refine .ok ⟨hu.setEng _, ?_, ?_⟩
  · rw [← hpos]
    rfl
  · rw [State.setWriter_eng, honly]
    rfl

theorem writeBit_yields {p : Bits} (h : BitsOut s n p t) (hN : n + (p.length + 1) / 8 ≤ N) (b : Bool) :
    Yields s (fun _ _ u => BitsOut s n (p ++ [b]) u ∧ OnlyWriter t.eng u.eng) (roomFor s.ctx.cap ((p.length + 1) / 8))
      (writeBit b t) := by
  have hroom := h.room
  obtain ⟨h, hw⟩ := h
  have hwhole := wholeBytes_concat p b
  have hlen : (p ++ [b]).length = p.length + 1 := List.length_append
  rw [writeBit, hw, packedWriter, push_byteAt]
  by_cases hfull : p.length % 8 = 7
  · rw [if_pos hfull] at hwhole
    rw [if_pos (BitVec.eq_of_toNat_eq (by simp; omega)), show (p.length + 1) / 8 = p.length / 8 + 1 by omega]
    have hput := putAcc_yields hargs hans (t := t.setWriter ⟨byteAt (p ++ [b]) (p.length / 8), BitVec.ofNat 3 p.length,
      BitVec.ofNat 32 (p.length / 8)⟩) ⟨h.setEng _, by rw [length_wholeBytes]; rfl⟩ (by omega)
    rw [length_wholeBytes] at hput
    refine hput.mono fun _ _ u ⟨hu, hwriter, honly⟩ => ⟨⟨?_, ?_⟩, ?_⟩
    · rw [hlen, hwhole, show n + (p.length + 1) / 8 = n + p.length / 8 + 1 by omega]
      exact hu
    · have hnext : BitVec.ofNat 3 (p.length + 1) = 0 := BitVec.eq_of_toNat_eq (by simp; omega)
      rw [hwriter, packedWriter, hlen, hnext, byteAt_of_length_le (by omega),
        show (p.length + 1) / 8 = p.length / 8 + 1 by omega]
    · exact OnlyWriter.trans (show OnlyWriter t.eng { t.eng with w := _ } from rfl) honly
  · rw [if_neg hfull] at hwhole
    rw [if_neg fun h => hfull (by simpa using congrArg BitVec.toNat h), show (p.length + 1) / 8 = p.length / 8 by omega,
      roomFor_of_le hroom]
    refine .ok ⟨⟨?_, ?_⟩, rfl⟩
    · rw [hlen, hwhole, show (p.length + 1) / 8 = p.length / 8 by omega]
      exact h.setEng _
    · rw [packedWriter, hlen, show (p.length + 1) / 8 = p.length / 8 by omega, BitVec.ofNat_add]
      rfl

theorem writeString_yields {p : Bits} (bs : Bits) (h : BitsOut s n p t) (hN : n + (p.length + bs.length) / 8 ≤ N) :
    Yields s (fun _ _ u => BitsOut s n (p ++ bs) u ∧ OnlyWriter t.eng u.eng)
      (roomFor s.ctx.cap ((p.length + bs.length) / 8)) (writeString bs t) := by
  induction bs generalizing p t with
  | nil =>
    rw [List.append_nil, List.length_nil, Nat.add_zero, roomFor_of_le h.room]
    exact .ok ⟨h, .refl _⟩
  | cons b bs ih =>
    rw [List.length_cons, Nat.add_comm bs.length, ← Nat.add_assoc] at hN ⊢
    refine (writeBit_yields hargs hans h (by omega) b).bind_room (fun hlt => roomFor_of_lt (by omega)) fun _ u hu => ?_
    obtain ⟨hu, honly⟩ := hu
    have hrest := ih hu (by rw [List.length_append, List.length_singleton]; exact hN)
    rw [List.length_append, List.length_singleton, List.append_assoc, List.singleton_append] at hrest
    exact hrest.mono fun _ _ v hv => ⟨hv.1, honly.trans hv.2⟩

theorem flush_yields {p : Bits} (h : BitsOut s n p t) (hN : n + (p.length + 7) / 8 ≤ N) :
    Yields s (fun _ _ u => BytesOut s (n + (p.length + 7) / 8) (bytesOfBits p) u)
      (roomFor s.ctx.cap ((p.length + 7) / 8)) (flush t) := by
  have hroom := h.room
  obtain ⟨h, hw⟩ := h
  rw [flush, hw, packedWriter, bytesOfBits_eq_map_byteAt]
  by_cases hempty : p.length % 8 = 0
  · rw [if_pos (BitVec.eq_of_toNat_eq (by simpa using hempty)), show (p.length + 7) / 8 = p.length / 8 by omega,
      roomFor_of_le hroom]
    refine .ok ⟨h, ?_⟩
    rw [hw, List.length_map, List.length_range]
    rfl
  · rw [if_neg fun h => hempty (by simpa using congrArg BitVec.toNat h),
      show (p.length + 7) / 8 = p.length / 8 + 1 by omega, List.range_succ, List.map_append]
    have hput := putAcc_yields hargs hans (t := t) ⟨h, by rw [hw, length_wholeBytes]; rfl⟩ (by omega)
    rw [length_wholeBytes, hw] at hput
    refine hput.mono fun _ _ u ⟨hu, hwriter, _⟩ => ⟨hu, ?_⟩
    rw [hwriter, List.length_append, List.length_map, List.length_range]
    rfl

/-- SerNode writes the tree that the arena holds (R160). -/
theorem serNode_yields {tree : HuffTree} {lo hi depth : Nat} {i : BitVec 9} {p : Bits} (h : BitsOut s n p t)
    (htree : t.eng.Holds lo hi tree i) (hdepth : tree.depth < depth)
    (hN : n + (p.length + tree.serialize.length) / 8 ≤ N) :
    Yields s (fun _ _ u => BitsOut s n (p ++ tree.serialize) u ∧ OnlyWriter t.eng u.eng)
      (roomFor s.ctx.cap ((p.length + tree.serialize.length) / 8)) (serNode depth i t) := by
  obtain ⟨depth, rfl⟩ : ∃ d, depth = d + 1 := ⟨depth - 1, by omega⟩
  induction tree generalizing i p t depth with
  | leaf v =>
    obtain ⟨-, m, hm, hkind, rfl⟩ := htree
    rw [serNode]
    simp only [hm, hkind]
    exact writeString_yields hargs hans (true :: bitsOf Config.symW m.value.toNat) h hN
  | node l r ihl ihr =>
    obtain ⟨-, m, hm, hkind, hl, hr⟩ := htree
    simp only [HuffTree.depth] at hdepth
    obtain ⟨depth, rfl⟩ : ∃ d, depth = d + 1 := ⟨depth - 1, by omega⟩
    have hsum : (HuffTree.node l r).serialize.length = 1 + (l.serialize.length + r.serialize.length) := by
      rw [HuffTree.serialize, List.length_cons, List.length_append, Nat.add_comm]
    rw [hsum] at hN ⊢
    rw [serNode]
    simp only [hm, hkind]
    rw [Res.bind_assoc]
    refine (writeBit_yields hargs hans h (by omega) false).bind_room (fun hlt => roomFor_of_lt (by omega)) fun _ u hu => ?_
    obtain ⟨hu, hout⟩ := hu
    have hlenu : (p ++ [false]).length = p.length + 1 := List.length_append
    have hleft := ihl hu (hl.of_node (by rw [hout])) (by omega) depth (by omega)
    refine hleft.bind_room (fun hlt => roomFor_of_lt (by omega)) fun _ v hv => ?_
    obtain ⟨hv, houtv⟩ := hv
    have hlenv : (p ++ [false] ++ l.serialize).length = p.length + 1 + l.serialize.length := by
      rw [List.length_append, hlenu]
    have hright := ihr hv (hr.of_node (by rw [houtv, hout])) (by omega) depth (by omega)
    rw [hlenv, show p.length + 1 + l.serialize.length + r.serialize.length =
      p.length + (1 + (l.serialize.length + r.serialize.length)) by omega, List.append_assoc, List.append_assoc,
      List.singleton_append] at hright
    exact hright.mono fun _ _ w hw => ⟨hw.1, (hout.trans houtv).trans hw.2⟩

end Writer

/-! ### The phases (R141, R160, R180, R185) -/

section Phases

variable {s t : State} {n N : Nat} (hargs : s.ctx.args.wf = true) (hans : AnswersOk N s)
include hargs hans

/-- The counting loop reads the bytes left and counts them (R141). -/
theorem countLoop_yields (hN : s.ctx.len.toNat ≤ N) (m : Nat) (h : Emitted s t.eng.k.toNat [] t)
    (hm : t.eng.k.toNat + m = s.ctx.len.toNat) (hcounts : Counts ((s.ctx.srcBytes s.mem).take t.eng.k.toNat) t.eng) :
    Yields s (fun _ _ u => Emitted s s.ctx.len.toNat [] u ∧ Counts (s.ctx.srcBytes s.mem) u.eng)
      (roomFor s.ctx.cap 0) (countLoop m t) := by
  induction m generalizing t with
  | zero =>
    rw [Nat.add_zero] at hm
    rw [hm, List.take_of_length_le (Nat.le_of_eq (srcBytes_length ..))] at hcounts
    rw [hm] at h
    exact .ok ⟨h, hcounts⟩
  | succ m ih =>
    have hnext := toNat_add_one_of_lt (v := t.eng.k) (n := s.ctx.len) (by omega)
    obtain ⟨b, hb, hget⟩ := getByte_emitted hargs hans h (by omega) (i := t.eng.k) (by omega)
    have hk : ((t.skipAnswers 1).setEng { t.eng.count b with k := t.eng.k + 1 }).eng.k.toNat = t.eng.k.toNat + 1 := hnext
    rw [countLoop, hget, Res.bind_ok]
    refine ih (t := (t.skipAnswers 1).setEng { t.eng.count b with k := t.eng.k + 1 }) ?_ (by omega) ?_
    · rw [hk]
      exact (h.skipAnswers 1).setEng _
    · rw [hk, take_add_one_of_getElem? hb]
      exact hcounts.snoc b

/-- The encoding loop writes the codes of the bytes left (R185). -/
theorem encodeLoop_yields {tree : HuffTree} {rest : List Byte} {p : Bits}
    (h : BitsOut s (s.ctx.len.toNat + t.eng.k.toNat) p t) (hk : t.eng.k.toNat + rest.length = s.ctx.len.toNat)
    (hrest : (s.ctx.srcBytes s.mem).drop t.eng.k.toNat = rest) (hcodes : Codes tree (s.ctx.srcBytes s.mem) t.eng)
    (hN : 2 * s.ctx.len.toNat + (p.length + (payload tree rest).length) / 8 ≤ N) :
    Yields s (fun _ _ u => BitsOut s (2 * s.ctx.len.toNat) (p ++ payload tree rest) u)
      (roomFor s.ctx.cap ((p.length + (payload tree rest).length) / 8)) (encodeLoop rest.length t) := by
  induction rest generalizing t p with
  | nil =>
    rw [List.length_nil, Nat.add_zero] at hk
    rw [hk, ← Nat.two_mul] at h
    rw [payload, List.flatMap_nil, List.append_nil, List.length_nil, Nat.add_zero, roomFor_of_le h.room]
    exact .ok h
  | cons b rest ih =>
    rw [List.length_cons] at hk
    have hnext := toNat_add_one_of_lt (v := t.eng.k) (n := s.ctx.len) (by omega)
    have hhead : (s.ctx.srcBytes s.mem)[t.eng.k.toNat]? = some b := by
      rw [← List.head?_drop, hrest]
      rfl
    have hcode : payload tree (b :: rest) = (tree.code b).getD [] ++ payload tree rest := List.flatMap_cons
    rw [hcode, List.length_append, ← Nat.add_assoc] at hN ⊢
    obtain ⟨c, hc, hget⟩ := getByte_emitted hargs hans h.emitted (by omega) (i := t.eng.k) (by omega)
    obtain rfl : b = c := Option.some_inj.1 (hhead.symm.trans hc)
    obtain ⟨hvalid, hbits⟩ := hcodes b (List.mem_of_getElem? hhead)
    have hread : BitsOut s (s.ctx.len.toNat + (t.eng.k.toNat + 1)) p (t.skipAnswers 1) :=
      ⟨by have := h.emitted.skipAnswers 1; rwa [Nat.add_right_comm] at this, h.writer⟩
    have hstring := writeString_yields hargs hans ((tree.code b).getD []) hread (by omega)
    have hentry : ((t.skipAnswers 1).eng.codeEntry b).valid = true := hvalid
    have hwritten : ((t.skipAnswers 1).eng.codeEntry b).bits = (tree.code b).getD [] := hbits
    rw [List.length_cons, encodeLoop, hget, Res.bind_ok, if_pos hentry, hwritten]
    refine hstring.bind_room (fun hlt => roomFor_of_lt (by omega)) fun _ u ⟨hu, honly⟩ => ?_
    have hku : (u.setK (u.eng.k + 1)).eng.k.toNat = t.eng.k.toNat + 1 := by
      rw [State.setK_eng, honly]
      exact hnext
    have hloop := ih (t := u.setK (u.eng.k + 1)) (by rw [hku]; exact ⟨hu.emitted.setEng _, hu.writer⟩) (by omega)
      (by rw [hku, ← List.drop_drop, hrest, List.drop_one, List.tail_cons])
      (fun c hc => by
        have htable : (u.setK (u.eng.k + 1)).eng.codeEntry c = t.eng.codeEntry c := by
          rw [State.setK_eng, honly]
          rfl
        rw [htable]
        exact hcodes c hc)
      (by rw [List.length_append]; exact hN)
    rwa [List.length_append, List.append_assoc] at hloop

/-- Phase C_COUNT reads every source byte and leaves their counts. -/
theorem cCount_yields (hN : s.ctx.len.toNat ≤ N) :
    Yields s (fun _ _ u => u.phase = .cBuild ∧ Emitted s s.ctx.len.toNat [] u ∧ Counts (s.ctx.srcBytes s.mem) u.eng)
      (roomFor s.ctx.cap 0) (cCount s) := by
  have hcounts : Counts [] { s.eng with freq := .replicate 256 0, k := 0 } := fun b => by simp
  refine (countLoop_yields hargs hans hN s.ctx.len.toNat
    (t := s.setEng { s.eng with freq := .replicate 256 0, k := 0 }) ((Emitted.start s).setEng _) (Nat.zero_add _)
    hcounts).bind_room nofun fun _ u ⟨hu, hcounts⟩ => .ok ⟨rfl, hu.setPhase _, hcounts⟩

omit hargs hans in
/-- Phase C_BUILD leaves the tree in the arena. -/
theorem cBuild_yields (h : Emitted s n [] t) (hcounts : Counts (s.ctx.srcBytes s.mem) t.eng) :
    Yields s (fun _ _ u => u.phase = .cHeader ∧ Emitted s n [] u ∧ HoldsTree (s.ctx.srcBytes s.mem) u.eng)
      (roomFor s.ctx.cap 0) (cBuild t) := by
  obtain ⟨e, he, htree⟩ := buildArena_holds (by rw [srcBytes_length]; exact s.ctx.len.isLt) hcounts
  rw [cBuild, he]
  exact .ok ⟨rfl, (h.setEng _).setPhase _, _, htree⟩

/-- Phase C_HEADER writes the length. -/
theorem cHeader_yields {x : List Byte} (h : Emitted s n [] t) (htree : HoldsTree x t.eng) (hN : n + 4 ≤ N) :
    Yields s (fun _ _ u => u.phase = .cTree ∧ BitsOut s n (bitsOf 32 s.ctx.len.toNat) u ∧ HoldsTree x u.eng)
      (roomFor s.ctx.cap 4) (cHeader t) := by
  have hstring := writeString_yields hargs hans (bitsOf 32 s.ctx.len.toNat) (BitsOut.start h)
    (by rw [bitsOf_length, List.length_nil]; exact hN)
  rw [bitsOf_length, List.nil_append] at hstring
  rw [cHeader, h.ctx]
  refine hstring.bind_room roomFor_of_lt fun _ u ⟨hu, honly⟩ => ?_
  rw [roomFor_of_le (n := 4) (by have := hu.room; rwa [bitsOf_length] at this)]
  refine .ok ⟨rfl, ⟨hu.emitted.setPhase _, hu.writer⟩, htree.of_same ?_ ?_⟩ <;>
    rw [State.setPhase_eng, honly, wInit_eng]

/-- Phase C_TREE writes the tree. -/
theorem cTree_yields {x : List Byte} {p : Bits} (h : BitsOut s n p t) (htree : HoldsTree x t.eng)
    (hN : n + (p.length + (buildTree x).serialize.length) / 8 ≤ N) :
    Yields s (fun _ _ u => u.phase = .cDerive ∧ BitsOut s n (p ++ (buildTree x).serialize) u ∧ HoldsTree x u.eng)
      (roomFor s.ctx.cap ((p.length + (buildTree x).serialize.length) / 8)) (cTree t) := by
  have hdepth := buildTree_depth x
  obtain ⟨m, hm⟩ := htree
  refine (serNode_yields hargs hans h hm (Nat.lt_of_le_of_lt hdepth (by decide)) hN).bind_room roomFor_of_lt
    fun _ u ⟨hu, honly⟩ => ?_
  have hroom := hu.room
  rw [List.length_append] at hroom
  rw [roomFor_of_le hroom]
  refine .ok ⟨rfl, ⟨hu.emitted.setPhase _, hu.writer⟩, HoldsTree.of_same ⟨m, hm⟩ ?_ ?_⟩ <;>
    rw [State.setPhase_eng, honly]

omit hargs hans in
/-- Phase C_DERIVE leaves the code table. -/
theorem cDerive_yields {x : List Byte} {p : Bits} (h : BitsOut s n p t) (htree : HoldsTree x t.eng) :
    Yields s (fun _ _ u => u.phase = .cEncode ∧ BitsOut s n p u ∧ Codes (buildTree x) x u.eng)
      (roomFor s.ctx.cap 0) (cDerive t) := by
  have hdepth := buildTree_depth x
  obtain ⟨m, hm⟩ := htree
  rw [cDerive, derive_of_holds (e := t.eng.clearCodes) (hm.of_node rfl) (Nat.lt_of_le_of_lt hdepth (by decide))]
  refine .ok ⟨rfl, ⟨(h.emitted.setEng _).setPhase _, ?_⟩, codes_setCodes x _⟩
  rw [State.setPhase_eng, State.setEng_eng, setCodes_eq]
  exact h.writer

/-- Phase C_ENCODE writes the payload. -/
theorem cEncode_yields {tree : HuffTree} {p : Bits} (h : BitsOut s s.ctx.len.toNat p t)
    (hcodes : Codes tree (s.ctx.srcBytes s.mem) t.eng)
    (hN : 2 * s.ctx.len.toNat + (p.length + (payload tree (s.ctx.srcBytes s.mem)).length) / 8 ≤ N) :
    Yields s (fun _ _ u => u.phase = .cFlush ∧
        BitsOut s (2 * s.ctx.len.toNat) (p ++ payload tree (s.ctx.srcBytes s.mem)) u)
      (roomFor s.ctx.cap ((p.length + (payload tree (s.ctx.srcBytes s.mem)).length) / 8)) (cEncode t) := by
  have hlen := srcBytes_length s.ctx s.mem
  have hloop := encodeLoop_yields hargs hans (t := t.setK 0) (rest := s.ctx.srcBytes s.mem) (p := p)
    ⟨h.emitted.setEng _, h.writer⟩ (by rw [hlen]; exact Nat.zero_add _) rfl hcodes hN
  rw [hlen] at hloop
  rw [cEncode, h.emitted.ctx]
  refine hloop.bind_room roomFor_of_lt fun _ u hu => ?_
  have hroom := hu.room
  rw [List.length_append] at hroom
  rw [roomFor_of_le hroom]
  exact .ok ⟨rfl, hu.emitted.setPhase _, hu.writer⟩

/-- Phase C_FLUSH pads the last byte and completes. -/
theorem cFlush_yields {p : Bits} (h : BitsOut s n p t) (hN : n + (p.length + 7) / 8 ≤ N) :
    Yields s (fun out _ u => Completes s (n + out.length) out u)
      ((roomFor s.ctx.cap ((p.length + 7) / 8)).bind fun _ => .ok (bytesOfBits p)) (cFlush t) := by
  refine (flush_yields hargs hans h hN).bind fun _ _ u hu => .ok ⟨u, ?_, ?_⟩
  · rw [bytesOfBits_length]
    exact hu.emitted
  · rw [hu.outPos]

/-- COMPRESS ends as its closed form says (R226). -/
theorem compress_yields (hphase : s.phase = .cCount)
    (hN : N = 2 * s.ctx.len.toNat + (compressBytes (s.ctx.srcBytes s.mem)).length) :
    Yields s (fun out _ t => Completes s (2 * s.ctx.len.toNat + out.length) out t)
      (compressOutcome (s.ctx.srcBytes s.mem) s.ctx.cap) (runPhases compressPhase mostPhases s) := by
  have hlen := srcBytes_length s.ctx s.mem
  revert hN
  generalize hx : s.ctx.srcBytes s.mem = x at hlen ⊢
  intro hN
  have hbits : containerBits x = bitsOf 32 s.ctx.len.toNat ++ (buildTree x).serialize ++ payload (buildTree x) x := by
    rw [containerBits, hlen, List.append_assoc]
  have hbytes : (compressBytes x).length = (32 + (buildTree x).serialize.length + (payload (buildTree x) x).length + 7) / 8 := by
    rw [compressBytes, bytesOfBits_length, hbits, List.length_append, List.length_append, bitsOf_length]
  have hfull : ∀ m, m ≤ (compressBytes x).length → s.ctx.cap.toNat < m →
      compressOutcome x s.ctx.cap = .error (.ioDstFull, s.ctx.cap) := fun m hm hlt => if_pos (by omega)
  have hout : compressOutcome x s.ctx.cap =
      (roomFor s.ctx.cap (compressBytes x).length).bind fun _ => .ok (compressBytes x) := by
    rw [compressOutcome, roomFor]
    split <;> rfl
  refine Yields.runPhases_next (q := .cBuild) (by
    rw [compressPhase_cCount hphase]; exact cCount_yields hargs hans (by omega)) (by decide) (hfull _ (by omega))
    fun t1 hp1 hQ => ?_
  obtain ⟨h1, hcounts⟩ := hQ
  refine Yields.runPhases_next (q := .cHeader) (by
    rw [compressPhase_cBuild hp1]; exact cBuild_yields h1 hcounts) (by decide) (hfull _ (by omega))
    fun t2 hp2 hQ => ?_
  obtain ⟨h2, htree2⟩ := hQ
  rw [hx] at htree2
  refine Yields.runPhases_next (q := .cTree) (by
    rw [compressPhase_cHeader hp2]; exact cHeader_yields hargs hans h2 htree2 (by omega)) (by decide) (hfull _ (by omega))
    fun t3 hp3 hQ => ?_
  obtain ⟨h3, htree3⟩ := hQ
  refine Yields.runPhases_next (q := .cDerive) (by
    rw [compressPhase_cTree hp3]; exact cTree_yields hargs hans h3 htree3 (by rw [bitsOf_length]; omega)) (by decide)
    (hfull _ (by rw [bitsOf_length]; omega)) fun t4 hp4 hQ => ?_
  obtain ⟨h4, htree4⟩ := hQ
  refine Yields.runPhases_next (q := .cEncode) (by
    rw [compressPhase_cDerive hp4]; exact cDerive_yields h4 htree4) (by decide) (hfull _ (by omega))
    fun t5 hp5 hQ => ?_
  obtain ⟨h5, hcodes⟩ := hQ
  have hlen5 : (bitsOf 32 s.ctx.len.toNat ++ (buildTree x).serialize).length = 32 + (buildTree x).serialize.length := by
    rw [List.length_append, bitsOf_length]
  have hencode := cEncode_yields hargs hans (tree := buildTree x) h5 (by rwa [hx]) (by rw [hx, hlen5]; omega)
  rw [hx, hlen5] at hencode
  refine Yields.runPhases_next (q := .cFlush) (by
    rw [compressPhase_cEncode hp5]; exact hencode) (by decide) (hfull _ (by omega)) fun t6 hp6 h6 => ?_
  rw [← hbits] at h6
  refine Yields.runPhases_last ?_ fun out _ u ⟨w, _, hu⟩ => by rw [hu, complete_phase]
  rw [compressPhase_cFlush hp6, hout, compressBytes, bytesOfBits_length]
  refine cFlush_yields hargs hans h6 ?_
  rw [compressBytes, bytesOfBits_length] at hN
  omega

end Phases

/-- Settles O31, by `compress_yields`. -/
theorem compressWritesItsContainer : Obligations.CompressWritesItsContainer := by
  unfold Obligations.CompressWritesItsContainer
  intro s hrun hphase hlast hans
  have hexec : exec .compress s = (runPhases compressPhase mostPhases s).outcome :=
    (exec_lastStep hrun.busy hlast).trans (finish_eq _ _ s)
  obtain ⟨t, ht, hsame, hends, hcompletes⟩ :=
    (compress_yields hrun.args hans hphase rfl).endsWith fun _ _ _ h => ⟨_, h⟩
  refine ⟨t, hexec.trans ht, hsame, hends, fun hdone => ?_⟩
  rw [compressOutcome] at hends hcompletes
  split at hends
  · obtain ⟨-, hregs, -⟩ := hends
    simp [hregs] at hdone
  · next hroom =>
    obtain ⟨-, hregs, -⟩ := hends
    have hcap := s.ctx.cap.isLt
    have hlength : t.regs.resultLen.toNat = (compressBytes (s.ctx.srcBytes s.mem)).length := by
      rw [hregs]
      exact Nat.mod_eq_of_lt (by omega)
    rw [hlength]
    exact (hcompletes _ (if_neg hroom)).answers

end Sys2Proof.Machine

namespace Sys2Proof.Machine

/-! ## Family 45_commands: DECOMPRESS (R228, R229) -/

/-! ### The reader (R126 to R128) -/

/-- A running command has not written its source buffer (spec/45_commands.md R222). -/
theorem Kept.srcBytes_eq {s t : State} (hargs : s.ctx.args.wf = true) (h : Kept s t) :
    t.ctx.srcBytes t.mem = s.ctx.srcBytes s.mem := by
  rw [h.ctx]
  refine List.map_congr_left fun i hi => h.outside _ fun hin => ?_
  have hlt := List.mem_range.1 hi
  exact CmdArgs.wf_disjoint hargs ⟨Nat.le_add_right .., Nat.add_lt_add_left hlt _⟩ hin

/-- Since `s`, `n` bits of the source have been read, `rest` being left, and these symbols written, each of at least one
bit. -/
structure BitsIn (s : State) (n : Nat) (rest : Bits) (out : List Byte) (t : State) : Prop where
  emitted : Emitted s ((n + 7) / 8 + out.length) out t
  reader : ReaderAt (s.ctx.srcBytes s.mem) n t.eng.r
  left : (sourceBits s).drop n = rest
  symbols : out.length ≤ n

namespace BitsIn

variable {s t : State} {n : Nat} {rest : Bits} {out : List Byte}

theorem setEng (h : BitsIn s n rest out t) {e : Engine} (he : e.r = t.eng.r) : BitsIn s n rest out (t.setEng e) :=
  ⟨h.emitted.setEng e, he ▸ h.reader, h.left, h.symbols⟩

theorem setPhase (h : BitsIn s n rest out t) (p : Phase) : BitsIn s n rest out (t.setPhase p) :=
  ⟨h.emitted.setPhase p, h.reader, h.left, h.symbols⟩

theorem length_left (h : BitsIn s n rest out t) : n + rest.length = 8 * s.ctx.len.toNat := by
  have hwithin := h.reader.within
  rw [srcBytes_length] at hwithin
  rw [← h.left, List.length_drop, length_sourceBits]
  omega

end BitsIn

section Reading

variable {s t : State} {n N : Nat} {rest : Bits} {out : List Byte} (hargs : s.ctx.args.wf = true)
  (hans : AnswersOk N s) (hN : N = 9 * s.ctx.len.toNat)
include hargs hans hN

theorem readBit_bitsIn {b : Bool} (h : BitsIn s n (b :: rest) out t) :
    ∃ u, readBit t = .ok (some b) u ∧ BitsIn s (n + 1) rest out u ∧ OnlyReader t.eng u.eng := by
  have hlength := h.length_left
  rw [List.length_cons] at hlength
  obtain ⟨h, hreader, hleft, hsymbols⟩ := h
  have hsource := h.kept.srcBytes_eq hargs
  have hanswers : AnswersOk ((n + 1 + 7) / 8 - (n + 7) / 8) t := (h.answersOk hans).mono (by omega)
  have hctx := h.ctx
  obtain ⟨c, r, hread, hbit, hreader'⟩ := readBit_readerAt (s := t) (n := n) (by rw [hctx]; exact CmdArgs.wf_src hargs)
    (by rwa [hsource]) (by rw [hctx]; omega) hanswers
  have hnext : (sourceBits s)[n]? = some b := by
    rw [← List.head?_drop, hleft]
    rfl
  rw [sourceBits, hsource] at hbit
  obtain rfl : c = b := Option.some_inj.1 (hbit.symm.trans hnext)
  refine ⟨_, hread, ⟨?_, by rwa [hsource] at hreader', ?_, by omega⟩, rfl⟩
  · have hskip := h.skipAnswers ((n + 1 + 7) / 8 - (n + 7) / 8)
    rw [show (n + 7) / 8 + out.length + ((n + 1 + 7) / 8 - (n + 7) / 8) = (n + 1 + 7) / 8 + out.length by omega] at hskip
    exact hskip.setEng _
  · rw [← List.drop_drop, hleft, List.drop_one, List.tail_cons]

omit hans hN in
theorem readBit_bitsIn_nil (h : BitsIn s n [] out t) : readBit t = .ok none t := by
  have hlength := h.length_left
  refine readBit_eos ?_
  rw [h.emitted.kept.srcBytes_eq hargs, h.emitted.ctx, ← hlength]
  exact h.reader

/-- ReadBits with enough bits left (R128). -/
theorem readBitsFrom_bitsIn (m : Nat) {v : Nat} (h : BitsIn s n rest out t) (hm : m ≤ rest.length) :
    ∃ u, readBitsFrom m (BitVec.ofNat 32 v) t = .ok (some (BitVec.ofNat 32 (natFrom v (rest.take m)))) u ∧
      BitsIn s (n + m) (rest.drop m) out u ∧ OnlyReader t.eng u.eng := by
  induction m generalizing n v rest t with
  | zero => exact ⟨t, rfl, h, .refl _⟩
  | succ m ih =>
    cases rest with
    | nil => simp at hm
    | cons b rest =>
      obtain ⟨u, hread, hu, honly⟩ := readBit_bitsIn hargs hans hN h
      obtain ⟨w, hreads, hw, honly'⟩ := ih (v := 2 * v + b.toNat) hu (by rw [List.length_cons] at hm; omega)
      refine ⟨w, ?_, ?_, honly.trans honly'⟩
      · rw [readBitsFrom, hread, Res.bind_ok]
        dsimp only
        rw [shiftLeft_or_ofBool, hreads]
        rfl
      · rw [show n + (m + 1) = n + 1 + m by omega]
        exact hw

/-- ReadBits with too few bits left (R128). -/
theorem readBitsFrom_bitsIn_short (m : Nat) {v : Nat} (h : BitsIn s n rest out t) (hm : rest.length < m) :
    ∃ u, readBitsFrom m (BitVec.ofNat 32 v) t = .ok none u ∧ Kept s u := by
  induction m generalizing n v rest t with
  | zero => omega
  | succ m ih =>
    rw [readBitsFrom]
    cases rest with
    | nil =>
      rw [readBit_bitsIn_nil hargs h]
      exact ⟨t, rfl, h.emitted.kept⟩
    | cons b rest =>
      obtain ⟨u, hread, hu, -⟩ := readBit_bitsIn hargs hans hN h
      rw [hread, Res.bind_ok]
      dsimp only
      rw [shiftLeft_or_ofBool]
      exact ih hu (by rw [List.length_cons] at hm; omega)

theorem readBits_bitsIn (m : Nat) (h : BitsIn s n rest out t) (hm : m ≤ rest.length) :
    ∃ u, readBits m t = .ok (some (BitVec.ofNat 32 (natOfBE (rest.take m)))) u ∧
      BitsIn s (n + m) (rest.drop m) out u ∧ OnlyReader t.eng u.eng :=
  readBitsFrom_bitsIn hargs hans hN m (v := 0) h hm

theorem readBits_bitsIn_short (m : Nat) (h : BitsIn s n rest out t) (hm : rest.length < m) :
    ∃ u, readBits m t = .ok none u ∧ Kept s u :=
  readBitsFrom_bitsIn_short hargs hans hN m (v := 0) h hm

end Reading

/-! ### DesNode (R162, R164) -/

theorem desTree_node {n used : Nat} {isRoot : Bool} (s : Bits) (h : used ≠ Config.nodeCap) :
    desTree (n + 1) isRoot used (false :: s) =
      (desTree n false (used + 1) s).bind fun l => (desTree n false l.2.1 l.2.2).bind fun r =>
        .ok (.node l.1 r.1, r.2.1, r.2.2) := by
  rw [desTree, Bool.and_false, if_neg Bool.false_ne_true, if_neg h, if_neg Bool.false_ne_true]
  cases desTree n false (used + 1) s with
  | error e => rfl
  | ok l =>
    show _ = (desTree n false l.2.1 l.2.2).bind _
    dsimp only
    cases desTree n false l.2.1 l.2.2 <;> rfl

section Trees

variable {s t : State} {n N : Nat} {rest : Bits} (hargs : s.ctx.args.wf = true)
  (hans : AnswersOk N s) (hN : N = 9 * s.ctx.len.toNat)
include hargs hans hN

/-- DesNode reads the tree that `desTree` reads, or raises its error. -/
theorem desNode_yields (depth : Nat) {m : Nat} (isRoot : Bool) (h : BitsIn s n rest [] t) (hm : rest.length ≤ m)
    (hfits : t.eng.nodeCount.toNat ≤ Config.nodeCap) (hdepth : Config.nodeCap < depth + t.eng.nodeCount.toNat) :
    Yields s (fun p i u => ∃ n', n ≤ n' ∧ BitsIn s n' p.2.2 [] u ∧ TreeRead t.eng p.1 p.2.1 i u.eng)
      (desTree m isRoot t.eng.nodeCount.toNat rest) (desNode depth isRoot t) := by
  induction depth generalizing isRoot m n rest t with
  | zero => omega
  | succ depth ih =>
    rw [desNode]
    cases rest with
    | nil =>
      rw [readBit_bitsIn_nil hargs h, desTree_nil]
      exact .raised h.emitted.kept
    | cons b rest =>
      obtain ⟨m, rfl⟩ : ∃ k, m = k + 1 := ⟨m - 1, by simp at hm; omega⟩
      rw [List.length_cons] at hm
      obtain ⟨u, hread, hu, honly⟩ := readBit_bitsIn hargs hans hN h
      have hcount : u.eng.nodeCount = t.eng.nodeCount := by rw [honly]
      have hcountNat := congrArg BitVec.toNat hcount
      rw [hread, Res.bind_ok, ← hcount]
      dsimp only
      by_cases hroot : (isRoot && b) = true
      · rw [desTree, if_pos hroot, if_pos hroot]
        exact .raised hu.emitted.kept
      · by_cases hfull : u.eng.nodeCount.toNat = Config.nodeCap
        · rw [desTree, if_neg hroot, if_neg hroot, if_pos hfull, if_pos hfull]
          exact .raised hu.emitted.kept
        · have hlt : u.eng.nodeCount.toNat < Config.nodeCap := by
            rw [hcount] at hfull ⊢
            exact Nat.lt_of_le_of_ne hfits hfull
          have hnext : (allocNode u).eng.nodeCount.toNat = u.eng.nodeCount.toNat + 1 := nodeCount_add_one_toNat hlt
          have halloc : BitsIn s (n + 1) rest [] (allocNode u) := hu.setEng rfl
          rw [if_neg hroot, if_neg hfull]
          cases b with
          | true =>
            rw [desTree, if_neg hroot, if_neg hfull, if_pos rfl, if_pos rfl]
            by_cases hshort : rest.length < 8
            · obtain ⟨w, hreads, hw⟩ := readBits_bitsIn_short hargs hans hN Config.symW halloc hshort
              rw [if_pos hshort, hreads]
              exact .raised hw
            · obtain ⟨w, hreads, hw, honly'⟩ := readBits_bitsIn hargs hans hN Config.symW halloc (Nat.not_lt.1 hshort)
              have hleaf := treeRead_leaf (d := u.eng) (e := w.eng) hlt (by rw [honly']; rfl) (by rw [honly']; rfl)
                (by rw [honly']; rfl) (by rw [honly']; rfl) (BitVec.ofNat 8 (natOfBE (rest.take 8)))
              have hvalue : (BitVec.ofNat 32 (natOfBE (rest.take Config.symW))).setWidth 8 =
                BitVec.ofNat 8 (natOfBE (rest.take 8)) := by simp [Config.symW]
              rw [if_neg hshort, hreads, Res.bind_ok]
              dsimp only
              rw [hvalue]
              refine .ok ⟨_, ?_, hw.setEng ?_, hleaf.of_onlyReader honly⟩
              · omega
              · rw [Engine.setLeaf, updNode_reader]
          | false =>
            rw [desTree_node rest hfull, if_neg Bool.false_ne_true, ← hnext]
            refine (ih false halloc (by omega) (by omega) (by omega)).bind fun l i u1 ⟨n1, hn1, h1, hl⟩ => ?_
            have hlength := halloc.length_left
            have hlength1 := h1.length_left
            have hgrows := hl.grows
            rw [← hl.nodeCount] at hgrows ⊢
            refine (ih false h1 (by omega) (hl.nodeCount ▸ hl.fits) (by omega)).bind fun r j u2 ⟨n2, hn2, h2, hr⟩ => ?_
            have hnode := treeRead_node (d := u.eng) (e := (allocNode u).eng) hlt rfl rfl rfl rfl hl hr
            refine .ok ⟨n2, by omega, h2.setEng ?_, hnode.of_onlyReader honly⟩
            rw [Engine.setInternal, updNode_reader]

end Trees

end Sys2Proof.Machine

namespace Sys2Proof.Machine

/-! ### The decode loop (R200, R201, R204) -/

/-- The outcome of decoding, by the symbols that the bits hold, of so many wanted (spec/45_commands.md R229). -/
def decodeOutcome (cap : Word) (count : Nat) (d : List Byte) : Except (ErrCode × Word) (List Byte) :=
  if cap.toNat < d.length then .error (.ioDstFull, cap)
  else if d.length < count then .error (.fmtPayloadEos, BitVec.ofNat 32 d.length)
  else .ok d

theorem HuffTree.walkSymbols_of_walk_none {tree : HuffTree} {bits : Bits} (n : Nat) (h : tree.walk bits = none) :
    tree.walkSymbols (n + 1) bits = [] := by
  rw [walkSymbols, h]

theorem HuffTree.walkSymbols_of_walk_some {tree : HuffTree} {bits rest : Bits} {v : Byte} (n : Nat)
    (h : tree.walk bits = some (v, rest)) : tree.walkSymbols (n + 1) bits = v :: tree.walkSymbols n rest := by
  rw [walkSymbols, h]

/-- A walk that starts with internal state `d` has read `n` source bits at least when it ends: at a leaf, or for want of
bits. -/
inductive WalkEnd (s : State) (n : Nat) (out : List Byte) (d : Engine) :
    Option (Byte × Bits) → Res (Option Byte) → Prop where
  | leaf {v : Byte} {rest : Bits} {n' : Nat} {u : State} (hn : n ≤ n') (h : BitsIn s n' rest out u)
      (honly : OnlyReader d u.eng) : WalkEnd s n out d (some (v, rest)) (.ok (some v) u)
  | eos {u : State} (h : Kept s u) (honly : OnlyReader d u.eng) : WalkEnd s n out d none (.ok none u)

theorem WalkEnd.after {s : State} {m n : Nat} {out : List Byte} {d e : Engine} {w : Option (Byte × Bits)}
    {x : Res (Option Byte)} (h : WalkEnd s n out e w x) (hmn : m ≤ n) (hde : OnlyReader d e) : WalkEnd s m out d w x := by
  cases h with
  | leaf hn h honly => exact .leaf (Nat.le_trans hmn hn) h (hde.trans honly)
  | eos h honly => exact .eos h (hde.trans honly)

section Decoding

variable {s t : State} {n N : Nat} {rest : Bits} {out : List Byte} (hargs : s.ctx.args.wf = true)
  (hans : AnswersOk N s) (hN : N = 9 * s.ctx.len.toNat)
include hargs hans hN

/-- A walk down the arena is the walk down the tree it holds, and takes a bit at least when the root is internal. -/
theorem walkArena_walkEnd {tree : HuffTree} {lo hi steps : Nat} {i : BitVec 9} (h : BitsIn s n rest out t)
    (htree : t.eng.Holds lo hi tree i) (hsteps : 8 * s.ctx.len.toNat < steps + n) :
    WalkEnd s (n + tree.isInternal.toNat) out t.eng (tree.walk rest) (walkArena steps i t) := by
  have hlength := h.length_left
  obtain ⟨steps, rfl⟩ : ∃ m, steps = m + 1 := ⟨steps - 1, by omega⟩
  induction tree generalizing i n rest steps t with
  | leaf v =>
    obtain ⟨-, m, hm, hkind, rfl⟩ := htree
    simp only [walkArena, hm, hkind]
    exact .leaf (Nat.le_refl n) h (.refl _)
  | node l r ihl ihr =>
    obtain ⟨-, m, hm, hkind, hl, hr⟩ := htree
    simp only [walkArena, hm, hkind]
    cases rest with
    | nil =>
      rw [readBit_bitsIn_nil hargs h]
      exact .eos h.emitted.kept (.refl _)
    | cons b rest =>
      obtain ⟨u, hread, hu, honly⟩ := readBit_bitsIn hargs hans hN h
      have hnode : u.eng.node = t.eng.node := by rw [honly]
      have hlength' := hu.length_left
      obtain ⟨steps, rfl⟩ : ∃ m, steps = m + 1 := ⟨steps - 1, by omega⟩
      rw [hread, Res.bind_ok]
      cases b with
      | false => exact (ihl hu (hl.of_node hnode) hlength' steps (by omega)).after (Nat.le_add_right ..) honly
      | true => exact (ihr hu (hr.of_node hnode) hlength' steps (by omega)).after (Nat.le_add_right ..) honly

/-- The decode loop decodes the symbols that are left (R201). -/
theorem decodeLoop_yields {tree : HuffTree} {lo hi : Nat} (m : Nat) (h : BitsIn s n rest out t)
    (htree : t.eng.Holds lo hi tree t.eng.root) (hinternal : tree.isInternal = true)
    (hpos : t.eng.w.outPos = BitVec.ofNat 32 out.length) (hsym : t.eng.sym = BitVec.ofNat 32 out.length) :
    Yields s (fun d _ u => ∃ k, Emitted s k d u ∧ u.eng.symCount = t.eng.symCount)
      (decodeOutcome s.ctx.cap (out.length + m) (out ++ tree.walkSymbols m rest)) (decodeLoop m t) := by
  have hroom := h.emitted.room
  induction m generalizing n rest out t with
  | zero =>
    rw [HuffTree.walkSymbols, List.append_nil, Nat.add_zero, decodeOutcome, if_neg (by omega), if_neg (by omega)]
    exact .ok ⟨_, h.emitted, rfl⟩
  | succ m ih =>
    have hsteps : 8 * s.ctx.len.toNat < bitBound t + n := by
      rw [bitBound, h.emitted.ctx]
      omega
    have hwalk := walkArena_walkEnd hargs hans hN h htree hsteps
    rw [hinternal] at hwalk
    rw [decodeLoop]
    revert hwalk
    generalize hw : tree.walk rest = w, walkArena (bitBound t) t.eng.root t = x
    rintro (⟨hn, hu, honly⟩ | ⟨hu, honly⟩)
    · next v rest' n' u =>
      have hn' : n + 1 ≤ n' := hn
      have hlength := hu.length_left
      have hsymbols := h.symbols
      have hput := putByte_yields hargs hans ⟨hu.emitted, by rw [honly]; exact hpos⟩ (by omega) v
      rw [HuffTree.walkSymbols_of_walk_some m hw]
      refine hput.bind_room (fun hlt => if_pos (by simp; omega)) fun _ y ⟨⟨hy, hpos'⟩, hwriter⟩ => ?_
      have hsame : y.eng.node = t.eng.node ∧ y.eng.root = t.eng.root ∧ y.eng.sym = t.eng.sym ∧
          y.eng.symCount = t.eng.symCount ∧ y.eng.r = u.eng.r := by
        rw [hwriter, honly]
        exact ⟨rfl, rfl, rfl, rfl, rfl⟩
      obtain ⟨hnode, hroot, hsym', hcount, hr⟩ := hsame
      have hnext : BitsIn s n' rest' (out ++ [v]) (y.setSym (y.eng.sym + 1)) := by
        refine ⟨?_, ?_, hu.left, by rw [List.length_append, List.length_singleton]; omega⟩
        · rw [List.length_append, List.length_singleton, ← Nat.add_assoc]
          exact hy.setEng _
        · rw [State.setSym_eng, hr]
          exact hu.reader
      have hloop := ih hnext (by rw [State.setSym_eng, hroot]; exact htree.of_node hnode) hpos' (by
        rw [State.setSym_eng, hsym', hsym, List.length_append, BitVec.ofNat_add]; rfl) hnext.emitted.room
      rw [List.append_assoc, List.singleton_append, List.length_append, List.length_singleton, Nat.add_assoc,
        Nat.add_comm 1] at hloop
      exact hloop.mono fun d _ z ⟨k, hz, hzcount⟩ => ⟨k, hz, hzcount.trans hcount⟩
    · next u =>
      have hsym' : u.eng.sym = BitVec.ofNat 32 out.length := by rw [honly]; exact hsym
      rw [HuffTree.walkSymbols_of_walk_none m hw, List.append_nil, decodeOutcome, if_neg (by omega), if_pos (by omega),
        ← hsym']
      exact .raised hu

end Decoding

end Sys2Proof.Machine

namespace Sys2Proof.Machine

/-! ### The phases of DECOMPRESS (R228) -/

/-- A computation that only takes the value of the first part on. -/
theorem Yields.map {α β γ : Type} {s : State} {Q : β → α → State → Prop} {R : β → γ → State → Prop}
    {e : Except (ErrCode × Word) β} {x : Res α} {f : α → State → Res γ} (h : Yields s Q e x)
    (hf : ∀ b a t, e = .ok b → Q b a t → Yields s R (.ok b) (f a t)) : Yields s R e (x.bind f) := by
  cases h with
  | ok h => exact hf _ _ _ rfl h
  | raised h => exact .raised h

/-- A leaf is rejected as the root (R164). -/
theorem isInternal_of_desTree {n used : Nat} {s : Bits} {p : HuffTree × Nat × Bits}
    (h : desTree n true used s = .ok p) : p.1.isInternal = true := by
  cases n with
  | zero => cases h
  | succ n =>
    cases s with
    | nil => cases h
    | cons b s =>
      cases b with
      | true => cases h
      | false =>
        by_cases hfull : used = Config.nodeCap
        · rw [desTree, Bool.and_false, if_neg Bool.false_ne_true, if_pos hfull] at h
          cases h
        · rw [desTree_node s hfull] at h
          cases hl : desTree n false (used + 1) s with
          | error e => rw [hl] at h; cases h
          | ok l =>
            rw [hl] at h
            change (desTree n false l.2.1 l.2.2).bind _ = _ at h
            cases hr : desTree n false l.2.1 l.2.2 with
            | error e => rw [hr] at h; cases h
            | ok r => rw [hr] at h; cases h; rfl

/-- Decoding that ends well gives the symbols, as many as wanted. -/
theorem decodeOutcome_eq_ok {cap : Word} {count : Nat} {d d' : List Byte} (h : decodeOutcome cap count d = .ok d')
    (hd : d.length ≤ count) : d'.length = count := by
  rw [decodeOutcome] at h
  split at h
  · cases h
  · split at h
    · cases h
    · cases h
      omega

/-- The closed form of DECOMPRESS on a container with a header: its tree is read, then its symbols. -/
theorem decompressOutcome_of_header {c : List Byte} (cap : Word) (h : 4 ≤ c.length) :
    decompressOutcome c cap =
      (desTree ((bitsOfBytes c).drop 32).length true 0 ((bitsOfBytes c).drop 32)).bind fun p =>
        decodeOutcome cap (natOfBE ((bitsOfBytes c).take 32))
          (p.1.walkSymbols (natOfBE ((bitsOfBytes c).take 32)) p.2.2) := by
  have htake : (bitsOfBytes c).take 32 = bitsOfBytes (c.take 4) := take_bitsOfBytes c 4
  have hdrop : (bitsOfBytes c).drop 32 = bitsOfBytes (c.drop 4) := drop_bitsOfBytes c 4
  rw [decompressOutcome, if_neg (Nat.not_lt.2 h), deserialize, htake, hdrop]
  cases desTree (bitsOfBytes (c.drop 4)).length true 0 (bitsOfBytes (c.drop 4)) <;> rfl

theorem dHeader_short {s : State} (h : s.ctx.len.toNat < 4) :
    dHeader s = .raised .fmtHeader s.ctx.len (wInit (rInit s)) := if_pos h

/-- Phase D_TREE has read the tree `p` gives, from internal state `d` on: an internal root, the bits after the tree left,
nothing written yet. -/
structure TreeIn (s : State) (d : Engine) (p : HuffTree × Nat × Bits) (t : State) : Prop where
  internal : p.1.isInternal = true
  w : t.eng.w = d.w
  symCount : t.eng.symCount = d.symCount
  holds : ∃ hi, t.eng.Holds 0 hi p.1 t.eng.root
  bits : ∃ n, BitsIn s n p.2.2 [] t

section Phases

variable {s t : State} {n N : Nat} {rest : Bits} (hargs : s.ctx.args.wf = true)
  (hans : AnswersOk N s) (hN : N = 9 * s.ctx.len.toNat)
include hargs hans hN

/-- Phase D_HEADER reads the symbol count. -/
theorem dHeader_yields (hlen : 4 ≤ s.ctx.len.toNat) :
    Yields s (fun _ _ u => u.phase = .dTree ∧ BitsIn s 32 ((sourceBits s).drop 32) [] u ∧ u.eng.w = ⟨0, 0, 0⟩ ∧
        u.eng.symCount = BitVec.ofNat 32 (natOfBE ((sourceBits s).take 32)))
      (roomFor s.ctx.cap 0) (dHeader s) := by
  have hstart : BitsIn s 0 (sourceBits s) [] (wInit (rInit s)) :=
    ⟨((Emitted.start s).setEng _).setEng _, .fresh _ rfl rfl, rfl, Nat.le_refl 0⟩
  obtain ⟨u, hread, hu, honly⟩ := readBits_bitsIn hargs hans hN Config.hdrW hstart (by
    rw [length_sourceBits, Config.hdrW]; omega)
  have hlong : ¬(wInit (rInit s)).ctx.len < 4#32 := Nat.not_lt.2 hlen
  unfold dHeader
  dsimp only
  rw [if_neg hlong, hread, Res.bind_ok]
  refine .ok ⟨rfl, ?_, by rw [State.setPhase_eng, State.setSymCount_eng, honly]; rfl, rfl⟩
  exact (hu.setEng (e := { u.eng with symCount := BitVec.ofNat 32 _ }) rfl).setPhase .dTree

/-- Phase D_TREE reads the tree into the arena. -/
theorem dTree_yields (h : BitsIn s n rest [] t) :
    Yields s (fun p _ u => u.phase = .dDecode ∧ TreeIn s t.eng p u) (desTree rest.length true 0 rest) (dTree t) := by
  have hstack : Config.nodeCap < Config.stackDepth + 0 := by decide
  refine (desNode_yields hargs hans hN Config.stackDepth true (t := t.setEng { t.eng with nodeCount := 0 })
    (h.setEng rfl) (Nat.le_refl _) (Nat.zero_le _) hstack).map fun p i u hp ⟨n', _, hu, hread⟩ => ?_
  refine .ok ⟨rfl, isInternal_of_desTree hp, hread.w, hread.symCount, ⟨_, hread.holds.of_node rfl⟩, n', ?_⟩
  exact (hu.setEng (e := { u.eng with root := i }) rfl).setPhase .dDecode

/-- Phase D_DECODE writes the symbols and completes. -/
theorem dDecode_yields {d : Engine} {p : HuffTree × Nat × Bits} {count : Nat} (h : TreeIn s d p t)
    (hw : d.w = ⟨0, 0, 0⟩) (hcount : d.symCount = BitVec.ofNat 32 count) (hlt : count < 2 ^ 32) :
    Yields s (fun out _ u => ∃ k, Completes s k out u) (decodeOutcome s.ctx.cap count (p.1.walkSymbols count p.2.2))
      (dDecode t) := by
  obtain ⟨hinternal, hwriter, hsymCount, ⟨hi, htree⟩, n', hbits⟩ := h
  have hloop := decodeLoop_yields hargs hans hN count (t := t.setSym 0) (hbits.setEng rfl) (htree.of_node rfl) hinternal
    (by rw [State.setSym_eng, hwriter, hw]; rfl) rfl
  have hsteps : t.eng.symCount.toNat = count := by
    rw [hsymCount, hcount]
    exact Nat.mod_eq_of_lt hlt
  rw [List.length_nil, Nat.zero_add, List.nil_append] at hloop
  rw [dDecode, hsteps]
  refine hloop.map fun out _ u hout ⟨k, hu, hsame⟩ => .ok ⟨k, u, hu, ?_⟩
  have hlength := decodeOutcome_eq_ok hout (length_walkSymbols_le _ _ _)
  rw [hsame, State.setSym_eng, hlength, ← hcount, ← hsymCount]

/-- DECOMPRESS ends as its closed form says (R229). -/
theorem decompress_yields (hphase : s.phase = .dHeader) :
    Yields s (fun out _ t => ∃ k, Completes s k out t) (decompressOutcome (s.ctx.srcBytes s.mem) s.ctx.cap)
      (runPhases decompressPhase mostPhases s) := by
  have hlen := srcBytes_length s.ctx s.mem
  rcases Nat.lt_or_ge s.ctx.len.toNat 4 with hshort | hlong
  · rw [decompressOutcome, hlen, if_pos hshort, BitVec.ofNat_toNat, BitVec.setWidth_eq, mostPhases, runPhases,
      decompressPhase_dHeader hphase, dHeader_short hshort]
    exact .raised ⟨rfl, rfl, rfl, rfl, fun _ _ => rfl⟩
  · rw [decompressOutcome_of_header _ (by rwa [hlen])]
    refine Yields.runPhases_next (q := .dTree) (by
      rw [decompressPhase_dHeader hphase]; exact dHeader_yields hargs hans hN hlong) (by decide)
      (fun hlt => absurd hlt (Nat.not_lt_zero _)) fun t1 hp1 h1 => ?_
    obtain ⟨hbits, hw, hcount⟩ := h1
    refine Yields.runPhases_bind (q := .dDecode) (by
      rw [decompressPhase_dTree hp1]; exact dTree_yields hargs hans hN hbits) (by decide) fun p t2 hp2 htree => ?_
    have hlt : natOfBE ((sourceBits s).take 32) < 2 ^ 32 := by
      refine Nat.lt_of_lt_of_le (natOfBE_lt _) (Nat.pow_le_pow_right (by decide) ?_)
      exact List.length_take_le _ _
    refine Yields.runPhases_last ?_ fun out _ u ⟨k, w, _, hu⟩ => by rw [hu, complete_phase]
    rw [decompressPhase_dDecode hp2]
    exact dDecode_yields hargs hans hN htree hw hcount hlt

end Phases

theorem exec_decompress {s : State} (hrun : Running .decompress s) (hlast : s.env.latencyLeft = 1) :
    exec .decompress s = (runPhases decompressPhase mostPhases s).outcome :=
  (exec_lastStep hrun.busy hlast).trans (finish_eq _ _ s)

/-- Settles O33, by `decompress_yields`. -/
theorem decompressWritesItsSymbols : Obligations.DecompressWritesItsSymbols := by
  unfold Obligations.DecompressWritesItsSymbols
  intro s hrun hphase hlast hans
  obtain ⟨t, ht, hsame, hends, -⟩ := (decompress_yields hrun.args hans rfl hphase).endsWith fun _ _ _ h => h
  exact ⟨t, (exec_decompress hrun hlast).trans ht, hsame, hends⟩

/-- Settles O34: the length check comes before the first read, and the error entry draws no answer. -/
theorem decompressShortContainer : Obligations.DecompressShortContainer := by
  unfold Obligations.DecompressShortContainer
  intro s hrun hphase hlast hshort
  have hexec : exec .decompress s = .next (commandError .fmtHeader s.ctx.len (wInit (rInit s))) := by
    rw [exec_decompress hrun hlast, mostPhases, runPhases, decompressPhase_dHeader hphase, dHeader_short hshort]
    rfl
  have hafter : AfterError s s.env.answers (wInit (rInit s)) := ⟨⟨rfl, rfl, rfl, rfl, fun _ _ => rfl⟩, rfl⟩
  exact ⟨_, hexec, hafter.endsWith _ _⟩

/-! ## Family 45_commands: the round trip on the machine (R233) -/

/-- Settles O54: COMPRESS has left its container where DECOMPRESS reads it (`compressWritesItsContainer`), DECOMPRESS ends
as its closed form says (`decompressWritesItsSymbols`), which gives the source bytes back (`decompressUndoesCompress`). -/
theorem machineRoundTrip : Obligations.MachineRoundTrip := by
  unfold Obligations.MachineRoundTrip
  intro s t u hrun hphase hlast hans hroom hexec hrun' hphase' hlast' hmem hsrc hlen hcap hans'
  have hcount := srcBytes_length s.ctx s.mem
  have hwindow := s.ctx.cap.isLt
  obtain ⟨t', ht', -, hcompressed, -⟩ := compressWritesItsContainer s hrun hphase hlast hans
  obtain rfl : t = t' := by simpa using hexec.symm.trans ht'
  have hcontainer : compressOutcome (s.ctx.srcBytes s.mem) s.ctx.cap = .ok (compressBytes (s.ctx.srcBytes s.mem)) :=
    if_neg (Nat.not_lt.2 hroom)
  rw [hcontainer] at hcompressed
  obtain ⟨-, hregs, hbytes, -⟩ := hcompressed
  have hlength : u.ctx.len.toNat = (compressBytes (s.ctx.srcBytes s.mem)).length := by
    rw [hlen, hregs]
    exact Nat.mod_eq_of_lt (by omega)
  have hsource : u.ctx.srcBytes u.mem = compressBytes (s.ctx.srcBytes s.mem) := by
    rw [Ctx.srcBytes, hlength, hmem, hsrc, hbytes]
  obtain ⟨v, hv, -, hdecompressed⟩ := decompressWritesItsSymbols u hrun' hphase' hlast' hans'
  rw [hsource, decompressUndoesCompress _ _ (by omega) (by omega)] at hdecompressed
  obtain ⟨-, hregs', hbytes', -⟩ := hdecompressed
  rw [hcount] at hregs' hbytes'
  refine ⟨v, hv, by rw [hregs'], by rw [hregs'], ?_, hbytes'⟩
  rw [hregs', BitVec.ofNat_toNat, BitVec.setWidth_eq]

end Sys2Proof.Machine

namespace Sys2Proof.Machine

/-! ## Family 60_exceptions: an idle block stays as it is (R262) -/

/-- Settles O5: with no move to come and with an engine move the step is `engineMove`, which an idle block ignores
(`engineMove_idle`). -/
theorem idleBlockStaysAsItIs : Obligations.IdleBlockStaysAsItIs := by
  unfold Obligations.IdleBlockStaysAsItIs
  intro s hidle
  refine ⟨fun hinputs => ?_, fun rest hinputs => ?_⟩ <;> rw [step, hinputs]
  · exact engineMove_idle hidle
  · exact engineMove_idle (s := s.setInputs rest) hidle

end Sys2Proof.Machine

namespace Sys2Proof.Machine

/-! ## Family 60_exceptions: the errors each command can report (R253)

Of COMPRESS the one error to exclude is INT_NO_CODE: the bytes that C_ENCODE reads are those that C_COUNT counted, since
the buffers share no byte, so each has a code (R186). -/

/-- The errors of the memory port and of the window (R251, class 0x0). -/
def ioErrors : List ErrCode := [.ioRead, .ioWrite, .ioDstFull]

/-- The errors of a container that does not decode (R251, class 0x1). -/
def formatErrors : List ErrCode := [.fmtHeader, .fmtTreeEos, .fmtTreeLeafRoot, .fmtTreeTooLarge, .fmtPayloadEos]

/-- A computation raises only these errors, and a value it ends with satisfies the property. -/
inductive Res.Within {α : Type} (l : List ErrCode) (Q : α → State → Prop) : Res α → Prop where
  | ok {a : α} {t : State} (h : Q a t) : Within l Q (.ok a t)
  | raised {c : ErrCode} {v : Word} {t : State} (hc : c ∈ l) : Within l Q (.raised c v t)
  | stuck {f : Fault} : Within l Q (.stuck f)

namespace Res.Within

variable {α β : Type} {l : List ErrCode} {x : Res α} {Q : α → State → Prop}

theorem bind {f : α → State → Res β} {R : β → State → Prop} (h : x.Within l Q)
    (hf : ∀ a t, Q a t → (f a t).Within l R) : (x.bind f).Within l R := by
  cases h with
  | ok h => exact hf _ _ h
  | raised hc => exact .raised hc
  | stuck => exact .stuck

theorem mono {l' : List ErrCode} {R : α → State → Prop} (h : x.Within l Q) (hl : l ⊆ l') (hQ : ∀ a t, Q a t → R a t) :
    x.Within l' R := by
  cases h with
  | ok h => exact .ok (hQ _ _ h)
  | raised hc => exact .raised (hl hc)
  | stuck => exact .stuck

/-- What a computation keeps holds with its value too. -/
theorem with_all {P : State → Prop} (h : x.Within l Q) (hP : x.All P) : x.Within l fun a t => Q a t ∧ P t := by
  cases h with
  | ok h => exact .ok ⟨h, hP⟩
  | raised hc => exact .raised hc
  | stuck => exact .stuck

theorem of_ok {a : α} {t : State} (h : x.Within l Q) (hx : x = .ok a t) : Q a t := by
  subst hx
  cases h with
  | ok h => exact h

theorem of_raised {c : ErrCode} {v : Word} {t : State} (h : x.Within l Q) (hx : x = .raised c v t) : c ∈ l := by
  subst hx
  cases h with
  | raised hc => exact hc

/-- Input and output errors are among the errors of DECOMPRESS. -/
theorem orFormat (h : x.Within ioErrors Q) : x.Within (ioErrors ++ formatErrors) fun _ _ => True :=
  h.mono (List.subset_append_left _ _) fun _ _ _ => trivial

end Res.Within

/-- After a first part that changes only the writer, a second one that does. -/
theorem OnlyWriter.within {α : Type} {l : List ErrCode} {x : Res α} {d e : Engine} (h : OnlyWriter d e)
    (hx : x.Within l fun _ u => OnlyWriter e u.eng) : x.Within l fun _ u => OnlyWriter d u.eng :=
  hx.mono (List.Subset.refl _) fun _ _ hu => h.trans hu

/-! ### The operations of the engine -/

theorem getByte_within (i : Word) (t : State) :
    (getByte i t).Within ioErrors fun b u => b = t.mem.read (t.ctx.src + i).toNat ∧ u.eng = t.eng := by
  rw [getByte_eq]
  split
  · exact .ok ⟨rfl, nextAnswer_eng t⟩
  · exact .raised (by decide)

theorem putByte_within (v : Byte) (t : State) : (putByte v t).Within ioErrors fun _ u => OnlyWriter t.eng u.eng := by
  rw [putByte_eq]
  split
  · exact .raised (by decide)
  · split
    · exact .ok (by simp [OnlyWriter])
    · exact .raised (by decide)

theorem putAcc_within (t : State) : (putAcc t).Within ioErrors fun _ u => OnlyWriter t.eng u.eng :=
  (putByte_within _ t).bind fun _ u hu => .ok (hu.trans (show OnlyWriter u.eng { u.eng with w := _ } from rfl))

theorem writeBit_within (b : Bool) (t : State) : (writeBit b t).Within ioErrors fun _ u => OnlyWriter t.eng u.eng := by
  rw [writeBit]
  dsimp only
  split
  · exact OnlyWriter.within (e := { t.eng with w := _ }) rfl (putAcc_within (t.setWriter _))
  · exact .ok rfl

theorem writeString_within (bs : Bits) (t : State) :
    (writeString bs t).Within ioErrors fun _ u => OnlyWriter t.eng u.eng := by
  induction bs generalizing t with
  | nil => exact .ok rfl
  | cons b bs ih =>
    exact (writeBit_within b t).bind fun _ u hu => hu.within (ih u)

theorem flush_within (t : State) : (flush t).Within ioErrors fun _ u => OnlyWriter t.eng u.eng := by
  rw [flush]
  split
  · exact .ok rfl
  · exact putAcc_within t

theorem serNode_within (depth : Nat) (i : BitVec 9) (t : State) :
    (serNode depth i t).Within ioErrors fun _ u => OnlyWriter t.eng u.eng := by
  induction depth generalizing i t with
  | zero => exact .stuck
  | succ depth ih =>
    rw [serNode]
    split
    · exact .stuck
    · split
      · exact (writeBit_within true t).bind fun _ u hu => hu.within (writeString_within _ u)
      · exact ((writeBit_within false t).bind fun _ u hu => hu.within (ih _ u)).bind fun _ u hu => hu.within (ih _ u)

theorem readBit_within (t : State) : (readBit t).Within ioErrors fun _ _ => True := by
  rw [readBit]
  split
  · split
    · exact .ok trivial
    · split
      · exact .raised (by decide)
      · exact .ok trivial
  · exact .ok trivial

theorem readBitsFrom_within (n : Nat) (v : Word) (t : State) :
    (readBitsFrom n v t).Within ioErrors fun _ _ => True := by
  induction n generalizing v t with
  | zero => exact .ok trivial
  | succ n ih =>
    refine (readBit_within t).bind fun b u _ => ?_
    cases b with
    | none => exact .ok trivial
    | some b => exact ih _ u

/-! ### COMPRESS (R225) -/

/-- What the phases of COMPRESS have made of the source bytes `x`. -/
def CompressKnows (x : List Byte) (u : State) : Prop :=
  match u.phase with
  | .cBuild => Counts x u.eng
  | .cHeader | .cTree | .cDerive => HoldsTree x u.eng
  | .cEncode => Codes (buildTree x) x u.eng
  | .idle | .cCount | .cFlush | .dHeader | .dTree | .dDecode | .xDump => True

theorem Touched.kept {s t : State} (h : Touched s t) : Kept s t := ⟨h.regs, h.ctx, h.inputs, h.resp, h.outside⟩

theorem Tracks.kept {s t : State} (h : Tracks s t) : Kept s t := ⟨h.regs, h.ctx, h.inputs, h.resp, h.outside⟩

section Compress

variable {s t : State} (hargs : s.ctx.args.wf = true)
include hargs

/-- The counting loop counts the source bytes (R141). -/
theorem countLoop_within (n : Nat) (h : Touched s t) (hn : t.eng.k.toNat + n = s.ctx.len.toNat)
    (hcounts : Counts ((s.ctx.srcBytes s.mem).take t.eng.k.toNat) t.eng) :
    (countLoop n t).Within ioErrors fun _ u => Counts (s.ctx.srcBytes s.mem) u.eng := by
  induction n generalizing t with
  | zero =>
    rw [List.take_of_length_le (by rw [srcBytes_length]; omega)] at hcounts
    exact .ok hcounts
  | succ n ih =>
    have hbyte := h.kept.srcByte hargs (i := t.eng.k) (by omega)
    have hnext := toNat_add_one_of_lt (v := t.eng.k) (n := s.ctx.len) (by omega)
    refine ((getByte_within t.eng.k t).with_all (h.getByte _)).bind fun b u ⟨⟨hb, heng⟩, hu⟩ => ?_
    rw [← hb] at hbyte
    have hk : (u.setEng { u.eng.count b with k := u.eng.k + 1 }).eng.k.toNat = t.eng.k.toNat + 1 := by
      rw [State.setEng_eng, heng, hnext]
    refine ih (hu.setEng _) (by omega) ?_
    rw [hk, take_add_one_of_getElem? hbyte, State.setEng_eng, heng]
    exact hcounts.snoc b

/-- The encoding loop finds a code for every source byte (R183, R186). -/
theorem encodeLoop_within {tree : HuffTree} (n : Nat) (h : Tracks s t) (hn : t.eng.k.toNat + n = s.ctx.len.toNat)
    (hcodes : Codes tree (s.ctx.srcBytes s.mem) t.eng) : (encodeLoop n t).Within ioErrors fun _ _ => True := by
  induction n generalizing t with
  | zero => exact .ok trivial
  | succ n ih =>
    have hbyte := h.kept.srcByte hargs (i := t.eng.k) (by omega)
    have hnext := toNat_add_one_of_lt (v := t.eng.k) (n := s.ctx.len) (by omega)
    refine ((getByte_within t.eng.k t).with_all (h.getByte _)).bind fun b u ⟨⟨hb, heng⟩, hu⟩ => ?_
    rw [← hb] at hbyte
    obtain ⟨hvalid, -⟩ := hcodes b (List.mem_of_getElem? hbyte)
    rw [heng, if_pos hvalid]
    refine ((writeString_within _ u).with_all (hu.writeString _)).bind fun _ v ⟨honly, hv⟩ => ?_
    have hk : (v.setK (v.eng.k + 1)).eng.k.toNat = t.eng.k.toNat + 1 := by
      rw [State.setK_eng, honly, heng, hnext]
    refine ih (hv.setK _) (by omega) ?_
    rw [State.setK_eng, honly, heng]
    exact hcodes

/-- A phase of COMPRESS on its way raises only input and output errors, and leaves what the next phase knows. -/
theorem compressPhase_within (h : OnTheWay .compress s t) (hknows : CompressKnows (s.ctx.srcBytes s.mem) t) :
    (compressPhase t).Within ioErrors fun _ u => CompressKnows (s.ctx.srcBytes s.mem) u := by
  have htouched := h.touched
  have hsource := htouched.kept.srcBytes_eq hargs
  have hcursors := ((phaseOk_iff t).1 h.inv.phaseOk).1
  have hdepth : (buildTree (s.ctx.srcBytes s.mem)).depth < Config.stackDepth :=
    Nat.lt_of_le_of_lt (buildTree_depth _) (by decide)
  unfold CompressKnows at hknows
  unfold CursorsOk at hcursors
  unfold compressPhase
  cases hp : t.phase <;> rw [hp] at hknows hcursors <;> dsimp only at hknows hcursors ⊢
  case cCount =>
    rw [cCount, htouched.ctx]
    exact (countLoop_within hargs _ (htouched.setEng _) (Nat.zero_add _) fun b => by simp).bind fun _ u hu => .ok hu
  case cBuild =>
    obtain ⟨e, he, htree⟩ := buildArena_holds (by rw [srcBytes_length]; exact s.ctx.len.isLt) hknows
    rw [cBuild, he]
    exact .ok (show HoldsTree _ e from ⟨_, htree⟩)
  case cHeader =>
    refine (writeString_within _ (wInit t)).bind fun _ u hu => .ok (show HoldsTree _ u.eng from hknows.of_same ?_ ?_) <;>
      rw [hu, wInit_eng]
  case cTree =>
    refine (serNode_within _ _ t).bind fun _ u hu => .ok (show HoldsTree _ u.eng from hknows.of_same ?_ ?_) <;> rw [hu]
  case cDerive =>
    obtain ⟨n, hn⟩ := hknows
    rw [cDerive, derive_of_holds (e := t.eng.clearCodes) (hn.of_node rfl) hdepth]
    exact .ok (show Codes _ _ _ from codes_setCodes _ _)
  case cEncode =>
    have hwindow := CmdArgs.wf_dst hargs
    have htracks : Tracks (t.setK 0) (t.setK 0) := .start (by rw [State.setK_ctx, htouched.ctx]; exact hwindow) hcursors
      htouched.memWf
    refine (encodeLoop_within (s := t.setK 0) (tree := buildTree (s.ctx.srcBytes s.mem)) ?_ _ htracks (Nat.zero_add _)
      ?_).bind fun _ u _ => .ok trivial
    · rw [State.setK_ctx, htouched.ctx, hargs]
    · show Codes _ (t.ctx.srcBytes t.mem) t.eng
      rwa [hsource]
  case cFlush => exact (flush_within t).bind fun _ u _ => .ok trivial
  all_goals exact .stuck

end Compress

/-! ### DUMPBITS (R231) -/

theorem dumpText_within (bs : Bits) (t : State) : (dumpText bs t).Within ioErrors fun _ _ => True := by
  induction bs generalizing t with
  | nil => exact .ok trivial
  | cons b bs ih => exact (putByte_within _ t).bind fun _ u _ => ih u

theorem dumpLoop_within (n : Nat) (t : State) : (dumpLoop n t).Within ioErrors fun _ _ => True := by
  induction n generalizing t with
  | zero => exact .ok trivial
  | succ n ih => exact (getByte_within _ t).bind fun _ u _ => (dumpText_within _ u).bind fun _ v _ => ih _

theorem dumpbitsPhase_within (t : State) : (dumpbitsPhase t).Within ioErrors fun _ _ => True := by
  unfold dumpbitsPhase
  cases t.phase
  case xDump => exact (dumpLoop_within _ _).bind fun _ _ _ => .ok trivial
  all_goals exact .stuck

/-! ### DECOMPRESS (R228) -/

theorem desNode_within (depth : Nat) (isRoot : Bool) (t : State) :
    (desNode depth isRoot t).Within (ioErrors ++ formatErrors) fun _ _ => True := by
  induction depth generalizing isRoot t with
  | zero => exact .stuck
  | succ depth ih =>
    rw [desNode]
    refine (readBit_within t).orFormat.bind fun x u _ => ?_
    cases x with
    | none => exact .raised (by decide)
    | some b =>
      dsimp only
      split
      · exact .raised (by decide)
      · split
        · exact .raised (by decide)
        · split
          · refine (readBitsFrom_within Config.symW 0 _).orFormat.bind fun v w _ => ?_
            cases v with
            | none => exact .raised (by decide)
            | some v => exact .ok trivial
          · exact (ih false _).bind fun _ v _ => (ih false v).bind fun _ _ _ => .ok trivial

theorem walkArena_within (steps : Nat) (i : BitVec 9) (t : State) :
    (walkArena steps i t).Within ioErrors fun _ _ => True := by
  induction steps generalizing i t with
  | zero => exact .stuck
  | succ steps ih =>
    rw [walkArena]
    split
    · exact .stuck
    · split
      · exact .ok trivial
      · refine (readBit_within t).bind fun b u _ => ?_
        cases b with
        | none => exact .ok trivial
        | some b => exact ih _ u

theorem decodeLoop_within (n : Nat) (t : State) :
    (decodeLoop n t).Within (ioErrors ++ formatErrors) fun _ _ => True := by
  induction n generalizing t with
  | zero => exact .ok trivial
  | succ n ih =>
    refine (walkArena_within _ _ t).orFormat.bind fun v u _ => ?_
    cases v with
    | none => exact .raised (by decide)
    | some v => exact (putByte_within v u).orFormat.bind fun _ _ _ => ih _

theorem dHeader_within (t : State) : (dHeader t).Within (ioErrors ++ formatErrors) fun _ _ => True := by
  unfold dHeader
  dsimp only
  split
  · exact .raised (by decide)
  · refine (readBitsFrom_within Config.hdrW 0 _).orFormat.bind fun n u _ => ?_
    cases n with
    | none => exact .stuck
    | some n => exact .ok trivial

theorem decompressPhase_within (t : State) : (decompressPhase t).Within (ioErrors ++ formatErrors) fun _ _ => True := by
  unfold decompressPhase
  cases t.phase
  case dHeader => exact dHeader_within t
  case dTree => exact (desNode_within _ _ _).bind fun _ _ _ => .ok trivial
  case dDecode => exact (decodeLoop_within _ _).bind fun _ _ _ => .ok trivial
  all_goals exact .stuck

/-! ### The error a command ends in -/

/-- A command whose phases raise only these errors, keeping `P` between them, ends in one of them if it ends in an error. -/
theorem errCode_of_phases {i : Instr} {s t : State} {l : List ErrCode} {P : State → Prop} (hinv : s.Inv)
    (hrun : Running i s) (hcommand : s.phase.command = some i) (hlast : s.env.latencyLeft = 1) (hstart : P s)
    (hphase : ∀ u, OnTheWay i s u → P u → (commandPhase i u).Within l fun _ v => P v) (ht : exec i s = .next t)
    (herr : t.regs.status.err = true) : t.regs.errCode ∈ l := by
  rw [exec_busy hrun.busy] at ht
  rcases engineStep_next ht with ⟨-, u, hreach, hend⟩ | ⟨hmore, -⟩
  · obtain ⟨hu, hP⟩ := hreach.preserves (P := fun v => OnTheWay i s v ∧ P v)
      (fun v w ⟨hv, hPv⟩ hw hidle => ⟨hv.step hrun hw hidle, (hphase v hv hPv).of_ok hw⟩) ⟨.start hinv hcommand, hstart⟩
    rcases hend with ⟨hdone, hidle⟩ | ⟨c, v, w, hraised, rfl⟩
    · obtain ⟨n, w, hw, rfl⟩ := hu.completes hrun hdone hidle
      obtain ⟨-, hnoErr, -⟩ := hinv.regsOk.whileBusy hrun.busy
      rw [complete_regs, hw.regs] at herr
      exact absurd (hnoErr.symm.trans herr) nofun
    · rw [commandError_regs]
      exact (hphase u hu hP).of_raised hraised
  · omega

/-- Settles O30: the phases of DECOMPRESS and DUMPBITS raise only these errors from any state, those of COMPRESS from the
states its phases lead to (`CompressKnows`). -/
theorem commandsReportOnlyTheirErrors : Obligations.CommandsReportOnlyTheirErrors := by
  unfold Obligations.CommandsReportOnlyTheirErrors
  intro i s t hinv hrun hfirst hlast ht herr
  have hcommand : s.phase.command = some i := by rw [hfirst]; cases i <;> rfl
  cases i with
  | compress =>
    have hstart : CompressKnows (s.ctx.srcBytes s.mem) s := by rw [CompressKnows, hfirst]; trivial
    exact errCode_of_phases (l := ioErrors) hinv hrun hcommand hlast hstart
      (fun u hu hknows => compressPhase_within hrun.args hu hknows) ht herr
  | decompress =>
    exact errCode_of_phases (l := ioErrors ++ formatErrors) (P := fun _ => True) hinv hrun hcommand hlast trivial
      (fun u _ _ => decompressPhase_within u) ht herr
  | dumpbits =>
    exact errCode_of_phases (l := ioErrors) (P := fun _ => True) hinv hrun hcommand hlast trivial
      (fun u _ _ => dumpbitsPhase_within u) ht herr

end Sys2Proof.Machine

namespace Sys2Proof.Machine

/-! ## Family 70_reset_and_hazards: the move of the engine in one step (R290), and reset (R280, R281) -/

section EngineTurns

variable {s : State} {rest : List Input}

/-- With no move to come the engine moves. -/
theorem step_of_noMove (hinputs : s.env.inputs = []) : step s = engineMove s := by rw [step, hinputs]

theorem step_of_engine (hinputs : s.env.inputs = .engine :: rest) : step s = engineMove (s.setInputs rest) := by
  rw [step, hinputs]

/-- A WAIT on a busy block stays in place and answers STATUS, and the engine moves (spec/30_encoding.md R106). -/
theorem step_of_wait_busy (hbusy : s.regs.status.busy = true) (hinputs : s.env.inputs = .wait :: rest) :
    step s = engineMove (s.respond (.data s.regs.status.word)) := by
  rw [step, hinputs]
  exact if_pos hbusy

theorem step_of_rst (hinputs : s.env.inputs = .rst :: rest) : step s = .next (resetBlock (s.setInputs rest)) := by
  rw [step, hinputs]

end EngineTurns

/-- Settles O4: each of the three moves makes the step an `engineMove`, which runs the command `ctx` names
(`engineMove_busy`). -/
theorem engineStepRunsLatchedCommand : Obligations.EngineStepRunsLatchedCommand := by
  unfold Obligations.EngineStepRunsLatchedCommand
  intro s i rest hbusy hop
  refine ⟨fun hinputs => ?_, fun hinputs => ?_, fun hinputs => ?_⟩
  · rw [step_of_noMove hinputs, engineMove_busy hbusy hop]
  · rw [step_of_engine hinputs]
    exact engineMove_busy (s := s.setInputs rest) hbusy hop
  · rw [step_of_wait_busy hbusy hinputs]
    exact engineMove_busy (s := s.respond _) hbusy hop

/-- Reset forgets the window of a running command, and leaves memory alone otherwise (R281). -/
theorem resetBlock_mem (s : State) :
    (resetBlock s).mem =
      if s.regs.status.busy then s.mem.forget s.ctx.dst.toNat s.ctx.cap.toNat (s.env.draws + 1) else s.mem := by
  rw [resetBlock]
  split <;> rfl

/-- The moves to come are outside the block. -/
@[simp] theorem resetBlock_inputs (s : State) : (resetBlock s).env.inputs = s.env.inputs := by
  rw [resetBlock]
  split <;> rfl

/-- Settles O16: the registers are those of `resetStateReadsZero`, and memory is as `resetBlock_mem` says. -/
theorem resetInputResetsTheBlock : Obligations.ResetInputResetsTheBlock := by
  unfold Obligations.ResetInputResetsTheBlock
  intro s rest hinputs
  obtain ⟨hzero, -⟩ := resetStateReadsZero
  refine ⟨_, step_of_rst hinputs, resetBlock_inputs _, rfl, rfl, hzero, fun hidle => ?_, fun hbusy => ?_⟩
  · rw [resetBlock_mem, State.setInputs_regs, hidle]
    rfl
  · rw [resetBlock_mem, State.setInputs_regs, if_pos hbusy]
    refine ⟨fun a ha => Memory.read_forget_outside _ ha, s.env.draws + 1, fun a hlow hhigh => ?_⟩
    exact (Memory.read_forget ..).trans (if_pos (inWindow_iff.2 ⟨hlow, hhigh⟩))

end Sys2Proof.Machine

namespace Sys2Proof.Machine

/-! ## Family 70_reset_and_hazards: BUSY falls in the last engine step (R288, R289) -/

/-- A step of a running command that is not its last, with no move to come, leaves the registers and one engine step
less. -/
theorem step_beforeLast {s : State} (hinv : s.Inv) (hbusy : s.regs.status.busy = true) (hinputs : s.env.inputs = [])
    (hmore : 1 < s.env.latencyLeft) :
    ∃ t, step s = .next t ∧ t.Inv ∧ t.regs = s.regs ∧ t.env.inputs = [] ∧
      t.env.latencyLeft = s.env.latencyLeft - 1 := by
  obtain ⟨i, hcommand, hrun⟩ := hinv.running hbusy
  obtain ⟨t, ht, hregs, -, ⟨hmoves, -, -⟩, hleft, -⟩ := earlierEngineStepsAreSilent i s hinv hrun hcommand hmore
  have hstep : step s = .next t := (step_running hrun hinputs).trans ht
  exact ⟨t, hstep, stepKeepsInvariant s t hinv hstep, hregs, hmoves.trans hinputs, hleft⟩

/-- Steps of a running command short of its last, with no move to come, keep the registers, BUSY among them. -/
theorem run_keeps_regs {s : State} {n : Nat} (hinv : s.Inv) (hbusy : s.regs.status.busy = true)
    (hinputs : s.env.inputs = []) (hmore : n < s.env.latencyLeft) :
    ∃ t : State, Sys2Proof.core.run n s = .next t ∧ t.regs = s.regs := by
  induction n generalizing s with
  | zero => exact ⟨s, rfl, rfl⟩
  | succ n ih =>
    obtain ⟨t, hstep, hinv', hregs, hinputs', hleft⟩ := step_beforeLast hinv hbusy hinputs (by omega)
    obtain ⟨u, hu, hregs'⟩ := ih hinv' (by rw [hregs, hbusy]) hinputs' (by omega)
    exact ⟨u, (run_succ_of_step (M := core) hstep n).trans hu, hregs'.trans hregs⟩

/-- Ending a running command at once makes the block idle. -/
theorem exec_setLatency_one_idle {i : Instr} {s u : State} (hinv : s.Inv) (hrun : Running i s)
    (hcommand : s.phase.command = some i) (hu : exec i (s.setLatency 1) = .next u) :
    u.regs.status.busy = false ∧ u.phase = .idle := by
  have hrun' : Running i (s.setLatency 1) := ⟨hrun.busy, hrun.op, hrun.args, Nat.le_refl 1⟩
  cases exec_running (hinv.setLatency (Nat.le_refl 1)) hrun' hcommand hu with
  | onward hmore => exact absurd hmore (Nat.lt_irrefl 1)
  | completed => exact ⟨rfl, rfl⟩
  | failed => exact ⟨rfl, rfl⟩

/-- Settles O23: the steps before the last keep the registers (`run_keeps_regs`), and with the last the command has ended
as it would have at once (`latencyDoesNotChangeTheOutcome`). -/
theorem busyFallsAfterItsLatency : Obligations.BusyFallsAfterItsLatency := by
  unfold Obligations.BusyFallsAfterItsLatency
  intro s n hinv hbusy hinputs hlat
  refine ⟨run_keeps_regs hinv hbusy hinputs (by omega), ?_⟩
  obtain ⟨i, hcommand, hrun⟩ := hinv.running hbusy
  obtain ⟨u, hu, hnow⟩ := latencyDoesNotChangeTheOutcome i s n hinv hrun hcommand hinputs hlat
  exact ⟨u, hu, exec_setLatency_one_idle hinv hrun hcommand hnow⟩

end Sys2Proof.Machine
